-- ==== Sys2Proof/Word.lean ====
section
/-! DEFINITION. The word types of BBCE (spec/00_scope.md R14): registers of 64 bits, command, header and sample
words of 32 bits, memory bytes. -/

namespace Sys2Proof

/-- A byte of DMEM (20_memory.md R100). -/
abbrev Byte := BitVec 8

/-- A command word, a header word or a binary32 pattern (R14). -/
abbrev Word32 := BitVec 32

/-- A register or a DMEM element (R14). -/
abbrev Word64 := BitVec 64

end Sys2Proof
end

