-- ==== Sys2Proof/Config.lean ====
section
/-! DEFINITION. The implementation parameters of 00_scope.md R13, each at the value this hardware takes, and the
free values, which the spec leaves open: opaque constants, about whose values nothing can be proved. -/

namespace Sys2Proof.Config

/-! ## Free values -/

/-- What each DMEM byte holds at power-on until it is written: "a model draws every byte freely, under no law"
(20_memory.md R101, 93 U1). DESIGN CHOICE, log 3. -/
opaque powerOnByte : Nat → Byte

/-- What the `k`-th read that R462 leaves unconstrained answers: "any value: old, new or neither"
(70_reset_and_hazards.md R462, 93 U2). DESIGN CHOICE, log 4. -/
opaque busyRead : Nat → Word64

/-- `REG_BASE / 256`: the platform places the register space (R13, 20_memory.md R111, 93 U10). DESIGN CHOICE, log 6. -/
opaque regPage : Nat

/-! ## Platform -/

/-- `REG_BASE`, open, a multiple of 256 (20_memory.md R111). -/
def regBase : Nat := 256 * regPage

/-- `DMEM_BASE - REG_BASE` (R13). -/
def dmemOffset : Nat := 0x10000

/-- `DMEM_BASE` (R13). -/
def dmemBase : Nat := regBase + dmemOffset

/-- The size of the register space in bytes (20_memory.md R100). -/
def regBytes : Nat := 256

/-- `DMEM_BYTES` (R13). -/
def dmemBytes : Nat := 65536

/-! ## CRC engine -/

/-- `POLY_W`, the width of `POLY` in bits (R13). -/
abbrev polyW : Nat := 64

/-- A polynomial as `POLY` holds it (R13, 10_state.md R55). -/
abbrev PolyWord := BitVec polyW

/-- `C_MAX`, the largest check length: `POLY_W - 1` (R13). -/
abbrev cMax : Nat := polyW - 1

/-- `POLY_RESET` (R13). -/
def polyReset : PolyWord := 0x18005

/-- `LANES_MAX`, the widest bitstream element in lanes (R13). -/
def lanesMax : Nat := 64

/-! ## Header profile -/

/-- `HDR_WORDS`, the header length in 32-bit words (R13). -/
abbrev hdrWords : Nat := 4

/-- `HDR_BYTES` (R13): the words' 4 bytes each. -/
def hdrBytes : Nat := 4 * hdrWords

/-- A header field (42_header.md R271): word index, bit offset, bit width. -/
structure Field where
  word : Fin hdrWords
  off : Nat
  width : Nat
deriving DecidableEq, Repr

/-- A run of CRC-protected bits of one header word, taken from `hi` down to `lo` (R13 `CRC_COVER`). -/
structure CoverRange where
  word : Fin hdrWords
  hi : Nat
  lo : Nat
deriving DecidableEq, Repr

/-- `SIZE_MODE` with the parameters each mode uses (42_header.md R310, R311). -/
inductive SizeMode where
  /-- `FIXED`: the payload has `payloadBytes` bytes. -/
  | fixed (payloadBytes : Nat)
  /-- `FIELD`: the frame size, counted in `unit` bytes, stands in `field`. -/
  | field (field : Field) (unit : Nat)
deriving DecidableEq, Repr

/-- The profile: "the set of header parameters" (00_scope.md R24). The five fields with a role (42_header.md R275)
stand by name; `others` holds the remaining rows of `FIELD_TABLE` by field id. -/
structure Profile where
  sync : Field
  jday : Field
  sec : Field
  frac : Field
  crc : Field
  others : List (Nat × Field)
  cover : List CoverRange
  hdrPoly : PolyWord
  syncWord : Word32
  dayWrap : Nat
  sizeMode : SizeMode
deriving DecidableEq, Repr

/-- The default profile: the Mark5B layout of 42_header.md R272, `CRC_COVER` and `HDR_POLY` of R276, `SYNC_WORD` of
R291, `DAY_WRAP` of R305, the size mode of R311. FIDs 8 and 9 are absent (R272), log 10. -/
def profile : Profile where
  sync := ⟨0, 0, 32⟩
  jday := ⟨2, 20, 12⟩
  sec := ⟨2, 0, 20⟩
  frac := ⟨3, 16, 16⟩
  crc := ⟨3, 0, 16⟩
  others := [(1, ⟨1, 16, 16⟩), (2, ⟨1, 15, 1⟩), (3, ⟨1, 0, 15⟩)]
  cover := [⟨2, 31, 0⟩, ⟨3, 31, 16⟩]
  hdrPoly := 0x18005
  syncWord := 0xABADDEED
  dayWrap := 1000
  sizeMode := .fixed 10000

/-- `PAYLOAD_UNIT` (R13). -/
def payloadUnit : Nat := 4

/-! ## Quantization codec -/

/-- `OPT` (R13): the 2-bit outer level, binary32. -/
def opt : Word32 := 0x4054419E

/-- `THRESH2` (R13): the 2-bit encode threshold, binary32. -/
def thresh2 : Word32 := 0x400A20CF

/-- The values `BIT_ORDER` can take (R13, 43_quant.md R332: the order is "fixed by format convention"). -/
inductive BitOrder where
  /-- Level 0 in the lowest bits of the byte. -/
  | lsbFirst
  /-- Level 0 in the highest bits of the byte. -/
  | msbFirst
deriving DecidableEq, Repr

/-- `BIT_ORDER`, the order of levels inside a byte (R13). -/
def bitOrder : BitOrder := .lsbFirst

/-- `CPLX_OK` (R13). -/
def cplxOk : Bool := false

end Sys2Proof.Config
end

