-- ==== Sys2Proof/Syntax.lean ====
section
/-! DEFINITION. The commands of BBCE: one constructor for each row of the opcode map (30_encoding.md R145), its
modifier fields as R142 and R143 lay them out. -/

namespace Sys2Proof

/-- The size kind `K` of format `FS` (30_encoding.md R142, 42_header.md R310): 0 payload, 1 frame. -/
inductive SizeKind where
  | payload
  | frame
deriving DecidableEq, Repr

/-- The 23 commands. -/
inductive Instr where
  /-- `NOP` (44_system.md R370) -/
  | nop
  /-- `BCD.DEC` (40_bcd.md R201) -/
  | bcdDec
  /-- `BCD.ENC digits=D` (40_bcd.md R203) -/
  | bcdEnc (digits : BitVec 5)
  /-- `BCD.DECA` (40_bcd.md R205) -/
  | bcdDeca
  /-- `BCD.ENCA digits=D` (40_bcd.md R207) -/
  | bcdEnca (digits : BitVec 5)
  /-- `CRC.SETPOLY` (41_crc.md R231) -/
  | crcSetpoly
  /-- `CRC.GEN lanes=L` (41_crc.md R240) -/
  | crcGen (lanes : BitVec 7)
  /-- `CRC.CHK lanes=L` (41_crc.md R243) -/
  | crcChk (lanes : BitVec 7)
  /-- `CRC.GENR bits=m` (41_crc.md R246) -/
  | crcGenr (bits : BitVec 7)
  /-- `CRC.CHKR bits=m` (41_crc.md R248) -/
  | crcChkr (bits : BitVec 7)
  /-- `HDR.LD` (42_header.md R280) -/
  | hdrLd
  /-- `HDR.ST` (42_header.md R281) -/
  | hdrSt
  /-- `HDR.RDF field=FID` (42_header.md R283) -/
  | hdrRdf (fid : BitVec 4)
  /-- `HDR.WRF field=FID` (42_header.md R285) -/
  | hdrWrf (fid : BitVec 4)
  /-- `HDR.VAL` (42_header.md R290) -/
  | hdrVal
  /-- `HDR.CRCUPD` (42_header.md R292) -/
  | hdrCrcupd
  /-- `HDR.GETT` (42_header.md R300) -/
  | hdrGett
  /-- `HDR.SETT` (42_header.md R301) -/
  | hdrSett
  /-- `HDR.EPOCH` (42_header.md R303) -/
  | hdrEpoch
  /-- `HDR.SIZE kind=K` (42_header.md R310) -/
  | hdrSize (kind : SizeKind)
  /-- `HDR.EQ` (42_header.md R313) -/
  | hdrEq
  /-- `Q.DEC bps=B [cplx]` (43_quant.md R340) -/
  | qDec (bps : BitVec 2) (cplx : Bool)
  /-- `Q.ENC bps=B [cplx]` (43_quant.md R344) -/
  | qEnc (bps : BitVec 2) (cplx : Bool)
deriving DecidableEq, Repr

/-- Why a command word is illegal (30_encoding.md R146): reasons 1, 2 and 3. -/
inductive IllegalReason where
  /-- Reason 1: the opcode is not in the map. -/
  | unknownOpcode
  /-- Reason 2: a reserved bit is 1. -/
  | reservedBit
  /-- Reason 3: the modifier fails its value constraint. -/
  | modifierRange
deriving DecidableEq, Repr

end Sys2Proof
end

