-- ==== Sys2Proof/WellFormed.lean ====
section
/-! DEFINITION. Which commands exist: the value constraints of 30_encoding.md R142 on the modifier fields. -/

namespace Sys2Proof

/-- Format `FL` with `N` the lanes `L`: `1 <= N <= 64` (R142), the 64 being `LANES_MAX` (00_scope.md R13). -/
def lanesOk (n : BitVec 7) : Bool := decide (1 ≤ n.toNat) && decide (n.toNat ≤ Config.lanesMax)

/-- Format `FL` with `N` the message bits `m` of a 64-bit register: `1 <= N <= 64` (R142). -/
def lengthOk (n : BitVec 7) : Bool := decide (1 ≤ n.toNat) && decide (n.toNat ≤ 64)

/-- Format `FD`: `1 <= D <= 16` (R142). -/
def digitsOk (d : BitVec 5) : Bool := decide (1 ≤ d.toNat) && decide (d.toNat ≤ 16)

/-- Format `FQ`: `B` is 1 or 2 (R142). -/
def bpsOk (b : BitVec 2) : Bool := decide (b.toNat = 1) || decide (b.toNat = 2)

/-- The modifier fields meet R142. Formats `F0`, `FF` and `FS` admit every value of their fields. -/
def Instr.wellFormed : Instr → Bool
  | .nop => true
  | .bcdDec => true
  | .bcdEnc d => digitsOk d
  | .bcdDeca => true
  | .bcdEnca d => digitsOk d
  | .crcSetpoly => true
  | .crcGen n => lanesOk n
  | .crcChk n => lanesOk n
  | .crcGenr n => lengthOk n
  | .crcChkr n => lengthOk n
  | .hdrLd => true
  | .hdrSt => true
  | .hdrRdf _ => true
  | .hdrWrf _ => true
  | .hdrVal => true
  | .hdrCrcupd => true
  | .hdrGett => true
  | .hdrSett => true
  | .hdrEpoch => true
  | .hdrSize _ => true
  | .hdrEq => true
  | .qDec b _ => bpsOk b
  | .qEnc b _ => bpsOk b

end Sys2Proof
end

