-- ==== Sys2Proof/Decode.lean ====
section
/-! DEFINITION. Decoding a command word (30_encoding.md R140 to R147), total, rejecting by R146's reasons; then the
encoder, written from the same tables, and the host's reading of one opcode-table word. -/

namespace Sys2Proof

/-- `OPC`, bits 7..0 (R141). -/
def opcField (w : Word32) : BitVec 8 := w.extractLsb' 0 8

/-- `MOD`, bits 15..8 (R141). -/
def modField (w : Word32) : BitVec 8 := w.extractLsb' 8 8

/-- `RSV`, bits 31..16 (R141). -/
def rsvField (w : Word32) : BitVec 16 := w.extractLsb' 16 16

/-- `N = MOD[6:0]` of format `FL` (R142). -/
def lengthField (m : BitVec 8) : BitVec 7 := m.extractLsb' 0 7

/-- `D = MOD[4:0]` of format `FD` (R142). -/
def digitsField (m : BitVec 8) : BitVec 5 := m.extractLsb' 0 5

/-- `FID = MOD[3:0]` of format `FF` (R142). -/
def fidField (m : BitVec 8) : BitVec 4 := m.extractLsb' 0 4

/-- `K = MOD[0]` of format `FS` (R142). -/
def kindField (m : BitVec 8) : SizeKind := if m.getLsbD 0 then .frame else .payload

/-- `B = MOD[1:0]` of format `FQ` (R142). -/
def bpsField (m : BitVec 8) : BitVec 2 := m.extractLsb' 0 2

/-- `X = MOD[2]` of format `FQ` (R142). -/
def cplxField (m : BitVec 8) : Bool := m.getLsbD 2

/-- The reserved `MOD` bits of format `F0` (R142). -/
def reservedF0 : BitVec 8 := 0xFF

/-- The reserved `MOD` bits of format `FL` (R142). -/
def reservedFL : BitVec 8 := 0x80

/-- The reserved `MOD` bits of format `FD` (R142). -/
def reservedFD : BitVec 8 := 0xE0

/-- The reserved `MOD` bits of format `FF` (R142). -/
def reservedFF : BitVec 8 := 0xF0

/-- The reserved `MOD` bits of format `FS` (R142). -/
def reservedFS : BitVec 8 := 0xFE

/-- The reserved `MOD` bits of format `FQ` (R142). -/
def reservedFQ : BitVec 8 := 0xF8

/-- The opcode map (R145): an opcode's reserved `MOD` bits and the command a `MOD` value names; `none` where the
opcode is not in the map (R147). -/
def opcodeMap (opc : BitVec 8) (m : BitVec 8) : Option (BitVec 8 × Instr) :=
  match opc with
  | 0x00#8 => some (reservedF0, .nop)
  | 0x10#8 => some (reservedF0, .bcdDec)
  | 0x11#8 => some (reservedFD, .bcdEnc (digitsField m))
  | 0x12#8 => some (reservedF0, .bcdDeca)
  | 0x13#8 => some (reservedFD, .bcdEnca (digitsField m))
  | 0x20#8 => some (reservedF0, .crcSetpoly)
  | 0x21#8 => some (reservedFL, .crcGen (lengthField m))
  | 0x22#8 => some (reservedFL, .crcChk (lengthField m))
  | 0x23#8 => some (reservedFL, .crcGenr (lengthField m))
  | 0x24#8 => some (reservedFL, .crcChkr (lengthField m))
  | 0x30#8 => some (reservedF0, .hdrLd)
  | 0x31#8 => some (reservedF0, .hdrSt)
  | 0x32#8 => some (reservedFF, .hdrRdf (fidField m))
  | 0x33#8 => some (reservedFF, .hdrWrf (fidField m))
  | 0x34#8 => some (reservedF0, .hdrVal)
  | 0x35#8 => some (reservedF0, .hdrCrcupd)
  | 0x36#8 => some (reservedF0, .hdrGett)
  | 0x37#8 => some (reservedF0, .hdrSett)
  | 0x38#8 => some (reservedF0, .hdrEpoch)
  | 0x39#8 => some (reservedFS, .hdrSize (kindField m))
  | 0x3A#8 => some (reservedF0, .hdrEq)
  | 0x40#8 => some (reservedFQ, .qDec (bpsField m) (cplxField m))
  | 0x41#8 => some (reservedFQ, .qEnc (bpsField m) (cplxField m))
  | _ => none

/-- Decoding (R146): the first reason that holds, in the order 1, 2, 3, else the command. -/
def decode (w : Word32) : Except IllegalReason Instr :=
  match opcodeMap (opcField w) (modField w) with
  | none => .error .unknownOpcode
  | some (reserved, i) =>
    if rsvField w ≠ 0 ∨ modField w &&& reserved ≠ 0 then .error .reservedBit
    else if i.wellFormed then .ok i
    else .error .modifierRange

/-- R146's reason number. -/
def IllegalReason.number : IllegalReason → Nat
  | .unknownOpcode => 1
  | .reservedBit => 2
  | .modifierRange => 3

/-- The value of `K` (R142). -/
def SizeKind.bit : SizeKind → BitVec 8
  | .payload => 0
  | .frame => 1

/-- The `MOD` byte of format `FQ`: `B` in bits 1..0, `X` in bit 2 (R142). -/
def fqModifier (b : BitVec 2) (x : Bool) : BitVec 8 := b.setWidth 8 ||| (if x then 4 else 0)

/-- A command's `OPC` and `MOD` (R145, R142). -/
def Instr.fields : Instr → BitVec 8 × BitVec 8
  | .nop => (0x00, 0)
  | .bcdDec => (0x10, 0)
  | .bcdEnc d => (0x11, d.setWidth 8)
  | .bcdDeca => (0x12, 0)
  | .bcdEnca d => (0x13, d.setWidth 8)
  | .crcSetpoly => (0x20, 0)
  | .crcGen n => (0x21, n.setWidth 8)
  | .crcChk n => (0x22, n.setWidth 8)
  | .crcGenr n => (0x23, n.setWidth 8)
  | .crcChkr n => (0x24, n.setWidth 8)
  | .hdrLd => (0x30, 0)
  | .hdrSt => (0x31, 0)
  | .hdrRdf f => (0x32, f.setWidth 8)
  | .hdrWrf f => (0x33, f.setWidth 8)
  | .hdrVal => (0x34, 0)
  | .hdrCrcupd => (0x35, 0)
  | .hdrGett => (0x36, 0)
  | .hdrSett => (0x37, 0)
  | .hdrEpoch => (0x38, 0)
  | .hdrSize k => (0x39, k.bit)
  | .hdrEq => (0x3A, 0)
  | .qDec b x => (0x40, fqModifier b x)
  | .qEnc b x => (0x41, fqModifier b x)

/-- The command word, `RSV`, `MOD` and `OPC` from the top down, `RSV` 0 (R141, R149). -/
def encode (i : Instr) : Word32 := (0#16 ++ i.fields.2) ++ i.fields.1

/-- The instruction the decoder reads from a table word of `nbits` bits; the bits above `nbits` are 0 (log 14). -/
def decodeTableWord (nbits w : Nat) : Option Instr :=
  match decode (BitVec.ofNat 32 (w % 2 ^ nbits)) with
  | .ok i => some i
  | .error _ => none

end Sys2Proof
end

