-- ==== Sys2Proof/Machine/State.lean ====
section
/-! DEFINITION. The architectural state of BBCE (10_state.md R43, R44, R65) as plain data, the events still to come
(20_memory.md R113), the reasons a step could stop, and the state after power-on reset (70_reset_and_hazards.md R450). -/

namespace Sys2Proof.Machine

/-- DMEM (20_memory.md R100): the bytes written since power-on, as (engine address, byte) pairs. An unlisted address
has no written value; what reading it gives is `memByte` (log 3). -/
abbrev Memory := List Host.Cell

/-- The canonical form: addresses strictly rising. An unlisted address reads as no written value, which no entry can
equal, so equal lists are the only equal memories (log 3). -/
abbrev Memory.wf (m : Memory) : Prop := m.Pairwise (fun x y => x.1 < y.1)

/-- Every listed address exists: `0 .. DMEM_BYTES-1` (20_memory.md R100). -/
abbrev Memory.inRange (m : Memory) : Prop := ∀ c ∈ m, c.1 < Config.dmemBytes

/-- The header buffer `HDR[0]..HDR[HDR_WORDS-1]` (10_state.md R57, 42_header.md R270); bits 63..32 of each slot are
RAZ/WI and hold nothing. -/
abbrev Header := Vector Word32 Config.hdrWords

/-- The width of a host access: 1, 2, 4 or 8 bytes (20_memory.md R104). -/
inductive HostWidth where
  | b1
  | b2
  | b4
  | b8
deriving DecidableEq, Repr

/-- A host transaction reads, or writes its write data (20_memory.md R104). -/
inductive HostOp where
  | read
  | write (data : Word64)
deriving DecidableEq, Repr

/-- One host transaction (20_memory.md R104). `rel` is the host byte address less `REG_BASE`, an address of any
platform placement (log 6). -/
structure HostAccess where
  rel : Int
  width : HostWidth
  op : HostOp
deriving DecidableEq, Repr

/-- One event of the total order (20_memory.md R113): a host access, or the engine's turn to take its step (log 1). -/
inductive Event where
  | host (access : HostAccess)
  | engine
deriving DecidableEq, Repr

/-- The machine. The first group is the spec's state (10_state.md R43, R44); the last three fields are the model's own. -/
structure State where
  /-- `CTRL[1]` (R47) -/
  ieDone : Bool
  /-- `CTRL[2]` (R47) -/
  ieErr : Bool
  /-- `STATUS[0]` (R48) -/
  busy : Bool
  /-- `STATUS[1]` (R48) -/
  done : Bool
  /-- `STATUS[2]` (R48) -/
  err : Bool
  /-- `STATUS[3]` (R48) -/
  ovr : Bool
  /-- `STATUS[4]` (R48) -/
  herr : Bool
  /-- `ERRCODE[7:0]` (R49) -/
  errCode : BitVec 8
  /-- `ERRINFO` (R50) -/
  errInfo : Word64
  /-- `ERRVAL` (R51) -/
  errVal : Word64
  /-- `CMDLATCH`, the last accepted command word (R52, R64) -/
  cmdLatch : Word32
  /-- `ARG0` (R53) -/
  arg0 : Word64
  /-- `ARG1` (R53) -/
  arg1 : Word64
  /-- `ARG2` (R53) -/
  arg2 : Word64
  /-- `ARG3` (R53) -/
  arg3 : Word64
  /-- `RES0` (R54) -/
  res0 : Word64
  /-- `RES1` (R54) -/
  res1 : Word64
  /-- `RES2` (R54) -/
  res2 : Word64
  /-- `POLY` (R55); `CLEN` is computed from it (R56) -/
  poly : Config.PolyWord
  /-- `HDR0..HDR3` (R57), one word for each of `HDR_WORDS` -/
  hdr : Header
  /-- `DMEM` (20_memory.md R100) -/
  dmem : Memory
  /-- The events still to come, in the total order of 20_memory.md R113 (the model's own, log 1). -/
  events : List Event
  /-- What the host port answered to the latest host access: `some` for a read it decodes (the model's own, log 5). -/
  response : Option Word64
  /-- How many unconstrained reads have drawn a value (the model's own, log 4). -/
  draws : Nat
deriving DecidableEq, Repr

/-- BBCE has no stop: a command error is a completion (60_exceptions.md R410), and every host access has an outcome
(20_memory.md R105 to R107). So no constructor: nothing raises a fault, and that is safe (log 20). -/
inductive Fault
deriving DecidableEq, Repr

/-- Why an instruction has no meaning. -/
inductive Refusal where
  /-- Raised by no arm: every command of the opcode map has its meaning (log 20). It would be safe: the run stops. -/
  | notModelled (mnemonic : String)
deriving DecidableEq, Repr

/-- What a step answers. -/
abbrev Result := Host.Outcome State Fault Refusal

/-- The error names of 60_exceptions.md R401. -/
inductive CmdError where
  | illegalCmd
  | invalidEncoding
  | invalidSize
  | unsupportedSampleType
  | truncatedData
  /-- Reserved for the stream layer: BBCE never raises it (R401, 93 U4). -/
  | endOfStream
  | badPoly
  | badLength
  | range
  | badField
  | badGeometry
  | address
deriving DecidableEq, Repr

/-- Power-on reset (70_reset_and_hazards.md R450, 10_state.md R44, R65): idle, no pending command, no byte of DMEM
written. The last three fields' values are log 15. -/
def State.reset : State where
  ieDone := false
  ieErr := false
  busy := false
  done := false
  err := false
  ovr := false
  herr := false
  errCode := 0
  errInfo := 0
  errVal := 0
  cmdLatch := 0
  arg0 := 0
  arg1 := 0
  arg2 := 0
  arg3 := 0
  res0 := 0
  res1 := 0
  res2 := 0
  poly := Config.polyReset
  hdr := Vector.replicate Config.hdrWords 0
  dmem := []
  events := []
  response := none
  draws := 0

end Sys2Proof.Machine
end

