-- ==== Sys2Proof/Machine/Ops.lean ====
section
/-! DEFINITION. The named operations over memory and registers: the memory primitives of 00_scope.md R20, the array
check of 60_exceptions.md R420, and how a command ends (R410): success, and an error, the one entry every failing
command shares; beside it the acceptance of a new command, which is also what ends an error (R441). -/

namespace Sys2Proof.Machine

/-! ## Memory primitives (00_scope.md R20) -/

/-- The byte written last at `a`, if one was. -/
def cell? : Memory → Nat → Option Byte
  | [], _ => none
  | (b, v) :: m, a => if b = a then some v else cell? m a

/-- `MemByte(a)`: the byte written, or the value drawn at power-on (20_memory.md R101). -/
def memByte (m : Memory) (a : Nat) : Byte := (cell? m a).getD (Config.powerOnByte a)

/-- Write one byte, keeping the addresses rising. -/
def putByte : Memory → Nat → Byte → Memory
  | [], a, v => [(a, v)]
  | (b, w) :: m, a, v =>
    if a < b then (a, v) :: (b, w) :: m
    else if a = b then (a, v) :: m
    else (b, w) :: putByte m a v

/-- `MemRead(a, n)`: little-endian, the byte at `a` lowest (R20, 20_memory.md R102). -/
def memRead (m : Memory) (a : Nat) : Nat → Nat
  | 0 => 0
  | n + 1 => (memByte m a).toNat + 256 * memRead m (a + 1) n

/-- `MemWrite(a, n, v)`: stores `v[8n-1:0]` the same way (R20). -/
def memWrite (m : Memory) (a : Nat) : Nat → Nat → Memory
  | 0, _ => m
  | n + 1, v => memWrite (putByte m a (BitVec.ofNat 8 v)) (a + 1) n (v / 256)

/-- The `k` values of `w` bytes of the array based at `a` (20_memory.md R103). -/
def readArray (m : Memory) (a w : Nat) : Nat → List Nat
  | 0 => []
  | k + 1 => memRead m a w :: readArray m (a + w) w k

/-- Store values of `w` bytes as the array based at `a`, in increasing index order (20_memory.md R103, 40_bcd.md R206). -/
def writeArray (m : Memory) (a w : Nat) : List Nat → Memory
  | [] => m
  | v :: vs => writeArray (memWrite m a w v) (a + w) w vs

/-! ## Address checks -/

/-- `check_array(a, k, w)` passes (60_exceptions.md R420): unbounded arithmetic, and an empty array is not checked. -/
def arrayOk (a k w : Nat) : Bool := k == 0 || (a % w == 0 && decide (a + k * w ≤ Config.dmemBytes))

/-! ## How a command ends -/

/-- The numeric codes of 60_exceptions.md R401. -/
def errorCode : CmdError → BitVec 8
  | .illegalCmd => 0x01
  | .invalidEncoding => 0x02
  | .invalidSize => 0x03
  | .unsupportedSampleType => 0x04
  | .truncatedData => 0x05
  | .endOfStream => 0x06
  | .badPoly => 0x07
  | .badLength => 0x08
  | .range => 0x09
  | .badField => 0x0A
  | .badGeometry => 0x0B
  | .address => 0x0C

/-- The state after a successful completion, `s` holding the command's committed writes (60_exceptions.md R410). -/
def completed (s : State) : State :=
  { s with errCode := 0, errInfo := 0, errVal := 0, err := false, done := true, busy := false }

/-- The state after an error: the state before the command plus the error report (60_exceptions.md R410, R440). -/
def errored (s : State) (e : CmdError) (info val : Word64) : State :=
  { s with errCode := errorCode e, errInfo := info, errVal := val, err := true, done := true, busy := false }

/-- `succeed` (00_scope.md R21): the command completes with the writes in `s`. -/
def succeed (s : State) : Result := .next (completed s)

/-- `raise E(info, val)` (00_scope.md R21), given the state before the command: no other write of it remains. -/
def raise (s : State) (e : CmdError) (info val : Word64) : Result := .next (errored s e info val)

/-- A `CMD` write is accepted (10_state.md R52): the command is pending, and `DONE` and `ERR` are cleared, which is
the only return from an error besides W1C (60_exceptions.md R441). -/
def acceptCommand (w : Word32) (s : State) : State :=
  { s with cmdLatch := w, busy := true, done := false, err := false }

/-- Soft reset (70_reset_and_hazards.md R452): every register to its reset value, a pending command discarded, DMEM
unchanged. The events still to come and the count of draws are not registers of BBCE (log 15). -/
def softReset (s : State) : State :=
  { State.reset with dmem := s.dmem, events := s.events, draws := s.draws }

end Sys2Proof.Machine
end

