-- ==== Sys2Proof/Machine/Operands.lean ====
section
/-! DEFINITION. Every operand form a command reads (30_encoding.md R144): bit strings and BCD digits of a register,
the check length of the polynomial, header fields, and the geometry word. -/

namespace Sys2Proof.Machine

/-! ## Integers -/

/-- `bitlength(p)` (00_scope.md R18). -/
def bitLength (p : Nat) : Nat := if p = 0 then 0 else Nat.log2 p + 1

/-- `CLEN`, the check length `C` of a polynomial (10_state.md R56, 41_crc.md R230). -/
def checkLength (p : Config.PolyWord) : Nat := bitLength p.toNat - 1

/-- The stream of the `m` low bits of `v`, bit `m-1` first, one-lane elements (41_crc.md R245). -/
def bitsOf (v : Word64) : Nat → List Word64
  | 0 => []
  | m + 1 => (if v.getLsbD m then 1 else 0) :: bitsOf v m

/-- The lanes `0..L-1` of a stream element (41_crc.md R240). -/
def laneMask (l : Nat) : Word64 := BitVec.ofNat 64 (2 ^ l - 1)

/-- The elements of a stream of `l` lanes in DMEM (41_crc.md R240, R243). -/
def readStream (m : Memory) (a n l : Nat) : List Word64 :=
  (readArray m a 8 n).map fun e => BitVec.ofNat 64 e &&& laneMask l

/-! ## BCD digits -/

/-- `BCDDIGITS(v, d)`: the `d` low nibbles, least significant first (00_scope.md R22). -/
def bcdDigits (v : Nat) : Nat → List Nat
  | 0 => []
  | d + 1 => v % 16 :: bcdDigits (v / 16) d

/-- The position of the lowest nibble above 9 among the `d` low ones (40_bcd.md R201). -/
def firstBadNibble (v d : Nat) : Option Nat := (bcdDigits v d).findIdx? (fun x => decide (9 < x))

/-- Valid BCD of `d` digits (00_scope.md R22). -/
def validBcd (v d : Nat) : Bool := (bcdDigits v d).all (fun x => decide (x ≤ 9))

/-- The sum of digit times `10^k` (40_bcd.md R201). -/
def bcdSum : List Nat → Nat
  | [] => 0
  | x :: xs => x + 10 * bcdSum xs

/-- `BCDDEC` over `d` digits (40_bcd.md R201). -/
def bcdDecode (v d : Nat) : Nat := bcdSum (bcdDigits v d)

/-- `BCDENC(n, D)`: successive divmod-by-10 into successive nibbles (40_bcd.md R203). -/
def bcdEncode (n : Nat) : Nat → Nat
  | 0 => 0
  | d + 1 => n % 10 + 16 * bcdEncode (n / 10) d

/-- The first index of a list at which `bad` holds, with its element (40_bcd.md R205, R207). -/
def firstBad (bad : Nat → Bool) : List Nat → Nat → Option (Nat × Nat)
  | [], _ => none
  | e :: es, i => if bad e then some (i, e) else firstBad bad es (i + 1)

/-! ## Header fields (42_header.md R271) -/

/-- `HDR[w]` (00_scope.md R19). -/
def Header.word (h : Header) (w : Fin Config.hdrWords) : Word32 := h[w]

/-- `HDR[w] <- v`. -/
def Header.setWord (h : Header) (w : Fin Config.hdrWords) (v : Word32) : Header := Vector.set h w v

/-- The bits of its word that a field owns. -/
def fieldMask (f : Config.Field) : Word32 := BitVec.ofNat 32 (2 ^ f.width - 1) <<< f.off

/-- `FREAD(f)` (R271). -/
def fread (h : Header) (f : Config.Field) : Nat :=
  ((h.word f.word >>> f.off) &&& BitVec.ofNat 32 (2 ^ f.width - 1)).toNat

/-- `FWRITE(f, v)` (R271), for `v < 2^width`. -/
def fwrite (h : Header) (f : Config.Field) (v : Nat) : Header :=
  h.setWord f.word ((h.word f.word &&& ~~~ fieldMask f) ||| (BitVec.ofNat 32 v <<< f.off))

/-- `FIELD_TABLE[FID]`, `none` where the FID is absent (R272, R275). -/
def fieldTable (p : Config.Profile) (fid : Nat) : Option Config.Field :=
  match fid with
  | 0 => some p.sync
  | 4 => some p.jday
  | 5 => some p.sec
  | 6 => some p.frac
  | 7 => some p.crc
  | _ => (p.others.find? (fun r => r.1 == fid)).map (·.2)

/-- The BCD digits of a field: width / 4 (R274, R275). -/
def fieldDigits (f : Config.Field) : Nat := f.width / 4

/-- `TPS`, fraction ticks a second (R275, 00_scope.md R13). -/
def ticksPerSecond (p : Config.Profile) : Nat := 10 ^ fieldDigits p.frac

/-- `TPD`, ticks a day (R303). -/
def ticksPerDay (p : Config.Profile) : Nat := 86400 * ticksPerSecond p

/-- Two runs of bits of one word share a bit. -/
def overlaps (f : Config.Field) (c : Config.CoverRange) : Bool :=
  decide (f.word = c.word) && decide (f.off ≤ c.hi) && decide (c.lo < f.off + f.width)

/-- A field is CRC-covered: at least one of its bits is in `CRC_COVER` (R278). -/
def crcCovered (p : Config.Profile) (f : Config.Field) : Bool := p.cover.any (overlaps f)

/-- `COVERBITS` (R276). -/
def coverBits (p : Config.Profile) (h : Header) : List Word64 :=
  p.cover.flatMap fun c => bitsOf ((h.word c.word).setWidth 64 >>> c.lo) (c.hi + 1 - c.lo)

/-- The words of a header image at `a`, word `w` at bytes `4w..4w+3` (R270, R280). -/
def readHeader (m : Memory) (a : Nat) : Header := Vector.ofFn fun w => BitVec.ofNat 32 (memRead m (a + 4 * w.val) 4)

/-- The header words in order, as stored (R281). -/
def Header.words (h : Header) : List Nat := h.toList.map BitVec.toNat

/-- Every role field and every other row, by FID. -/
def presentFields (p : Config.Profile) : List (Nat × Config.Field) :=
  [(0, p.sync), (4, p.jday), (5, p.sec), (6, p.frac), (7, p.crc)] ++ p.others

/-- A field lies in its word (R271). -/
def fieldLegal (f : Config.Field) : Bool :=
  decide (1 ≤ f.width) && decide (f.width ≤ 32) && decide (f.off + f.width ≤ 32)

/-- Two fields share no bit (R274). -/
def disjointFields (f g : Config.Field) : Bool :=
  decide (f.word ≠ g.word) || decide (f.off + f.width ≤ g.off) || decide (g.off + g.width ≤ f.off)

/-- A legal profile (R274), with the size mode's own demands (R311: a present FID; a unit to count in). -/
def profileLegal (p : Config.Profile) : Bool :=
  (presentFields p).all (fun r => fieldLegal r.2 && decide (r.1 < 16)) &&
  decide ((presentFields p).Pairwise (fun r q => r.1 ≠ q.1 ∧ disjointFields r.2 q.2)) &&
  [p.jday, p.sec, p.frac].all (fun f => f.width % 4 == 0) &&
  p.crc.width == checkLength p.hdrPoly &&
  decide (p.dayWrap ≤ 10 ^ fieldDigits p.jday) && decide (0 < p.dayWrap) &&
  !crcCovered p p.crc &&
  (match p.sizeMode with
   | .fixed _ => true
   | .field f unit => (presentFields p).any (fun r => r.2 == f) && decide (0 < unit))

/-! ## Geometry (43_quant.md R336) -/

/-- What the geometry operand gives: levels `K`, raw bytes `need`, levels a byte `lpb` (R336). -/
structure Geometry where
  levels : Nat
  need : Nat
  perByte : Nat
deriving DecidableEq, Repr

/-- `S = ARG3[31:0]` (R336). -/
def geoSamples (g : Word64) : Nat := (g.extractLsb' 0 32).toNat

/-- `NCH = ARG3[47:32]` (R336). -/
def geoChannels (g : Word64) : Nat := (g.extractLsb' 32 16).toNat

/-- The geometry check for `b` bits a sample: the reason of `BAD_GEOMETRY`, or the geometry (R336). -/
def geometry (g : Word64) (b : Nat) : Except Nat Geometry :=
  if g.extractLsb' 48 16 ≠ 0 then .error 1
  else if geoChannels g = 0 then .error 2
  else if (geoSamples g * geoChannels g * b) % 8 ≠ 0 then .error 3
  else .ok ⟨geoSamples g * geoChannels g, geoSamples g * geoChannels g * b / 8, 8 / b⟩

end Sys2Proof.Machine
end

