-- ==== Sys2Proof/Machine/Bcd.lean ====
section
/-! DEFINITION. The BCD unit (40_bcd.md). -/

namespace Sys2Proof.Machine

/-- `BCD.DEC` (40_bcd.md R201, R202). -/
def execBcdDec (s : State) : Result :=
  match firstBadNibble s.arg0.toNat 16 with
  | some k => raise s .invalidEncoding (BitVec.ofNat 64 k) s.arg0
  | none => succeed { s with res0 := BitVec.ofNat 64 (bcdDecode s.arg0.toNat 16) }

/-- `BCD.ENC digits=D` (40_bcd.md R203). -/
def execBcdEnc (d : BitVec 5) (s : State) : Result :=
  if 10 ^ d.toNat ≤ s.arg0.toNat then raise s .range (d.setWidth 64) s.arg0
  else succeed { s with res0 := BitVec.ofNat 64 (bcdEncode s.arg0.toNat d.toNat) }

/-- What the two array commands share (40_bcd.md R205, R207): both address checks, all elements read, the first bad
one reported, then the whole destination written. -/
def bcdArray (bad : Nat → Bool) (e : CmdError) (convert : Nat → Nat) (s : State) : Result :=
  if !arrayOk s.arg0.toNat s.arg1.toNat 8 then raise s .address 0 s.arg0
  else if !arrayOk s.arg2.toNat s.arg1.toNat 8 then raise s .address 2 s.arg2
  else
    match firstBad bad (readArray s.dmem s.arg0.toNat 8 s.arg1.toNat) 0 with
    | some (i, v) => raise s e (BitVec.ofNat 64 i) (BitVec.ofNat 64 v)
    | none => succeed { s with
        dmem := writeArray s.dmem s.arg2.toNat 8 ((readArray s.dmem s.arg0.toNat 8 s.arg1.toNat).map convert)
        res0 := s.arg1 }

/-- `BCD.DECA` (40_bcd.md R205, R206, R208). -/
def execBcdDeca (s : State) : Result :=
  bcdArray (fun v => !validBcd v 16) .invalidEncoding (fun v => bcdDecode v 16) s

/-- `BCD.ENCA digits=D` (40_bcd.md R207, R206, R208). -/
def execBcdEnca (d : BitVec 5) (s : State) : Result :=
  bcdArray (fun v => decide (10 ^ d.toNat ≤ v)) .range (fun v => bcdEncode v d.toNat) s

end Sys2Proof.Machine
end

