-- ==== Sys2Proof/Machine/Crc.lean ====
section
/-! DEFINITION. The CRC engine (41_crc.md): the lane-parallel division, and the five commands over it. -/

namespace Sys2Proof.Machine

/-! ## The division (41_crc.md R234 to R239) -/

/-- The coefficients `POLY[C], POLY[C-1], ..., POLY[0]`, as they line up with positions `i .. i+C` (00_scope.md R16). -/
def taps (p : Config.PolyWord) : List Bool :=
  (List.range (checkLength p + 1)).map fun j => p.getLsbD (checkLength p - j)

/-- XOR `t` into the leading window positions whose coefficient is 1 (R234's inner loop). -/
def xorWindow (t : Word64) : List Bool → List Word64 → List Word64
  | b :: bs, e :: es => (if b then e ^^^ t else e) :: xorWindow t bs es
  | _, es => es

/-- `k` steps of R234's outer loop. The list is the stream from position `i` on: no later step, and no result, reads
position `i` after step `i`. -/
def divSteps (bs : List Bool) : Nat → List Word64 → List Word64
  | 0, w => w
  | _ + 1, [] => []
  | k + 1, t :: w => divSteps bs k (xorWindow t bs (t :: w)).tail

/-- `DIV(s)` (R234): the last `C` elements. -/
def crcDiv (p : Config.PolyWord) (s : List Word64) : List Word64 := divSteps (taps p) (s.length - checkLength p) s

/-- `REM(s)` (R235): the division of the stream with `C` zero elements appended. -/
def crcRem (p : Config.PolyWord) (s : List Word64) : List Word64 := crcDiv p (s ++ List.replicate (checkLength p) 0)

/-- `PACK0(r)` (R239): lane 0, first element in the highest bit. -/
def pack0 : List Word64 → Nat
  | [] => 0
  | e :: es => e.toNat % 2 * 2 ^ es.length + pack0 es

/-- `NZ(r)` (R239): the lanes whose remainder is not all-zero. -/
def nonzeroLanes : List Word64 → Word64
  | [] => 0
  | e :: es => e ||| nonzeroLanes es

/-- A Boolean result register. -/
def flagValue (b : Bool) : Word64 := if b then 1 else 0

/-! ## Commands -/

/-- The committed writes of `CRC.SETPOLY` (41_crc.md R231). -/
def setPolynomial (p : Config.PolyWord) (s : State) : State :=
  { s with poly := p, res0 := BitVec.ofNat 64 (checkLength p) }

/-- `CRC.SETPOLY` (41_crc.md R231); `CLEN` follows `POLY` (10_state.md R56). -/
def execCrcSetpoly (s : State) : Result :=
  if bitLength s.arg0.toNat < 2 then raise s .badPoly 0 s.arg0
  else succeed (setPolynomial (s.arg0.setWidth Config.polyW) s)

/-- The committed writes of `CRC.GEN`, given the remainder (R240). -/
def genWrites (r : List Word64) (s : State) : State :=
  { s with
    dmem := writeArray s.dmem s.arg2.toNat 8 (r.map BitVec.toNat)
    res0 := BitVec.ofNat 64 (pack0 r)
    res1 := nonzeroLanes r }

/-- `CRC.GEN lanes=L` (41_crc.md R240). -/
def execCrcGen (l : BitVec 7) (s : State) : Result :=
  if !arrayOk s.arg0.toNat s.arg1.toNat 8 then raise s .address 0 s.arg0
  else if !arrayOk s.arg2.toNat (checkLength s.poly) 8 then raise s .address 2 s.arg2
  else succeed (genWrites (crcRem s.poly (readStream s.dmem s.arg0.toNat s.arg1.toNat l.toNat)) s)

/-- The committed writes of a check, given the residue (R243, R248). -/
def checkWrites (r : List Word64) (s : State) : State :=
  { s with
    res0 := flagValue (r.all (· == 0))
    res1 := nonzeroLanes r
    res2 := BitVec.ofNat 64 (pack0 r) }

/-- `CRC.CHK lanes=L` (41_crc.md R243). -/
def execCrcChk (l : BitVec 7) (s : State) : Result :=
  if s.arg1.toNat < checkLength s.poly then raise s .badLength (BitVec.ofNat 64 (checkLength s.poly)) s.arg1
  else if !arrayOk s.arg0.toNat s.arg1.toNat 8 then raise s .address 0 s.arg0
  else succeed (checkWrites (crcDiv s.poly (readStream s.dmem s.arg0.toNat s.arg1.toNat l.toNat)) s)

/-- The committed writes of `CRC.GENR`, given the remainder (R246). -/
def genrWrites (r : List Word64) (s : State) : State :=
  { s with res0 := BitVec.ofNat 64 (pack0 r), res1 := nonzeroLanes r }

/-- `CRC.GENR bits=m` (41_crc.md R246). -/
def execCrcGenr (m : BitVec 7) (s : State) : Result :=
  succeed (genrWrites (crcRem s.poly (bitsOf s.arg0 m.toNat)) s)

/-- The committed writes of `CRC.CHKR`, given the residue (R248): the pass flag is on `PACK0`. -/
def chkrWrites (r : List Word64) (s : State) : State :=
  { s with
    res0 := flagValue (pack0 r == 0)
    res1 := nonzeroLanes r
    res2 := BitVec.ofNat 64 (pack0 r) }

/-- `CRC.CHKR bits=m` (41_crc.md R248). -/
def execCrcChkr (m : BitVec 7) (s : State) : Result :=
  if m.toNat < checkLength s.poly then
    raise s .badLength (BitVec.ofNat 64 (checkLength s.poly)) (m.setWidth 64)
  else succeed (chkrWrites (crcDiv s.poly (bitsOf s.arg0 m.toNat)) s)

end Sys2Proof.Machine
end

