-- ==== Sys2Proof/Machine/HeaderUnit.lean ====
section
/-! DEFINITION. The header validator (42_header.md). Each operation is over a profile (R274), so that the rules hold
for another one as they stand (00_scope.md R14); the commands use this hardware's. -/

namespace Sys2Proof.Machine

/-! ## Header operations -/

/-- `HCRC` (42_header.md R276): `PACK0(REM(COVERBITS))` with the fixed profile polynomial. -/
def headerCrc (p : Config.Profile) (h : Header) : Nat := pack0 (crcRem p.hdrPoly (coverBits p h))

/-- `FWRITE(FIELD_TABLE[CRC], HCRC)` (R292, R285, R301). -/
def updateCrc (p : Config.Profile) (h : Header) : Header := fwrite h p.crc (headerCrc p h)

/-- A BCD field's digits are all valid (R290, R300). -/
def fieldValid (h : Header) (f : Config.Field) : Bool := validBcd (fread h f) (fieldDigits f)

/-- The number a BCD field holds (R300). -/
def fieldDecode (h : Header) (f : Config.Field) : Nat := bcdDecode (fread h f) (fieldDigits f)

/-- The three decoded time fields (R300). -/
structure HeaderTime where
  day : Nat
  sec : Nat
  frac : Nat
deriving DecidableEq, Repr

/-- Decode the time fields in the order `JDAY`, `SEC`, `FRAC`: the FID and the raw bits of the first invalid one,
or the time (R300). -/
def headerTime (p : Config.Profile) (h : Header) : Except (Nat × Nat) HeaderTime :=
  if !fieldValid h p.jday then .error (4, fread h p.jday)
  else if !fieldValid h p.sec then .error (5, fread h p.sec)
  else if !fieldValid h p.frac then .error (6, fread h p.frac)
  else .ok ⟨fieldDecode h p.jday, fieldDecode h p.sec, fieldDecode h p.frac⟩

/-- Write a BCD field (R301). -/
def writeBcdField (h : Header) (f : Config.Field) (n : Nat) : Header := fwrite h f (bcdEncode n (fieldDigits f))

/-- The header `HDR.SETT` leaves (R301): the three time fields, then the CRC field. -/
def setTime (p : Config.Profile) (d s f : Nat) (h : Header) : Header :=
  updateCrc p (writeBcdField (writeBcdField (writeBcdField h p.jday (d % p.dayWrap)) p.sec s) p.frac f)

/-- The header `HDR.WRF` leaves (R285). -/
def writeField (p : Config.Profile) (f : Config.Field) (v : Nat) (h : Header) : Header :=
  if crcCovered p f then updateCrc p (fwrite h f v) else fwrite h f v

/-- The validity bits of `HDR.VAL` (R290): bit 0 sync, bit 1 CRC, bit 2 BCD. -/
def validityBits (p : Config.Profile) (h : Header) : Word64 :=
  flagValue (fread h p.sync == p.syncWord.toNat)
    ||| flagValue (fread h p.crc == headerCrc p h) <<< 1
    ||| flagValue (fieldValid h p.jday && fieldValid h p.sec && fieldValid h p.frac) <<< 2

/-! ## Epoch (R303) -/

/-- `t(k)`, the time of candidate `k` in ticks (R303). -/
def candidateTime (p : Config.Profile) (t : HeaderTime) (k : Nat) : Nat :=
  (t.day + k * p.dayWrap) * ticksPerDay p + t.sec * ticksPerSecond p + t.frac

/-- `k*` of R303: the candidates are equally spaced from `t(0)` up, so the nearest is the one below the reference,
unless the reference lies past the midpoint to the next (log 18). -/
def nearestCandidate (p : Config.Profile) (t : HeaderTime) (r : Nat) : Nat :=
  let beyond := r - candidateTime p t 0
  let period := p.dayWrap * ticksPerDay p
  if period < 2 * (beyond % period) then beyond / period + 1 else beyond / period

/-- The reference `R` in ticks (R303). -/
def referenceTime (p : Config.Profile) (rd rs rf : Nat) : Nat := rd * ticksPerDay p + rs * ticksPerSecond p + rf

/-- The resolved day (R303). -/
def resolvedDay (p : Config.Profile) (t : HeaderTime) (r : Nat) : Nat :=
  t.day + nearestCandidate p t r * p.dayWrap

/-! ## Commands over a profile -/

/-- R283, R273. -/
def readFieldCommand (p : Config.Profile) (fid : BitVec 4) (s : State) : Result :=
  match fieldTable p fid.toNat with
  | none => raise s .badField (fid.setWidth 64) 0
  | some f => succeed { s with res0 := BitVec.ofNat 64 (fread s.hdr f) }

/-- R285, R273. -/
def writeFieldCommand (p : Config.Profile) (fid : BitVec 4) (s : State) : Result :=
  match fieldTable p fid.toNat with
  | none => raise s .badField (fid.setWidth 64) 0
  | some f =>
    if 2 ^ f.width ≤ s.arg0.toNat then raise s .range (fid.setWidth 64) s.arg0
    else
      let h := writeField p f s.arg0.toNat s.hdr
      succeed { s with
        hdr := h
        res0 := BitVec.ofNat 64 (fread h p.crc)
        res1 := flagValue (crcCovered p f) }

/-- R290. -/
def validateCommand (p : Config.Profile) (s : State) : Result :=
  succeed { s with
    res0 := validityBits p s.hdr
    res1 := BitVec.ofNat 64 (headerCrc p s.hdr)
    res2 := BitVec.ofNat 64 (fread s.hdr p.crc) }

/-- R292. -/
def crcUpdateCommand (p : Config.Profile) (s : State) : Result :=
  succeed { s with hdr := updateCrc p s.hdr, res0 := BitVec.ofNat 64 (headerCrc p s.hdr) }

/-- R300. -/
def getTimeCommand (p : Config.Profile) (s : State) : Result :=
  match headerTime p s.hdr with
  | .error (fid, raw) => raise s .invalidEncoding (BitVec.ofNat 64 fid) (BitVec.ofNat 64 raw)
  | .ok t => succeed { s with
      res0 := BitVec.ofNat 64 t.day
      res1 := BitVec.ofNat 64 t.sec
      res2 := BitVec.ofNat 64 t.frac }

/-- R301. The CRC stored is the `HCRC` of the header with its new time fields, which the CRC field does not enter. -/
def setTimeCommand (p : Config.Profile) (s : State) : Result :=
  if 86400 ≤ s.arg1.toNat then raise s .range 1 s.arg1
  else if ticksPerSecond p ≤ s.arg2.toNat then raise s .range 2 s.arg2
  else
    let h := setTime p s.arg0.toNat s.arg1.toNat s.arg2.toNat s.hdr
    succeed { s with hdr := h, res0 := BitVec.ofNat 64 (headerCrc p h) }

/-- R303. -/
def epochCommand (p : Config.Profile) (s : State) : Result :=
  match headerTime p s.hdr with
  | .error (fid, raw) => raise s .invalidEncoding (BitVec.ofNat 64 fid) (BitVec.ofNat 64 raw)
  | .ok t =>
    let day := resolvedDay p t (referenceTime p s.arg0.toNat s.arg1.toNat s.arg2.toNat)
    if 2 ^ 64 ≤ day then raise s .range 0 (BitVec.ofNat 64 t.day)
    else succeed { s with
      res0 := BitVec.ofNat 64 day
      res1 := BitVec.ofNat 64 t.sec
      res2 := BitVec.ofNat 64 t.frac }

/-- The payload size a request names, or the reason of `INVALID_SIZE` (R310, reasons 2 and 1). -/
def payloadOf (k : SizeKind) (z : Nat) : Except Nat Nat :=
  match k with
  | .payload => if z % Config.payloadUnit ≠ 0 then .error 1 else .ok z
  | .frame =>
    if z < Config.hdrBytes then .error 2
    else if (z - Config.hdrBytes) % Config.payloadUnit ≠ 0 then .error 1
    else .ok (z - Config.hdrBytes)

/-- R310 for a payload of `b` bytes, by the size mode: the header it leaves, or the reason (3, or 5 and 4). -/
def sizeHeader (mode : Config.SizeMode) (b : Nat) (h : Header) : Except Nat Header :=
  match mode with
  | .fixed bytes => if b ≠ bytes then .error 3 else .ok h
  | .field f unit =>
    if (b + Config.hdrBytes) % unit ≠ 0 then .error 5
    else if 2 ^ f.width ≤ (b + Config.hdrBytes) / unit then .error 4
    else .ok (fwrite h f ((b + Config.hdrBytes) / unit))

/-- R310, R311. -/
def sizeCommand (p : Config.Profile) (k : SizeKind) (s : State) : Result :=
  match payloadOf k s.arg0.toNat with
  | .error reason => raise s .invalidSize (BitVec.ofNat 64 reason) s.arg0
  | .ok b =>
    match sizeHeader p.sizeMode b s.hdr with
    | .error reason => raise s .invalidSize (BitVec.ofNat 64 reason) s.arg0
    | .ok h => succeed { s with
        hdr := h
        res0 := BitVec.ofNat 64 b
        res1 := BitVec.ofNat 64 (b + Config.hdrBytes) }

/-! ## The commands of this hardware -/

/-- `HDR.LD` (42_header.md R280). -/
def execHdrLd (s : State) : Result :=
  if !arrayOk s.arg0.toNat Config.hdrWords 4 then raise s .address 0 s.arg0
  else succeed { s with hdr := readHeader s.dmem s.arg0.toNat }

/-- `HDR.ST` (42_header.md R281). -/
def execHdrSt (s : State) : Result :=
  if !arrayOk s.arg0.toNat Config.hdrWords 4 then raise s .address 0 s.arg0
  else succeed { s with dmem := writeArray s.dmem s.arg0.toNat 4 s.hdr.words }

/-- `HDR.RDF field=FID` (42_header.md R283). -/
def execHdrRdf (fid : BitVec 4) (s : State) : Result := readFieldCommand Config.profile fid s

/-- `HDR.WRF field=FID` (42_header.md R285). -/
def execHdrWrf (fid : BitVec 4) (s : State) : Result := writeFieldCommand Config.profile fid s

/-- `HDR.VAL` (42_header.md R290). -/
def execHdrVal (s : State) : Result := validateCommand Config.profile s

/-- `HDR.CRCUPD` (42_header.md R292). -/
def execHdrCrcupd (s : State) : Result := crcUpdateCommand Config.profile s

/-- `HDR.GETT` (42_header.md R300). -/
def execHdrGett (s : State) : Result := getTimeCommand Config.profile s

/-- `HDR.SETT` (42_header.md R301). -/
def execHdrSett (s : State) : Result := setTimeCommand Config.profile s

/-- `HDR.EPOCH` (42_header.md R303). -/
def execHdrEpoch (s : State) : Result := epochCommand Config.profile s

/-- `HDR.SIZE kind=K` (42_header.md R310). -/
def execHdrSize (k : SizeKind) (s : State) : Result := sizeCommand Config.profile k s

/-- `HDR.EQ` (42_header.md R313). -/
def execHdrEq (s : State) : Result :=
  if !arrayOk s.arg0.toNat Config.hdrWords 4 then raise s .address 0 s.arg0
  else succeed { s with res0 := flagValue (readHeader s.dmem s.arg0.toNat == s.hdr) }

end Sys2Proof.Machine
end

