-- ==== Sys2Proof/Machine/Quant.lean ====
section
/-! DEFINITION. The quantization sample codec (43_quant.md). -/

namespace Sys2Proof.Machine

/-! ## The tables -/

/-- The binary32 pattern of +1 (43_quant.md R331). -/
def levelPlusOne : Word32 := 0x3F800000

/-- The binary32 pattern of −1 (R331). -/
def levelMinusOne : Word32 := 0xBF800000

/-- The pattern with its sign set: the level of the same magnitude below zero (00_scope.md R23). -/
def negate (v : Word32) : Word32 := v ||| 0x80000000

/-- Which of the `8 / bps` fields of a byte, counted from the lowest bits, holds level `i` (`BIT_ORDER` of 00_scope.md
R13, R332, R333). -/
def levelField (order : Config.BitOrder) (bps i : Nat) : Nat :=
  match order with
  | .lsbFirst => i
  | .msbFirst => 8 / bps - 1 - i

/-- `LUT1[b][i]` (R332): the bit of level `i`, 1 for +1. -/
def lut1 (b : Byte) (i : Nat) : Word32 := if b.getLsbD (levelField Config.bitOrder 1 i) then levelPlusOne else levelMinusOne

/-- `L4` (R334). -/
def level4 (c : Nat) : Word32 :=
  match c with
  | 0 => negate Config.opt
  | 1 => levelPlusOne
  | 2 => levelMinusOne
  | _ => Config.opt

/-- `LUT2[b][i]` (R333): the code in the two bits of level `i`. -/
def lut2 (b : Byte) (i : Nat) : Word32 := level4 (b.extractLsb' (2 * levelField Config.bitOrder 2 i) 2).toNat

/-- The table of `bps` bits a sample (R340). -/
def lut (bps : Nat) (b : Byte) (i : Nat) : Word32 := if bps = 1 then lut1 b i else lut2 b i

/-! ## Codes -/

/-- The biased exponent of a binary32 pattern (00_scope.md R23). -/
def exponent (v : Word32) : Nat := (v.extractLsb' 23 8).toNat

/-- The fraction of a binary32 pattern (00_scope.md R23). -/
def fraction (v : Word32) : Nat := (v.extractLsb' 0 23).toNat

/-- The pattern is a NaN (00_scope.md R23). -/
def isNan (v : Word32) : Bool := exponent v == 255 && fraction v != 0

/-- The exact real `|v|`, in units of 2^-149, subnormals at their exact values (00_scope.md R23, 43_quant.md R348).
An infinity gets a value above every finite pattern's (log 11). -/
def magnitude (v : Word32) : Nat :=
  if exponent v = 0 then fraction v else (2 ^ 23 + fraction v) * 2 ^ (exponent v - 1)

/-- `|v| >= THRESH2`, an exact comparison, false for a NaN (R343). -/
def isOuter (v : Word32) : Bool := !isNan v && decide (magnitude Config.thresh2 ≤ magnitude v)

/-- `Q_1(v)` (R342). -/
def code1 (v : Word32) : Nat := if v.getLsbD 31 then 0 else 1

/-- `Q_2(v)` (R343). -/
def code2 (v : Word32) : Nat :=
  if v.getLsbD 31 then (if isOuter v then 0 else 2) else (if isOuter v then 3 else 1)

/-- `Q_B(v)` (R344). -/
def code (bps : Nat) (v : Word32) : Nat := if bps = 1 then code1 v else code2 v

/-- The codes of a byte's levels from the lowest bits up (`BIT_ORDER` of 00_scope.md R13). -/
def fromLowest (order : Config.BitOrder) (cs : List Nat) : List Nat :=
  match order with
  | .lsbFirst => cs
  | .msbFirst => cs.reverse

/-- The byte of a byte's codes, given from the lowest bits up (R344). -/
def packCodes (bps : Nat) : List Nat → Nat
  | [] => 0
  | c :: cs => c + 2 ^ bps * packCodes bps cs

/-! ## Commands -/

/-- The levels of a payload at `a`: level `k` sits in byte `k / lpb` at position `k mod lpb` (R337, R340). -/
def decodeLevels (m : Memory) (a bps : Nat) (g : Geometry) : List Nat :=
  (List.range g.levels).map fun k => (lut bps (memByte m (a + k / g.perByte)) (k % g.perByte)).toNat

/-- The raw bytes of the levels at `a` (R344): byte `j` packs the codes of levels `j*lpb .. j*lpb + lpb - 1`. -/
def encodeLevels (m : Memory) (a bps : Nat) (g : Geometry) : List Nat :=
  (List.range g.need).map fun j =>
    packCodes bps (fromLowest Config.bitOrder ((List.range g.perByte).map fun i =>
      code bps (BitVec.ofNat 32 (memRead m (a + 4 * (j * g.perByte + i)) 4))))

/-- `Q.DEC bps=B` (43_quant.md R340, R335). The word reported is the latched command (60_exceptions.md R410, log 13). -/
def execQDec (b : BitVec 2) (x : Bool) (s : State) : Result :=
  if x && !Config.cplxOk then raise s .unsupportedSampleType (b.setWidth 64) (s.cmdLatch.setWidth 64)
  else
    match geometry s.arg3 b.toNat with
    | .error reason => raise s .badGeometry (BitVec.ofNat 64 reason) s.arg3
    | .ok g =>
      if s.arg1.toNat < g.need then raise s .truncatedData (BitVec.ofNat 64 g.need) s.arg1
      else if !arrayOk s.arg0.toNat g.need 1 then raise s .address 0 s.arg0
      else if !arrayOk s.arg2.toNat g.levels 4 then raise s .address 2 s.arg2
      else succeed { s with
        dmem := writeArray s.dmem s.arg2.toNat 4 (decodeLevels s.dmem s.arg0.toNat b.toNat g)
        res0 := BitVec.ofNat 64 g.levels
        res1 := BitVec.ofNat 64 g.need }

/-- `Q.ENC bps=B` (43_quant.md R344, R335). -/
def execQEnc (b : BitVec 2) (x : Bool) (s : State) : Result :=
  if x && !Config.cplxOk then raise s .unsupportedSampleType (b.setWidth 64) (s.cmdLatch.setWidth 64)
  else
    match geometry s.arg3 b.toNat with
    | .error reason => raise s .badGeometry (BitVec.ofNat 64 reason) s.arg3
    | .ok g =>
      if !arrayOk s.arg0.toNat g.levels 4 then raise s .address 0 s.arg0
      else if !arrayOk s.arg2.toNat g.need 1 then raise s .address 2 s.arg2
      else succeed { s with
        dmem := writeArray s.dmem s.arg2.toNat 1 (encodeLevels s.dmem s.arg0.toNat b.toNat g)
        res0 := BitVec.ofNat 64 g.levels
        res1 := BitVec.ofNat 64 g.need }

end Sys2Proof.Machine
end

