-- ==== Sys2Proof/Machine/System.lean ====
section
/-! DEFINITION. The system command (44_system.md). -/

namespace Sys2Proof.Machine

/-- `NOP` (44_system.md R370): `succeed`. -/
def execNop (s : State) : Result := succeed s

end Sys2Proof.Machine
end

