-- ==== Sys2Proof/Machine/Dispatch.lean ====
section
/-! DEFINITION. Which meaning each command of the opcode map (30_encoding.md R145) has. -/

namespace Sys2Proof.Machine

-- One arm per constructor of Instr, in the order of the opcode map.
def exec (i : Instr) (s : State) : Host.Outcome State Fault Refusal :=
  match i with
  | .nop => Sys2Proof.Machine.execNop s
  | .bcdDec => Sys2Proof.Machine.execBcdDec s
  | .bcdEnc d => Sys2Proof.Machine.execBcdEnc d s
  | .bcdDeca => Sys2Proof.Machine.execBcdDeca s
  | .bcdEnca d => Sys2Proof.Machine.execBcdEnca d s
  | .crcSetpoly => Sys2Proof.Machine.execCrcSetpoly s
  | .crcGen n => Sys2Proof.Machine.execCrcGen n s
  | .crcChk n => Sys2Proof.Machine.execCrcChk n s
  | .crcGenr n => Sys2Proof.Machine.execCrcGenr n s
  | .crcChkr n => Sys2Proof.Machine.execCrcChkr n s
  | .hdrLd => Sys2Proof.Machine.execHdrLd s
  | .hdrSt => Sys2Proof.Machine.execHdrSt s
  | .hdrRdf f => Sys2Proof.Machine.execHdrRdf f s
  | .hdrWrf f => Sys2Proof.Machine.execHdrWrf f s
  | .hdrVal => Sys2Proof.Machine.execHdrVal s
  | .hdrCrcupd => Sys2Proof.Machine.execHdrCrcupd s
  | .hdrGett => Sys2Proof.Machine.execHdrGett s
  | .hdrSett => Sys2Proof.Machine.execHdrSett s
  | .hdrEpoch => Sys2Proof.Machine.execHdrEpoch s
  | .hdrSize k => Sys2Proof.Machine.execHdrSize k s
  | .hdrEq => Sys2Proof.Machine.execHdrEq s
  | .qDec b x => Sys2Proof.Machine.execQDec b x s
  | .qEnc b x => Sys2Proof.Machine.execQEnc b x s

end Sys2Proof.Machine
end

