-- ==== Sys2Proof/Machine/Flags.lean ====
section
/-! DEFINITION. The flags of `STATUS` and `CTRL` as the host reads and writes them (10_state.md R47, R48, R63), and
the interrupt level (60_exceptions.md R430). Commands compute no condition codes (R63). -/

namespace Sys2Proof.Machine

/-- One bit at position `k` of a register. -/
def flagBit (b : Bool) (k : Nat) : Word64 := if b then (1 : Word64) <<< k else 0

/-- What a read of `STATUS` gives; bits 63..5 are RAZ (R48). -/
def statusWord (s : State) : Word64 :=
  flagBit s.busy 0 ||| flagBit s.done 1 ||| flagBit s.err 2 ||| flagBit s.ovr 3 ||| flagBit s.herr 4

/-- What a read of `CTRL` gives; `SRST` always reads 0, bits 63..3 are RAZ (R47). -/
def ctrlWord (s : State) : Word64 := flagBit s.ieDone 1 ||| flagBit s.ieErr 2

/-- A write of `v` to `STATUS[31:0]`: a 1 clears `DONE`, `ERR`, `OVR` or `HERR`; bit 0 has no effect (R48, R44). -/
def writeStatus (v : Word32) (s : State) : State :=
  { s with
    done := s.done && !v.getLsbD 1
    err := s.err && !v.getLsbD 2
    ovr := s.ovr && !v.getLsbD 3
    herr := s.herr && !v.getLsbD 4 }

/-- A write of `v` to `CTRL[31:0]`: a soft reset if bit 0 is set, else the enables (R47, 70_reset_and_hazards.md R452). -/
def writeCtrl (v : Word32) (s : State) : State :=
  if v.getLsbD 0 then softReset s else { s with ieDone := v.getLsbD 1, ieErr := v.getLsbD 2 }

/-- The level `IRQ` (60_exceptions.md R430). -/
def irq (s : State) : Bool := (s.done && s.ieDone) || (s.err && s.ieErr)

end Sys2Proof.Machine
end

