-- ==== Sys2Proof/Machine/HostPort.lean ====
section
/-! DEFINITION. The host port: which window an address falls in (20_memory.md R104), register accesses (R106, the map
of 10_state.md R44), DMEM accesses (R105), and what the busy interval does to both (70_reset_and_hazards.md R461, R462). -/

namespace Sys2Proof.Machine

/-! ## Addresses and widths -/

/-- What a host address reaches (20_memory.md R104). -/
inductive Target where
  /-- A byte offset in the register space. -/
  | reg (offset : Nat)
  /-- An engine address of DMEM. -/
  | dmem (address : Nat)
  /-- BBCE does not decode the address. -/
  | undecoded
deriving DecidableEq, Repr

/-- The two windows of 20_memory.md R104, for an address given relative to `REG_BASE`. -/
def target (rel : Int) : Target :=
  if 0 ≤ rel ∧ rel < Config.regBytes then .reg rel.toNat
  else if Config.dmemOffset ≤ rel ∧ rel < Config.dmemOffset + Config.dmemBytes then
    .dmem (rel - Config.dmemOffset).toNat
  else .undecoded

/-- The transaction a host makes at the absolute byte address `addr` of its platform (log 6). -/
def accessAt (addr : Nat) (n : HostWidth) (op : HostOp) : HostAccess := ⟨(addr : Int) - Config.regBase, n, op⟩

/-- A width in bytes. -/
def HostWidth.bytes : HostWidth → Nat
  | .b1 => 1
  | .b2 => 2
  | .b4 => 4
  | .b8 => 8

/-- A value as a read of `n` bytes carries it. -/
def cutTo (n : HostWidth) (v : Word64) : Word64 := v &&& BitVec.ofNat 64 (2 ^ (8 * n.bytes) - 1)

/-! ## Answers -/

/-- The port answers a read with `v` (log 5). -/
def respond (v : Word64) (s : State) : State := { s with response := some v }

/-- The access has no answer: a write, or an address BBCE does not decode (log 5). -/
def noResponse (s : State) : State := { s with response := none }

/-- A read R462 leaves unconstrained: the next free value, of the access width (log 4). -/
def respondAny (n : HostWidth) (s : State) : State :=
  { s with response := some (cutTo n (Config.busyRead s.draws)), draws := s.draws + 1 }

/-- An illegal access: not performed, a read returns 0, `HERR` is set (20_memory.md R105, R106). -/
def illegalAccess (op : HostOp) (s : State) : State :=
  match op with
  | .read => { s with herr := true, response := some 0 }
  | .write _ => { s with herr := true, response := none }

/-! ## The register map (10_state.md R44) -/

/-- The slots. -/
inductive Reg where
  | id
  | ctrl
  | status
  | errCode
  | errInfo
  | errVal
  | cmd
  | arg0
  | arg1
  | arg2
  | arg3
  | res0
  | res1
  | res2
  | poly
  | clen
  | hdr0
  | hdr1
  | hdr2
  | hdr3
  | optr
  | thrr
  | reserved
deriving DecidableEq, Repr

/-- The register at slot number `offset / 8` (R44). -/
def regAt (slot : Nat) : Reg :=
  match slot with
  | 0 => .id
  | 1 => .ctrl
  | 2 => .status
  | 3 => .errCode
  | 4 => .errInfo
  | 5 => .errVal
  | 6 => .cmd
  | 8 => .arg0
  | 9 => .arg1
  | 10 => .arg2
  | 11 => .arg3
  | 12 => .res0
  | 13 => .res1
  | 14 => .res2
  | 16 => .poly
  | 17 => .clen
  | 18 => .hdr0
  | 19 => .hdr1
  | 20 => .hdr2
  | 21 => .hdr3
  | 22 => .optr
  | 23 => .thrr
  | _ => .reserved

/-- `ID` (R46): "BCE", version 1. -/
def idWord : Word64 := 0x0000000042434501

/-- The 64 bits a host reads at a slot, RAZ fields 0 (R45 to R58). -/
def regValue (r : Reg) (s : State) : Word64 :=
  match r with
  | .id => idWord
  | .ctrl => ctrlWord s
  | .status => statusWord s
  | .errCode => s.errCode.setWidth 64
  | .errInfo => s.errInfo
  | .errVal => s.errVal
  | .cmd => s.cmdLatch.setWidth 64
  | .arg0 => s.arg0
  | .arg1 => s.arg1
  | .arg2 => s.arg2
  | .arg3 => s.arg3
  | .res0 => s.res0
  | .res1 => s.res1
  | .res2 => s.res2
  | .poly => s.poly.setWidth 64
  | .clen => BitVec.ofNat 64 (checkLength s.poly)
  | .hdr0 => (s.hdr.word 0).setWidth 64
  | .hdr1 => (s.hdr.word 1).setWidth 64
  | .hdr2 => (s.hdr.word 2).setWidth 64
  | .hdr3 => (s.hdr.word 3).setWidth 64
  | .optr => Config.opt.setWidth 64
  | .thrr => Config.thresh2.setWidth 64
  | .reserved => 0

/-- The registers whose reads are unconstrained while busy (70_reset_and_hazards.md R462). -/
def volatileWhileBusy : Reg → Bool
  | .res0 | .res1 | .res2 | .errCode | .errInfo | .errVal | .hdr0 | .hdr1 | .hdr2 | .hdr3 | .poly | .clen => true
  | .id | .ctrl | .status | .cmd | .arg0 | .arg1 | .arg2 | .arg3 | .optr | .thrr | .reserved => false

/-- Which bits of a slot an access reaches (20_memory.md R106). -/
inductive Half where
  | whole
  | low
  | high
deriving DecidableEq, Repr

/-- A legal register access: width 4 or 8, naturally aligned (20_memory.md R106). -/
def regLegal (offset : Nat) (n : HostWidth) : Bool :=
  match n with
  | .b1 => false
  | .b2 => false
  | .b4 => offset % 4 == 0
  | .b8 => offset % 8 == 0

/-- The bits a legal register access reaches (20_memory.md R106). -/
def halfOf (offset : Nat) (n : HostWidth) : Half :=
  match n with
  | .b8 => .whole
  | _ => if offset % 8 == 0 then .low else .high

/-- What a read of part of a slot answers (20_memory.md R106). -/
def readHalf (h : Half) (v : Word64) : Word64 :=
  match h with
  | .whole => v
  | .low => (v.extractLsb' 0 32).setWidth 64
  | .high => (v.extractLsb' 32 32).setWidth 64

/-- The write data that reach bits 31..0 of a slot, if any do. -/
def lowData (h : Half) (d : Word64) : Option Word32 :=
  match h with
  | .whole => some (d.extractLsb' 0 32)
  | .low => some (d.extractLsb' 0 32)
  | .high => none

/-- The write data that reach bits 63..32 of a slot, if any do. -/
def highData (h : Half) (d : Word64) : Option Word32 :=
  match h with
  | .whole => some (d.extractLsb' 32 32)
  | .low => none
  | .high => some (d.extractLsb' 0 32)

/-- A 64-bit field after a write of part of it (20_memory.md R106). -/
def mergeHalves (old : Word64) (h : Half) (d : Word64) : Word64 :=
  ((highData h d).getD (old.extractLsb' 32 32)) ++ ((lowData h d).getD (old.extractLsb' 0 32))

/-- A write dropped because a command is running (70_reset_and_hazards.md R461). -/
def dropWrite (s : State) : State := { s with ovr := true }

/-- A write to a read-only register or a reserved slot (20_memory.md R107, 10_state.md R45). -/
def refuseWrite (s : State) : State := { s with herr := true }

/-- A write of `CMD` (10_state.md R52): bits 31..0 issue a command; a write of the high half alone has no effect (log 7). -/
def writeCmd (h : Half) (d : Word64) (s : State) : State :=
  match lowData h d with
  | none => s
  | some w => if s.busy then dropWrite s else acceptCommand w s

/-- A write of an `ARG` or `HDR` register, performed by `f` unless a command is running (70_reset_and_hazards.md R461, log 8). -/
def writeIdle (f : State → State) (s : State) : State := if s.busy then dropWrite s else f s

/-- A header word after a write of its slot; bits 63..32 are RAZ/WI (10_state.md R57). -/
def mergeWord (old : Word32) (h : Half) (d : Word64) : Word32 := (lowData h d).getD old

/-- A legal write access to a register (R44, 20_memory.md R106, R107). -/
def regWrite (r : Reg) (h : Half) (d : Word64) (s : State) : State :=
  match r with
  | .id | .errCode | .errInfo | .errVal => refuseWrite s
  | .res0 | .res1 | .res2 | .poly | .clen | .optr | .thrr | .reserved => refuseWrite s
  | .ctrl => match lowData h d with
    | none => s
    | some v => writeCtrl v s
  | .status => match lowData h d with
    | none => s
    | some v => writeStatus v s
  | .cmd => writeCmd h d s
  | .arg0 => writeIdle (fun s => { s with arg0 := mergeHalves s.arg0 h d }) s
  | .arg1 => writeIdle (fun s => { s with arg1 := mergeHalves s.arg1 h d }) s
  | .arg2 => writeIdle (fun s => { s with arg2 := mergeHalves s.arg2 h d }) s
  | .arg3 => writeIdle (fun s => { s with arg3 := mergeHalves s.arg3 h d }) s
  | .hdr0 => writeIdle (fun s => { s with hdr := s.hdr.setWord 0 (mergeWord (s.hdr.word 0) h d) }) s
  | .hdr1 => writeIdle (fun s => { s with hdr := s.hdr.setWord 1 (mergeWord (s.hdr.word 1) h d) }) s
  | .hdr2 => writeIdle (fun s => { s with hdr := s.hdr.setWord 2 (mergeWord (s.hdr.word 2) h d) }) s
  | .hdr3 => writeIdle (fun s => { s with hdr := s.hdr.setWord 3 (mergeWord (s.hdr.word 3) h d) }) s

/-- A legal read access to a register (20_memory.md R106, 70_reset_and_hazards.md R462). -/
def regRead (r : Reg) (n : HostWidth) (h : Half) (s : State) : State :=
  if s.busy && volatileWhileBusy r then respondAny n s else respond (readHalf h (regValue r s)) s

/-- A register access (20_memory.md R106); an illegal one sets `HERR`, busy or not (log 9). -/
def regAccess (offset : Nat) (n : HostWidth) (op : HostOp) (s : State) : State :=
  if regLegal offset n then
    match op with
    | .read => regRead (regAt (offset / 8)) n (halfOf offset n) s
    | .write d => regWrite (regAt (offset / 8)) (halfOf offset n) d (noResponse s)
  else illegalAccess op s

/-! ## DMEM accesses -/

/-- A legal DMEM access: naturally aligned and wholly in DMEM (20_memory.md R105). -/
def dmemLegal (a : Nat) (n : HostWidth) : Bool := a % n.bytes == 0 && decide (a + n.bytes ≤ Config.dmemBytes)

/-- A DMEM access (20_memory.md R105); while busy a write is dropped and a read is unconstrained
(70_reset_and_hazards.md R461, R462); an illegal one sets `HERR`, busy or not (log 9). -/
def dmemAccess (a : Nat) (n : HostWidth) (op : HostOp) (s : State) : State :=
  if dmemLegal a n then
    match op with
    | .read => if s.busy then respondAny n s else respond (BitVec.ofNat 64 (memRead s.dmem a n.bytes)) s
    | .write d =>
      if s.busy then dropWrite (noResponse s)
      else { noResponse s with dmem := memWrite s.dmem a n.bytes d.toNat }
  else illegalAccess op s

/-- One host access, one event (20_memory.md R104, R108, R113). An address BBCE does not decode reaches nothing (log 6). -/
def hostAccess (x : HostAccess) (s : State) : State :=
  match target x.rel with
  | .reg o => regAccess o x.width x.op s
  | .dmem a => dmemAccess a x.width x.op s
  | .undecoded => noResponse s

end Sys2Proof.Machine
end

