-- ==== Sys2Proof/Machine/Engine.lean ====
section
/-! DEFINITION. The engine's step (60_exceptions.md R410), the next event of the total order (20_memory.md R113), and
the placing of a command as the next thing the machine runs. -/

namespace Sys2Proof.Machine

/-- The engine step (60_exceptions.md R410): decode the latched word, run the command or report why it is illegal
(30_encoding.md R146). -/
def engineStep (s : State) : Result :=
  match decode s.cmdLatch with
  | .ok i => exec i s
  | .error r => raise s .illegalCmd (BitVec.ofNat 64 r.number) (s.cmdLatch.setWidth 64)

/-- The engine's turn: it has a step only while a command is pending (10_state.md R42, 60_exceptions.md R448). -/
def engineTurn (s : State) : Result := if s.busy then engineStep s else .next s

/-- The next event (log 1). When no event is left, a pending command completes, as it must (70_reset_and_hazards.md
R470), and an idle engine waits for the host (R451). -/
def nextEvent (s : State) : Result :=
  match s.events with
  | [] => engineTurn s
  | .engine :: es => engineTurn { s with events := es }
  | .host x :: es => .next (hostAccess x { s with events := es })

/-- The events with the engine's turn first; where none is left, the engine's turn is next already. -/
def engineFirst (es : List Event) : List Event :=
  match es with
  | [] => []
  | e :: es => .engine :: e :: es

/-- The command word `w` accepted (10_state.md R52) with the engine's turn next (log 2). -/
def placeCommand (w : Word32) (s : State) : State :=
  { acceptCommand w s with events := engineFirst s.events }

end Sys2Proof.Machine
end

