-- ==== Sys2Proof/Machine/Step.lean ====
section
/-! DEFINITION. One step of BBCE: the next event of its total order (20_memory.md R113). -/

namespace Sys2Proof.Machine

/-- One event: a host access or the engine's turn. -/
def step (s : State) : Host.Outcome State Fault Refusal := nextEvent s

/-- `s` with the opcode-table word `w` of `nbits` bits as the accepted command the next step runs (log 2, log 14). -/
def State.withFetchWord (s : State) (nbits w : Nat) : State :=
  placeCommand (BitVec.ofNat 32 (w % 2 ^ nbits)) s

end Sys2Proof.Machine
end

