-- ==== Sys2Proof/Safety.lean ====
section
/-! DEFINITION. The terms claims use: what a good state is, and the spec's own words for digits, arrays, residues,
accesses and tables, written apart from the machine's functions so that a claim compares the two. -/

namespace Sys2Proof.Safety

open Sys2Proof.Machine

/-! ## Good states -/

/-- What every state of a run has. -/
structure Invariant (s : State) : Prop where
  /-- The memory list is in its canonical form (log 3). -/
  memory_canonical : s.dmem.wf
  /-- No byte outside `0 .. DMEM_BYTES-1` is ever written (20_memory.md R100, R103). -/
  memory_in_range : s.dmem.inRange
  /-- "Legal values are those with `bitlength(POLY) >= 2`" (10_state.md R55): `POLY` is not 0 or 1. -/
  poly_legal : 2 ≤ s.poly.toNat
  /-- Codes 0x0D..0xFF and 0x06 are never produced (60_exceptions.md R401, 93 U4, U5). -/
  code_known : s.errCode.toNat ≤ 0x0C ∧ s.errCode ≠ 0x06
  /-- `ERRINFO` and `ERRVAL` are 0 after a successful command (10_state.md R50, R51). -/
  success_report : s.errCode = 0 → s.errInfo = 0 ∧ s.errVal = 0
  /-- `ERR` stands only over a failed command's code (10_state.md R48, R49). -/
  error_has_code : s.err = true → s.errCode ≠ 0
  /-- Acceptance clears `DONE` and `ERR`, and only completion sets them (10_state.md R48, 60_exceptions.md R441). -/
  busy_is_clean : s.busy = true → s.done = false ∧ s.err = false

/-- Power-on with the events `es` to come: what any host and any placing of the engine's turns make of the machine. -/
def startedWith (es : List Event) : State := { State.reset with events := es }

/-- The states of the runs from power-on. -/
def Reachable (s : State) : Prop := ∃ es n, Host.Core.run Sys2Proof.core n (startedWith es) = .next s

/-! ## Digits (00_scope.md R22) -/

/-- Nibble `k` of `v`. -/
def nibble (v k : Nat) : Nat := v / 16 ^ k % 16

/-- Valid BCD of `d` digits. -/
def DigitsOk (v d : Nat) : Prop := ∀ k < d, nibble v k ≤ 9

/-- The decimal number of the `d` low nibbles (40_bcd.md R200, R201). -/
def decimal (v d : Nat) : Nat := ∑ k ∈ Finset.range d, nibble v k * 10 ^ k

/-! ## Arrays (20_memory.md R103, 60_exceptions.md R420) -/

/-- The array of `k` accesses of `w` bytes at `a` is empty, or aligned and in range. -/
def Placed (a k w : Nat) : Prop := k = 0 ∨ (a % w = 0 ∧ a + k * w ≤ 65536)

/-- Every byte outside the `n` bytes at `a` is the same in both memories. -/
def SameOutside (m m' : Memory) (a n : Nat) : Prop := ∀ b, (b < a ∨ a + n ≤ b) → memByte m' b = memByte m b

/-! ## Division (41_crc.md R234 to R238) -/

/-- `C` is the check length of `p`: `bitlength(p) - 1` for `p` of at least two bits (R230). -/
def HasCheckLength (p : Word64) (c : Nat) : Prop := 1 ≤ c ∧ 2 ^ c ≤ p.toNat ∧ p.toNat < 2 ^ (c + 1)

/-- R238 read for one lane: with `S(x) = sum s[i] x^(n-1-i)`, `R(x) = sum r[k] x^(c-1-k)` and `P(x) = sum p[k] x^k` over
GF(2), `R = (S x^shift) mod P`. The remainder `REM` has `shift = c`; the residue of a check has `shift = 0`. -/
def IsResidue (p : Word64) (c n shift : Nat) (s r : Nat → Bool) : Prop :=
  (∑ k ∈ Finset.range c, if r k then (Polynomial.X : Polynomial (ZMod 2)) ^ (c - 1 - k) else 0) =
    Polynomial.modByMonic
      ((∑ i ∈ Finset.range n, if s i then Polynomial.X ^ (n - 1 - i) else 0) * Polynomial.X ^ shift)
      (∑ k ∈ Finset.range 64, if p.getLsbD k then Polynomial.X ^ k else 0)

/-- Bit `l` of the 64-bit element `i` of the array at `a` (00_scope.md R20 `Elem`, 41_crc.md R233). -/
def laneBit (m : Memory) (a i l : Nat) : Bool := (memRead m (a + 8 * i) 8).testBit l

/-! ## Tables -/

/-- The opcode map of 30_encoding.md R145: match and mask of each row, in its order. -/
def opcodeRows : List (Word32 × Word32) :=
  [(0x00000000, 0xFFFFFFFF), (0x00000010, 0xFFFFFFFF), (0x00000011, 0xFFFFE0FF), (0x00000012, 0xFFFFFFFF),
   (0x00000013, 0xFFFFE0FF), (0x00000020, 0xFFFFFFFF), (0x00000021, 0xFFFF80FF), (0x00000022, 0xFFFF80FF),
   (0x00000023, 0xFFFF80FF), (0x00000024, 0xFFFF80FF), (0x00000030, 0xFFFFFFFF), (0x00000031, 0xFFFFFFFF),
   (0x00000032, 0xFFFFF0FF), (0x00000033, 0xFFFFF0FF), (0x00000034, 0xFFFFFFFF), (0x00000035, 0xFFFFFFFF),
   (0x00000036, 0xFFFFFFFF), (0x00000037, 0xFFFFFFFF), (0x00000038, 0xFFFFFFFF), (0x00000039, 0xFFFFFEFF),
   (0x0000003A, 0xFFFFFFFF), (0x00000040, 0xFFFFF8FF), (0x00000041, 0xFFFFF8FF)]

/-- R142's value constraint fails for a word that matches its row (30_encoding.md R146, reason 3). -/
def ModifierOutOfRange (w : Word32) : Prop :=
  (w &&& 0xFF ∈ [0x21, 0x22, 0x23, 0x24] ∧ ((w.extractLsb' 8 7).toNat = 0 ∨ 64 < (w.extractLsb' 8 7).toNat)) ∨
  (w &&& 0xFF ∈ [0x11, 0x13] ∧ ((w.extractLsb' 8 5).toNat = 0 ∨ 16 < (w.extractLsb' 8 5).toNat)) ∨
  (w &&& 0xFF ∈ [0x40, 0x41] ∧ ((w.extractLsb' 8 2).toNat = 0 ∨ (w.extractLsb' 8 2).toNat = 3))

/-- A present row of the default `FIELD_TABLE`: FID, word, bit offset, bit width (42_header.md R272). -/
def fieldRows : List (Nat × Fin 4 × Nat × Nat) :=
  [(0, 0, 0, 32), (1, 1, 16, 16), (2, 1, 15, 1), (3, 1, 0, 15), (4, 2, 20, 12), (5, 2, 0, 20), (6, 3, 16, 16),
   (7, 3, 0, 16)]

/-- The `width` bits at `off` of a header word, as a number (42_header.md R271). -/
def bitsAt (v : Word32) (off width : Nat) : Nat := v.toNat / 2 ^ off % 2 ^ width

/-- The reset value a host reads at each slot offset that is not reserved (10_state.md R44). -/
def resetRows : List (Nat × Word64) :=
  [(0x000, 0x0000000042434501), (0x008, 0), (0x010, 0), (0x018, 0), (0x020, 0), (0x028, 0), (0x030, 0), (0x040, 0),
   (0x048, 0), (0x050, 0), (0x058, 0), (0x060, 0), (0x068, 0), (0x070, 0), (0x080, 0x18005), (0x088, 16), (0x090, 0),
   (0x098, 0), (0x0A0, 0), (0x0A8, 0), (0x0B0, 0x4054419E), (0x0B8, 0x400A20CF)]

/-- The error codes of 60_exceptions.md R401. -/
def codeRows : List (CmdError × BitVec 8) :=
  [(.illegalCmd, 0x01), (.invalidEncoding, 0x02), (.invalidSize, 0x03), (.unsupportedSampleType, 0x04),
   (.truncatedData, 0x05), (.endOfStream, 0x06), (.badPoly, 0x07), (.badLength, 0x08), (.range, 0x09),
   (.badField, 0x0A), (.badGeometry, 0x0B), (.address, 0x0C)]

/-- The slot offsets of the read-only registers (20_memory.md R107). -/
def readOnlyOffsets : List Nat :=
  [0x000, 0x018, 0x020, 0x028, 0x060, 0x068, 0x070, 0x080, 0x088, 0x0B0, 0x0B8]

/-- The reserved slot offsets (10_state.md R44, R45). -/
def reservedOffsets : List Nat :=
  [0x038, 0x078, 0x0C0, 0x0C8, 0x0D0, 0x0D8, 0x0E0, 0x0E8, 0x0F0, 0x0F8]

/-- What a read of a slot answers, by slot offset (10_state.md R44 to R58): `CTRL` and `STATUS` by the place of each
bit, every other register by its field, zero-extended; `CLEN` stands apart, as a claim about the check length. -/
def readRows (s : State) : List (Nat × Word64) :=
  [(0x000, 0x0000000042434501),
   (0x008, BitVec.ofNat 64 (2 * s.ieDone.toNat + 4 * s.ieErr.toNat)),
   (0x010, BitVec.ofNat 64
     (s.busy.toNat + 2 * s.done.toNat + 4 * s.err.toNat + 8 * s.ovr.toNat + 16 * s.herr.toNat)),
   (0x018, s.errCode.setWidth 64), (0x020, s.errInfo), (0x028, s.errVal), (0x030, s.cmdLatch.setWidth 64),
   (0x040, s.arg0), (0x048, s.arg1), (0x050, s.arg2), (0x058, s.arg3),
   (0x060, s.res0), (0x068, s.res1), (0x070, s.res2), (0x080, s.poly),
   (0x090, (s.hdr.word 0).setWidth 64), (0x098, (s.hdr.word 1).setWidth 64), (0x0A0, (s.hdr.word 2).setWidth 64),
   (0x0A8, (s.hdr.word 3).setWidth 64), (0x0B0, 0x4054419E), (0x0B8, 0x400A20CF)] ++
  reservedOffsets.map fun o => (o, 0)

/-- The slot offsets whose reads are unconstrained while a command runs (70_reset_and_hazards.md R462). -/
def unconstrainedOffsets : List Nat :=
  [0x018, 0x020, 0x028, 0x060, 0x068, 0x070, 0x080, 0x088, 0x090, 0x098, 0x0A0, 0x0A8]

/-- The argument registers (10_state.md R53): the slot offset, what stands in the register, and the state with another
value in it. -/
def argRows : List (Nat × (State → Word64) × (State → Word64 → State)) :=
  [(0x040, State.arg0, fun s v => { s with arg0 := v }), (0x048, State.arg1, fun s v => { s with arg1 := v }),
   (0x050, State.arg2, fun s v => { s with arg2 := v }), (0x058, State.arg3, fun s v => { s with arg3 := v })]

/-- The header registers (10_state.md R57): the slot offset and the header word. -/
def headerRows : List (Nat × Fin 4) := [(0x090, 0), (0x098, 1), (0x0A0, 2), (0x0A8, 3)]

/-! ## Host accesses -/

/-- The register access at byte offset `o` of the register space. -/
def regAccessAt (o : Nat) (n : HostWidth) (op : HostOp) : HostAccess := ⟨o, n, op⟩

/-- The DMEM access at engine address `a` (20_memory.md R104, R111). -/
def dmemAccessAt (a : Nat) (n : HostWidth) (op : HostOp) : HostAccess := ⟨a + 0x10000, n, op⟩

/-- A register access of width 4 or 8, naturally aligned (20_memory.md R106). -/
def RegShape (o : Nat) (n : HostWidth) : Prop := (n = .b4 ∧ o % 4 = 0) ∨ (n = .b8 ∧ o % 8 = 0)

/-- The accesses that set `HERR` (20_memory.md R107). -/
def IllegalAccess (x : HostAccess) : Prop :=
  (∃ o : Nat, o < 256 ∧ x.rel = (o : Int) ∧
    (¬ RegShape o x.width ∨
      ((∃ d, x.op = .write d) ∧ (o / 8 * 8 ∈ readOnlyOffsets ∨ o / 8 * 8 ∈ reservedOffsets)))) ∨
  (∃ a : Nat, a < 65536 ∧ x.rel = (a : Int) + 0x10000 ∧ (a % x.width.bytes ≠ 0 ∨ 65536 < a + x.width.bytes))

/-! ## Samples -/

/-- The four levels of the 2-bit alphabet, by code (43_quant.md R331, R334). -/
def levelOfCode (c : Nat) : Nat :=
  if c = 0 then 0xC054419E else if c = 1 then 0x3F800000 else if c = 2 then 0xBF800000 else 0x4054419E

/-- The level a field of `b` bits stands for: 1-bit polarity of 43_quant.md R332, 2-bit code table of R334. -/
def levelOf (b c : Nat) : Nat := if b = 1 then (if c = 1 then 0x3F800000 else 0xBF800000) else levelOfCode c

/-- The code of a binary32 pattern (43_quant.md R342, R343): the sign, and for 2 bits whether the pattern without its
sign lies from the threshold up to infinity; a NaN lies above. -/
def codeOf (b v : Nat) : Nat :=
  if b = 1 then (if v < 2 ^ 31 then 1 else 0)
  else if 0x400A20CF ≤ v % 2 ^ 31 ∧ v % 2 ^ 31 ≤ 0x7F800000 then (if v < 2 ^ 31 then 3 else 0)
  else (if v < 2 ^ 31 then 1 else 2)

/-- The exact real value of a finite binary32 pattern in units of 2^-149 (00_scope.md R23). -/
def realValue (v : Nat) : Int :=
  (if v < 2 ^ 31 then 1 else -1) *
    (if v / 2 ^ 23 % 256 = 0 then (v % 2 ^ 23 : Nat) else ((2 ^ 23 + v % 2 ^ 23) * 2 ^ (v / 2 ^ 23 % 256 - 1) : Nat) : Int)

/-- Field `i` of `b` bits in the packed bytes at `a`: level `i` (43_quant.md R337). -/
def packedCode (m : Memory) (a b i : Nat) : Nat := (memByte m (a + i * b / 8)).toNat / 2 ^ (i * b % 8) % 2 ^ b

/-- The geometry operand is legal: `NCH` at least 1, bits 63..48 zero, whole bytes (43_quant.md R336). -/
def GeometryOk (g : Nat) (b : Nat) : Prop :=
  g / 2 ^ 48 = 0 ∧ g / 2 ^ 32 % 2 ^ 16 ≠ 0 ∧ (g % 2 ^ 32 * (g / 2 ^ 32 % 2 ^ 16) * b) % 8 = 0

/-- `K`, the levels a geometry operand asks for (43_quant.md R336). -/
def levelsOf (g : Nat) : Nat := g % 2 ^ 32 * (g / 2 ^ 32 % 2 ^ 16)

/-! ## Header time -/

/-- Candidate `k` of the header time `(jd, sec, tick)`, in ticks: 86400 seconds a day, 10000 ticks a second, 1000 days
a wrap (42_header.md R303, R275, R305). -/
def candidate (jd sec tick k : Nat) : Int := (jd + k * 1000) * 864000000 + sec * 10000 + tick

end Sys2Proof.Safety
end

