-- ==== Sys2Proof/Certificates/Slice0/Obligations.lean ====
section
/-! DEFINITION. The statements for the provers. Each docstring cites the rule of spec/ the statement rests on. -/

open Sys2Proof Sys2Proof.Machine Sys2Proof.Safety

/-! ## Encoding -/

/-- Decoding the encoding of a well-formed command gives the command back (30_encoding.md R141, R142, R145). -/
def Obligations.DecodeOfEncode : Prop := ∀ i : Instr, i.wellFormed = true → decode (encode i) = .ok i

/-- A word that decodes is exactly the encoding of its command, and the command is well-formed: no bit of a legal word
is ignored, and each legal word has one meaning (30_encoding.md R145, R146). -/
def Obligations.EncodeOfDecode : Prop :=
  ∀ (w : Word32) (i : Instr), decode w = .ok i → i.wellFormed = true ∧ encode i = w

/-- The words of 30_encoding.md R149's examples, with one of each other format, decode to their commands. -/
def Obligations.ExampleWordsDecode : Prop :=
  decode 0x00000000 = .ok .nop ∧ decode 0x00000121 = .ok (.crcGen 1) ∧ decode 0x00004021 = .ok (.crcGen 64) ∧
  decode 0x00000511 = .ok (.bcdEnc 5) ∧ decode 0x00000432 = .ok (.hdrRdf 4) ∧ decode 0x00000139 = .ok (.hdrSize .frame) ∧
  decode 0x00000240 = .ok (.qDec 2 false) ∧ decode 0x00000640 = .ok (.qDec 2 true)

/-- The engine's step on an illegal word reports the first reason that holds and changes nothing else; a word with no
reason decodes (30_encoding.md R146). -/
def Obligations.IllegalWordIsReported : Prop :=
  ∀ s : State,
    ((∀ r ∈ opcodeRows, s.cmdLatch &&& 0xFF ≠ r.1) →
      engineStep s = .next (errored s .illegalCmd 1 (s.cmdLatch.setWidth 64))) ∧
    (∀ r ∈ opcodeRows, s.cmdLatch &&& 0xFF = r.1 →
      (s.cmdLatch &&& r.2 ≠ r.1 →
        engineStep s = .next (errored s .illegalCmd 2 (s.cmdLatch.setWidth 64))) ∧
      (s.cmdLatch &&& r.2 = r.1 →
        (ModifierOutOfRange s.cmdLatch →
          engineStep s = .next (errored s .illegalCmd 3 (s.cmdLatch.setWidth 64))) ∧
        (¬ ModifierOutOfRange s.cmdLatch → ∃ i, decode s.cmdLatch = .ok i)))

/-! ## Steps -/

/-- When a command is pending and the engine's turn is next, the step is `exec` of the decoded command, the turn used up
(60_exceptions.md R410, 20_memory.md R113). That `State.events` holds the order, and that a pending command runs when no
event is left, is the model's form of 70_reset_and_hazards.md R470 (log 1, DESIGN CHOICE). -/
def Obligations.StepRunsDecodedCommand : Prop :=
  ∀ (s : State) (i : Instr), s.busy = true → decode s.cmdLatch = .ok i →
    (s.events = [] → step s = exec i s) ∧
    (∀ es, s.events = .engine :: es → step s = exec i { s with events := es })

/-- A host access that is next is performed, busy or not; the engine acts only while a command is pending (10_state.md
R42, 60_exceptions.md R448, 20_memory.md R113). That the next event is the head of `State.events`, that an idle engine's
turn changes nothing but the list, and that an idle machine with no event left stays as it is, are the model's form of
the order of events (log 1, DESIGN CHOICE). -/
def Obligations.StepPerformsHostAccess : Prop :=
  ∀ s : State,
    (∀ x es, s.events = .host x :: es → step s = .next (hostAccess x { s with events := es })) ∧
    (s.busy = false → s.events = [] → step s = .next s) ∧
    (s.busy = false → ∀ es, s.events = .engine :: es → step s = .next { s with events := es })

/-- A table word placed as the accepted command is what the next step runs, whatever events stand behind it; the
placing is the acceptance of 10_state.md R52 (log 2, log 14: the model's form of a command's arrival). -/
def Obligations.PlacedWordRunsNext : Prop :=
  ∀ (s : State) (nbits w : Nat) (i : Instr), decodeTableWord nbits w = some i →
    step (s.withFetchWord nbits w) =
      exec i { s with cmdLatch := BitVec.ofNat 32 (w % 2 ^ nbits), busy := true, done := false, err := false }

/-- Every step keeps the invariant, from every state that has it, reached or not. -/
def Obligations.StepKeepsInvariant : Prop := ∀ s t : State, Invariant s → step s = .next t → Invariant t

/-- The state after power-on reset has the invariant. -/
def Obligations.ResetHasInvariant : Prop := Invariant State.reset

/-- After reset a host reads every slot at its reset value, every reserved slot at 0, the interrupt level is low and no
byte of DMEM has been written (10_state.md R44, R45, R65, 70_reset_and_hazards.md R450). -/
def Obligations.ResetRegisterValues : Prop :=
  (∀ r ∈ resetRows, (hostAccess (regAccessAt r.1 .b8 .read) State.reset).response = some r.2) ∧
  (∀ o ∈ reservedOffsets, (hostAccess (regAccessAt o .b8 .read) State.reset).response = some 0) ∧
  irq State.reset = false ∧ (∀ a, memByte State.reset.dmem a = Config.powerOnByte a)

/-- A pending command is not lost: after finitely many events, none of which touches the command, its arguments, the
header, the polynomial or DMEM, either the engine runs it as it was issued or a soft reset discards it
(70_reset_and_hazards.md R470, R460, R461). -/
def Obligations.AcceptedCommandRuns : Prop :=
  ∀ s : State, s.busy = true →
    ∃ (n : Nat) (u : State), n ≤ s.events.length ∧ Host.Core.run Sys2Proof.core n s = .next u ∧
      u.busy = true ∧ u.cmdLatch = s.cmdLatch ∧ u.arg0 = s.arg0 ∧ u.arg1 = s.arg1 ∧ u.arg2 = s.arg2 ∧
      u.arg3 = s.arg3 ∧ u.hdr = s.hdr ∧ u.poly = s.poly ∧ u.dmem = s.dmem ∧
      (step u = engineStep { u with events := u.events.tail } ∨
        ((∃ x d, u.events.head? = some (.host x) ∧ x.op = .write d ∧ d.getLsbD 0 = true ∧ (x.rel = 0x008)) ∧
          step u = .next (softReset { u with events := u.events.tail })))

/-! ## Every command -/

/-- Every command completes, and precisely: either it reports an error and the state is the state before it but for
the report, or it reports success (60_exceptions.md R410). The codes are those of R401's table; code 0x06 is never raised
(93 U4). The two ways to complete that other statements name, `errored` and `completed`, are these. -/
def Obligations.CommandCompletesPrecisely : Prop :=
  (∀ r ∈ codeRows, errorCode r.1 = r.2) ∧
  (∀ (s : State) (info val : Word64), ∀ r ∈ codeRows, errored s r.1 info val = { s with
    errCode := r.2, errInfo := info, errVal := val, err := true, done := true, busy := false }) ∧
  (∀ s : State, completed s = { s with
    errCode := 0, errInfo := 0, errVal := 0, err := false, done := true, busy := false }) ∧
  ∀ (i : Instr) (s : State),
    (∃ e c info val, (e, c) ∈ codeRows ∧ e ≠ .endOfStream ∧ exec i s = .next { s with
      errCode := c, errInfo := info, errVal := val, err := true, done := true, busy := false }) ∨
    (∃ t, exec i s = .next t ∧ t.errCode = 0 ∧ t.errInfo = 0 ∧ t.errVal = 0 ∧ t.err = false ∧ t.done = true ∧
      t.busy = false)

/-- No command writes an argument register, an enable, `OVR`, `HERR` or the latched word (10_state.md R40, R53, R63). -/
def Obligations.CommandKeepsHostState : Prop :=
  ∀ (i : Instr) (s t : State), exec i s = .next t →
    t.arg0 = s.arg0 ∧ t.arg1 = s.arg1 ∧ t.arg2 = s.arg2 ∧ t.arg3 = s.arg3 ∧ t.cmdLatch = s.cmdLatch ∧
    t.ieDone = s.ieDone ∧ t.ieErr = s.ieErr ∧ t.ovr = s.ovr ∧ t.herr = s.herr ∧ t.events = s.events ∧
    t.response = s.response ∧ t.draws = s.draws

/-- Only the state-changing commands of 44_system.md R377 write `POLY`, DMEM and `HDR`, and only the commands whose
rules name `RES1` or `RES2` write them (R376). `HDR.SIZE` writes no header bit in this hardware's `FIXED` mode. -/
def Obligations.CommandWritesOnlyWhatItNames : Prop :=
  ∀ (i : Instr) (s t : State), exec i s = .next t →
    (i ≠ .crcSetpoly → t.poly = s.poly) ∧
    (i ≠ .bcdDeca → (∀ d, i ≠ .bcdEnca d) → (∀ n, i ≠ .crcGen n) → i ≠ .hdrSt → (∀ b x, i ≠ .qDec b x) →
      (∀ b x, i ≠ .qEnc b x) → t.dmem = s.dmem) ∧
    (i ≠ .hdrLd → (∀ f, i ≠ .hdrWrf f) → i ≠ .hdrCrcupd → i ≠ .hdrSett → t.hdr = s.hdr) ∧
    ((∀ n, i ≠ .crcChk n) → (∀ n, i ≠ .crcChkr n) → i ≠ .hdrVal → i ≠ .hdrGett → i ≠ .hdrEpoch → t.res2 = s.res2) ∧
    ((∀ n, i ≠ .crcGen n) → (∀ n, i ≠ .crcChk n) → (∀ n, i ≠ .crcGenr n) → (∀ n, i ≠ .crcChkr n) →
      (∀ f, i ≠ .hdrWrf f) → i ≠ .hdrVal → i ≠ .hdrGett → i ≠ .hdrEpoch → (∀ k, i ≠ .hdrSize k) →
      (∀ b x, i ≠ .qDec b x) → (∀ b x, i ≠ .qEnc b x) → t.res1 = s.res1)

/-- The interrupt level: after any command it is the completion enable, or the error enable of a failed command; it
falls with the W1C of `DONE` or `ERR`, with the acceptance of the next command, with the clearing of an enable and with a
soft reset; setting an enable over a set status bit raises it at once; `OVR` and `HERR` do not enter it (60_exceptions.md
R430, R431, 10_state.md R52). -/
def Obligations.InterruptFollowsCompletion : Prop :=
  (∀ (i : Instr) (s t : State), exec i s = .next t → irq t = (s.ieDone || (t.err && s.ieErr))) ∧
  (∀ (w : Word32) (s : State), irq (acceptCommand w s) = false) ∧
  (∀ (s : State) (o h : Bool), irq { s with ovr := o, herr := h } = (s.done && s.ieDone || s.err && s.ieErr)) ∧
  ∀ (s : State) (n : HostWidth) (d : Word64), n = .b4 ∨ n = .b8 →
    irq (hostAccess (regAccessAt 0x010 n (.write d)) s) =
      (s.done && !d.getLsbD 1 && s.ieDone || s.err && !d.getLsbD 2 && s.ieErr) ∧
    (d.getLsbD 0 = false → irq (hostAccess (regAccessAt 0x008 n (.write d)) s) =
      (s.done && d.getLsbD 1 || s.err && d.getLsbD 2)) ∧
    (d.getLsbD 0 = true → irq (hostAccess (regAccessAt 0x008 n (.write d)) s) = false) ∧
    (s.busy = false → irq (hostAccess (regAccessAt 0x030 n (.write d)) s) = false)

/-- Every DMEM command checks the placing of its arrays before it does anything, source first, and reports the argument
register and the base address of the first misplaced one (60_exceptions.md R420, R411, 20_memory.md R103). The checks a
rule puts before it are premises: `BAD_LENGTH` for CRC.CHK, the geometry and the bytes supplied for the codec. -/
def Obligations.MisplacedArrayIsReported : Prop :=
  ∀ s : State,
    (∀ i, i = .bcdDeca ∨ (∃ d, i = .bcdEnca d) →
      (¬ Placed s.arg0.toNat s.arg1.toNat 8 → exec i s = .next (errored s .address 0 s.arg0)) ∧
      (Placed s.arg0.toNat s.arg1.toNat 8 → ¬ Placed s.arg2.toNat s.arg1.toNat 8 →
        exec i s = .next (errored s .address 2 s.arg2))) ∧
    (∀ l c, HasCheckLength s.poly c →
      (¬ Placed s.arg0.toNat s.arg1.toNat 8 → exec (.crcGen l) s = .next (errored s .address 0 s.arg0)) ∧
      (Placed s.arg0.toNat s.arg1.toNat 8 → ¬ Placed s.arg2.toNat c 8 →
        exec (.crcGen l) s = .next (errored s .address 2 s.arg2)) ∧
      (c ≤ s.arg1.toNat → ¬ Placed s.arg0.toNat s.arg1.toNat 8 →
        exec (.crcChk l) s = .next (errored s .address 0 s.arg0))) ∧
    (¬ Placed s.arg0.toNat 4 4 →
      exec .hdrLd s = .next (errored s .address 0 s.arg0) ∧ exec .hdrSt s = .next (errored s .address 0 s.arg0) ∧
      exec .hdrEq s = .next (errored s .address 0 s.arg0)) ∧
    (∀ b : BitVec 2, b = 1 ∨ b = 2 → GeometryOk s.arg3.toNat b.toNat →
      let k := levelsOf s.arg3.toNat
      let need := k * b.toNat / 8
      (need ≤ s.arg1.toNat →
        (¬ Placed s.arg0.toNat need 1 → exec (.qDec b false) s = .next (errored s .address 0 s.arg0)) ∧
        (Placed s.arg0.toNat need 1 → ¬ Placed s.arg2.toNat k 4 →
          exec (.qDec b false) s = .next (errored s .address 2 s.arg2))) ∧
      (¬ Placed s.arg0.toNat k 4 → exec (.qEnc b false) s = .next (errored s .address 0 s.arg0)) ∧
      (Placed s.arg0.toNat k 4 → ¬ Placed s.arg2.toNat need 1 →
        exec (.qEnc b false) s = .next (errored s .address 2 s.arg2)))

/-! ## Host port -/

/-- The absolute addresses of the two windows (20_memory.md R104, R111), whatever `REG_BASE` is: a register offset, an
engine address, or an address BBCE does not decode, which changes nothing but the answer (log 5, log 6). -/
def Obligations.HostWindowsAreDecoded : Prop :=
  ∀ (addr : Nat) (n : HostWidth) (op : HostOp) (s : State),
    (∀ o, o < 256 → addr = Config.regBase + o → hostAccess (accessAt addr n op) s = regAccess o n op s) ∧
    (∀ a, a < 65536 → addr = Config.dmemBase + a → hostAccess (accessAt addr n op) s = dmemAccess a n op s) ∧
    ((addr < Config.regBase ∨ (Config.regBase + 256 ≤ addr ∧ addr < Config.dmemBase) ∨
        Config.dmemBase + 65536 ≤ addr) →
      hostAccess (accessAt addr n op) s = { s with response := none })

/-- `HERR` is set by exactly the accesses of 20_memory.md R107, which have no other effect: a read of one answers 0
(R105, R106; the answer field is log 5), and no other access or command sets it. -/
def Obligations.HostErrorExactlyOnIllegalAccess : Prop :=
  (∀ (x : HostAccess) (s : State), IllegalAccess x →
    hostAccess x s = { s with herr := true, response := if x.op = .read then some 0 else none }) ∧
  (∀ (x : HostAccess) (s : State), ¬ IllegalAccess x → (hostAccess x s).herr = true → s.herr = true) ∧
  (∀ (i : Instr) (s t : State), exec i s = .next t → t.herr = s.herr)

/-- While a command runs, a write of an argument register, a header register (in any half, log 8), of `CMD`'s low half
or of DMEM is dropped and sets `OVR` (70_reset_and_hazards.md R461). `CTRL` and `STATUS` are written at any time and set
no `OVR`: a write of width 8 or of the low half sets the enables, or resets (log 15 for the model's own fields), and
clears the status bits written 1; a write of the high half changes nothing (10_state.md R47, R48, 20_memory.md R106). A
refused write sets `HERR` alone. -/
def Obligations.WritesWhileBusyAreDropped : Prop :=
  ∀ (s : State) (d : Word64),
    (s.busy = true →
      (∀ o n, o < 256 → RegShape o n → ((0x040 ≤ o ∧ o < 0x060) ∨ (0x090 ≤ o ∧ o < 0x0B0) ∨ o = 0x030) →
        hostAccess (regAccessAt o n (.write d)) s = { s with ovr := true, response := none }) ∧
      (∀ a n, a % n.bytes = 0 → a + n.bytes ≤ 65536 →
        hostAccess (dmemAccessAt a n (.write d)) s = { s with ovr := true, response := none })) ∧
    (∀ n, n = .b4 ∨ n = .b8 →
      (hostAccess (regAccessAt 0x008 n (.write d)) s = (if d.getLsbD 0
        then { State.reset with dmem := s.dmem, events := s.events, draws := s.draws }
        else { s with ieDone := d.getLsbD 1, ieErr := d.getLsbD 2, response := none })) ∧
      (hostAccess (regAccessAt 0x010 n (.write d)) s = { s with
        done := s.done && !d.getLsbD 1, err := s.err && !d.getLsbD 2, ovr := s.ovr && !d.getLsbD 3,
        herr := s.herr && !d.getLsbD 4, response := none })) ∧
    hostAccess (regAccessAt 0x00C .b4 (.write d)) s = { s with response := none } ∧
    hostAccess (regAccessAt 0x014 .b4 (.write d)) s = { s with response := none } ∧
    (∀ x, x.op = .write d → IllegalAccess x →
      hostAccess x s = { s with herr := true, response := none })

/-- A host read changes nothing of BBCE, except that an illegal one sets `HERR` (20_memory.md R109), and answers the
register map: a read of width 8 of each slot of 10_state.md R44 gives its register, one of width 4 the bits 31..0 at the
slot's offset and the bits 63..32 at the offset plus 4 (R106). An idle BBCE answers so everywhere, drawing no free value,
a busy one at the registers 70_reset_and_hazards.md R462 excepts, each at its present value. -/
def Obligations.ReadsHaveNoSideEffect : Prop :=
  (∀ (x : HostAccess) (s : State), x.op = .read →
    (∃ r k, hostAccess x s = { s with response := r, draws := k, herr := (hostAccess x s).herr }) ∧
    (¬ IllegalAccess x → (hostAccess x s).herr = s.herr) ∧
    (s.busy = false → (hostAccess x s).draws = s.draws)) ∧
  (∀ s : State, ∀ r ∈ readRows s, (s.busy = false ∨ r.1 ∉ unconstrainedOffsets) →
    hostAccess (regAccessAt r.1 .b8 .read) s = { s with response := some r.2 } ∧
    hostAccess (regAccessAt r.1 .b4 .read) s = { s with response := some ((r.2.extractLsb' 0 32).setWidth 64) } ∧
    hostAccess (regAccessAt (r.1 + 4) .b4 .read) s =
      { s with response := some ((r.2.extractLsb' 32 32).setWidth 64) }) ∧
  (∀ (s : State) (c : Nat), s.busy = false → HasCheckLength s.poly c →
    hostAccess (regAccessAt 0x088 .b8 .read) s = { s with response := some (BitVec.ofNat 64 c) } ∧
    hostAccess (regAccessAt 0x088 .b4 .read) s = { s with response := some (BitVec.ofNat 64 c) } ∧
    hostAccess (regAccessAt 0x08C .b4 .read) s = { s with response := some 0 })

/-- A write of `CTRL` with `SRST` set, of width 8 or of the low half, resets every register and flag to its reset value
whatever else it writes and whatever the engine is doing; the pending command is discarded and DMEM is unchanged
(70_reset_and_hazards.md R452, 10_state.md R47). -/
def Obligations.SoftResetRestoresRegisters : Prop :=
  ∀ (s : State) (n : HostWidth) (d : Word64), n = .b4 ∨ n = .b8 → d.getLsbD 0 = true →
    hostAccess (regAccessAt 0x008 n (.write d)) s =
      { State.reset with dmem := s.dmem, events := s.events, draws := s.draws }

/-- A write of `CMD[31:0]` to an idle engine, of width 8 or 4, is accepted: the word is latched, `BUSY` set, `DONE` and
`ERR` cleared, and `CMD` reads back the word. A write of the high half alone has no effect, also on a busy engine (there
log 7 reads R52 so) (10_state.md R52). -/
def Obligations.CommandWriteIsAccepted : Prop :=
  ∀ (s : State) (d : Word64),
    (∀ n, n = .b4 ∨ n = .b8 → s.busy = false →
      hostAccess (regAccessAt 0x030 n (.write d)) s = { s with
        cmdLatch := d.setWidth 32, busy := true, done := false, err := false, response := none } ∧
      (hostAccess (regAccessAt 0x030 .b8 .read) (hostAccess (regAccessAt 0x030 n (.write d)) s)).response =
        some ((d.setWidth 32).setWidth 64)) ∧
    hostAccess (regAccessAt 0x034 .b4 (.write d)) s = { s with response := none }

/-- On an idle engine, a write of an argument register, whole or one half, changes that register alone, the other half
left, and the register reads back; a write of a header register, whole or its low half, changes that header word alone to
the low 32 bits written, and the high half reads 0 and ignores writes (10_state.md R44, R53, R57, 20_memory.md R106). -/
def Obligations.WrittenRegistersReadBack : Prop :=
  ∀ (s : State) (d : Word64), s.busy = false →
    (∀ r ∈ argRows,
      hostAccess (regAccessAt r.1 .b8 (.write d)) s = { r.2.2 s d with response := none } ∧
      hostAccess (regAccessAt r.1 .b4 (.write d)) s =
        { r.2.2 s ((r.2.1 s).extractLsb' 32 32 ++ d.extractLsb' 0 32) with response := none } ∧
      hostAccess (regAccessAt (r.1 + 4) .b4 (.write d)) s =
        { r.2.2 s (d.extractLsb' 0 32 ++ (r.2.1 s).extractLsb' 0 32) with response := none } ∧
      (hostAccess (regAccessAt r.1 .b8 .read) { r.2.2 s d with response := none }).response = some d) ∧
    (∀ r ∈ headerRows,
      (∀ n, n = .b4 ∨ n = .b8 → ∃ h, hostAccess (regAccessAt r.1 n (.write d)) s = { s with
          hdr := h, response := none } ∧
        h.word r.2 = d.extractLsb' 0 32 ∧ (∀ w, w ≠ r.2 → h.word w = s.hdr.word w) ∧
        (hostAccess (regAccessAt r.1 .b8 .read) { s with hdr := h, response := none }).response =
          some (0#32 ++ d.extractLsb' 0 32)) ∧
      hostAccess (regAccessAt (r.1 + 4) .b4 (.write d)) s = { s with response := none })

/-- A legal DMEM write on an idle engine is seen by every later legal read of any width, byte by byte: the bytes it
covers hold the data, little-endian, every other byte is as before, and nothing else of BBCE changes
(20_memory.md R105, R110, R102). -/
def Obligations.DmemWidthsMix : Prop :=
  ∀ (s : State) (a a' : Nat) (n n' : HostWidth) (d : Word64), s.busy = false →
    a % n.bytes = 0 → a + n.bytes ≤ 65536 → a' % n'.bytes = 0 → a' + n'.bytes ≤ 65536 →
    ∃ m, hostAccess (dmemAccessAt a n (.write d)) s = { s with dmem := m, response := none } ∧
      (∀ b, memByte m b = if a ≤ b ∧ b < a + n.bytes then d.extractLsb' (8 * (b - a)) 8 else memByte s.dmem b) ∧
      (hostAccess (dmemAccessAt a' n' .read) { s with dmem := m, response := none }).response =
        some (BitVec.ofNat 64 (∑ i ∈ Finset.range n'.bytes, (memByte m (a' + i)).toNat * 256 ^ i))

/-! ## NOP and the BCD unit -/

/-- `NOP` completes without any other effect (44_system.md R370). -/
def Obligations.NopOnlyCompletes : Prop :=
  encode .nop = 0x00000000 ∧
  ∀ s : State, exec .nop s = .next { s with
    errCode := 0, errInfo := 0, errVal := 0, err := false, done := true, busy := false }

/-- `BCD.DEC`: valid digits give their decimal number in `RES0`; otherwise the lowest bad nibble is reported
(40_bcd.md R201, R202). -/
def Obligations.BcdDecodeResult : Prop :=
  ∀ s : State,
    (DigitsOk s.arg0.toNat 16 → ∃ r : Word64, r.toNat = decimal s.arg0.toNat 16 ∧
      exec .bcdDec s = .next (completed { s with res0 := r })) ∧
    (∀ k < 16, 9 < nibble s.arg0.toNat k → DigitsOk s.arg0.toNat k →
      exec .bcdDec s = .next (errored s .invalidEncoding (BitVec.ofNat 64 k) s.arg0))

/-- `BCD.ENC digits=D`: an integer of at most `D` digits gives its digits in the nibbles of `RES0`, the nibbles from `D`
up 0; a larger one is refused (40_bcd.md R203). -/
def Obligations.BcdEncodeResult : Prop :=
  ∀ (d : BitVec 5) (s : State), digitsOk d = true →
    (s.arg0.toNat < 10 ^ d.toNat → ∃ r : Word64,
      (∀ k < 16, nibble r.toNat k = if k < d.toNat then s.arg0.toNat / 10 ^ k % 10 else 0) ∧
      exec (.bcdEnc d) s = .next (completed { s with res0 := r })) ∧
    (10 ^ d.toNat ≤ s.arg0.toNat → exec (.bcdEnc d) s = .next (errored s .range (d.setWidth 64) s.arg0))

/-- The inverse laws of 40_bcd.md R209: decoding what encode gave returns the integer, and encoding in `D` digits what
decode gave returns the BCD value, when its nibbles from `D` up are 0. -/
def Obligations.BcdEncodeDecodeInverse : Prop :=
  (∀ (d : BitVec 5) (s t : State), digitsOk d = true → s.arg0.toNat < 10 ^ d.toNat → exec (.bcdEnc d) s = .next t →
    ∃ u, exec .bcdDec { t with arg0 := t.res0 } = .next u ∧ u.err = false ∧ u.res0 = s.arg0) ∧
  (∀ (d : BitVec 5) (s t : State), digitsOk d = true → DigitsOk s.arg0.toNat 16 →
    (∀ k, d.toNat ≤ k → k < 16 → nibble s.arg0.toNat k = 0) → exec .bcdDec s = .next t →
    ∃ u, exec (.bcdEnc d) { t with arg0 := t.res0 } = .next u ∧ u.err = false ∧ u.res0 = s.arg0)

/-- `BCD.DECA`: every element decoded, as `BCD.DEC` would, from the source as it stood before the command, and no other
byte written; or the first element with a bad nibble reported and nothing written (40_bcd.md R205, R206, R208). -/
def Obligations.BcdArrayDecodeResult : Prop :=
  ∀ s : State, Placed s.arg0.toNat s.arg1.toNat 8 → Placed s.arg2.toNat s.arg1.toNat 8 →
    ((∀ i < s.arg1.toNat, DigitsOk (memRead s.dmem (s.arg0.toNat + 8 * i) 8) 16) →
      ∃ m, exec .bcdDeca s = .next (completed { s with dmem := m, res0 := s.arg1 }) ∧
        (∀ i < s.arg1.toNat, memRead m (s.arg2.toNat + 8 * i) 8 =
          decimal (memRead s.dmem (s.arg0.toNat + 8 * i) 8) 16) ∧
        SameOutside s.dmem m s.arg2.toNat (8 * s.arg1.toNat)) ∧
    (∀ i < s.arg1.toNat, ¬ DigitsOk (memRead s.dmem (s.arg0.toNat + 8 * i) 8) 16 →
      (∀ j < i, DigitsOk (memRead s.dmem (s.arg0.toNat + 8 * j) 8) 16) →
      exec .bcdDeca s = .next (errored s .invalidEncoding (BitVec.ofNat 64 i)
        (BitVec.ofNat 64 (memRead s.dmem (s.arg0.toNat + 8 * i) 8))))

/-- `BCD.ENCA digits=D`: every element encoded, digit by digit, from the source as it stood before the command, and no
other byte written; or the first element of more than `D` digits reported and nothing written (40_bcd.md R207, R206,
R208). -/
def Obligations.BcdArrayEncodeResult : Prop :=
  ∀ (d : BitVec 5) (s : State), digitsOk d = true →
    Placed s.arg0.toNat s.arg1.toNat 8 → Placed s.arg2.toNat s.arg1.toNat 8 →
    ((∀ i < s.arg1.toNat, memRead s.dmem (s.arg0.toNat + 8 * i) 8 < 10 ^ d.toNat) →
      ∃ m, exec (.bcdEnca d) s = .next (completed { s with dmem := m, res0 := s.arg1 }) ∧
        (∀ i < s.arg1.toNat, ∀ k < 16, nibble (memRead m (s.arg2.toNat + 8 * i) 8) k =
          if k < d.toNat then memRead s.dmem (s.arg0.toNat + 8 * i) 8 / 10 ^ k % 10 else 0) ∧
        SameOutside s.dmem m s.arg2.toNat (8 * s.arg1.toNat)) ∧
    (∀ i < s.arg1.toNat, 10 ^ d.toNat ≤ memRead s.dmem (s.arg0.toNat + 8 * i) 8 →
      (∀ j < i, memRead s.dmem (s.arg0.toNat + 8 * j) 8 < 10 ^ d.toNat) →
      exec (.bcdEnca d) s = .next (errored s .range (BitVec.ofNat 64 i)
        (BitVec.ofNat 64 (memRead s.dmem (s.arg0.toNat + 8 * i) 8))))

/-! ## The CRC engine -/

/-- `CRC.SETPOLY`: a polynomial of check length 1..63 becomes the descriptor, its check length read in `RES0` and in
`CLEN`; 0 and 1 are refused and the old descriptor stays (41_crc.md R231, 10_state.md R56). -/
def Obligations.SetPolynomialResult : Prop :=
  ∀ s : State,
    (∀ c, HasCheckLength s.arg0 c →
      exec .crcSetpoly s = .next (completed { s with poly := s.arg0, res0 := BitVec.ofNat 64 c }) ∧
      regValue .clen { s with poly := s.arg0 } = BitVec.ofNat 64 c ∧ c ≤ 63) ∧
    (2 ≤ s.arg0.toNat → ∃ c, HasCheckLength s.arg0 c) ∧
    (s.arg0.toNat < 2 → exec .crcSetpoly s = .next (errored s .badPoly 0 s.arg0))

/-- `CRC.GENR bits=m`: `RES0` is the message times `x^C` modulo the polynomial over GF(2), and `RES1` says whether it is
non-zero (41_crc.md R246, R245, R238). -/
def Obligations.RegisterRemainderIsPolynomial : Prop :=
  ∀ (m : BitVec 7) (s : State) (c : Nat), lengthOk m = true → HasCheckLength s.poly c →
    ∃ r : Word64, r.toNat < 2 ^ c ∧
      exec (.crcGenr m) s = .next (completed { s with res0 := r, res1 := if r = 0 then 0 else 1 }) ∧
      IsResidue s.poly c m.toNat c (fun i => s.arg0.getLsbD (m.toNat - 1 - i)) (fun k => r.getLsbD (c - 1 - k))

/-- `CRC.CHKR bits=m`: `RES2` is the message-with-CRC modulo the polynomial over GF(2), `RES0` and `RES1` say whether it
is zero; a message shorter than the CRC is refused (41_crc.md R248, R245, R238). -/
def Obligations.RegisterCheckIsPolynomial : Prop :=
  ∀ (m : BitVec 7) (s : State) (c : Nat), lengthOk m = true → HasCheckLength s.poly c →
    (c ≤ m.toNat → ∃ r : Word64, r.toNat < 2 ^ c ∧
      exec (.crcChkr m) s = .next (completed { s with
        res0 := if r = 0 then 1 else 0, res1 := if r = 0 then 0 else 1, res2 := r }) ∧
      IsResidue s.poly c m.toNat 0 (fun i => s.arg0.getLsbD (m.toNat - 1 - i)) (fun k => r.getLsbD (c - 1 - k))) ∧
    (m.toNat < c → exec (.crcChkr m) s = .next (errored s .badLength (BitVec.ofNat 64 c) (m.setWidth 64)))

/-- `CRC.GEN lanes=L`: in every lane below `L` the `C` elements stored at the destination are that lane's message times
`x^C` modulo the polynomial, lanes `L` and above are stored 0, `RES0` packs lane 0, `RES1` is the mask of the non-zero
lanes, and no other byte is written (41_crc.md R240, R237 to R239). -/
def Obligations.StreamRemainderIsPolynomial : Prop :=
  ∀ (l : BitVec 7) (s : State) (c : Nat), lanesOk l = true → HasCheckLength s.poly c →
    Placed s.arg0.toNat s.arg1.toNat 8 → Placed s.arg2.toNat c 8 →
    ∃ m r0 r1, exec (.crcGen l) s = .next (completed { s with dmem := m, res0 := r0, res1 := r1 }) ∧
      (∀ j < l.toNat, IsResidue s.poly c s.arg1.toNat c (fun i => laneBit s.dmem s.arg0.toNat i j)
        (fun k => laneBit m s.arg2.toNat k j)) ∧
      (∀ k < c, memRead m (s.arg2.toNat + 8 * k) 8 < 2 ^ l.toNat) ∧
      (r0.toNat < 2 ^ c ∧ ∀ k < c, r0.getLsbD (c - 1 - k) = laneBit m s.arg2.toNat k 0) ∧
      (∀ j, r1.getLsbD j = true ↔ ∃ k < c, laneBit m s.arg2.toNat k j = true) ∧
      SameOutside s.dmem m s.arg2.toNat (8 * c)

/-- `CRC.CHK lanes=L`: lane by lane the residue is the lane's stream modulo the polynomial; `RES0` is 1 when every
residue is zero, `RES1` the mask of the failing lanes, `RES2` lane 0's residue, and DMEM is not written; a stream shorter
than the CRC is refused before its address is looked at (41_crc.md R243, R236 to R239). -/
def Obligations.StreamCheckIsPolynomial : Prop :=
  ∀ (l : BitVec 7) (s : State) (c : Nat), lanesOk l = true → HasCheckLength s.poly c →
    (c ≤ s.arg1.toNat → Placed s.arg0.toNat s.arg1.toNat 8 →
      ∃ (residue : Nat → Nat → Bool) (r1 r2 : Word64),
        exec (.crcChk l) s = .next (completed { s with res0 := if r1 = 0 then 1 else 0, res1 := r1, res2 := r2 }) ∧
        (∀ j < l.toNat, IsResidue s.poly c s.arg1.toNat 0 (fun i => laneBit s.dmem s.arg0.toNat i j) (residue j)) ∧
        (∀ j, r1.getLsbD j = true ↔ j < l.toNat ∧ ∃ k < c, residue j k = true) ∧
        (r2.toNat < 2 ^ c ∧ ∀ k < c, r2.getLsbD (c - 1 - k) = residue 0 k)) ∧
    (s.arg1.toNat < c → exec (.crcChk l) s = .next (errored s .badLength (BitVec.ofNat 64 c) s.arg1))

/-- Lane independence (41_crc.md R237): each lane of a remainder, and of a division, is that of the lane's own stream. -/
def Obligations.LanesAreIndependent : Prop :=
  ∀ (p : Word64) (s : List Word64) (l : Nat),
    let lane : Word64 → Word64 := fun e => if e.getLsbD l then 1 else 0
    (crcRem p s).map lane = crcRem p (s.map lane) ∧ (crcDiv p s).map lane = crcDiv p (s.map lane)

/-- Generate then check (41_crc.md R241): every stream followed by its remainder divides to zero, and `CRC.GEN` with its
destination behind the message, then `CRC.CHK` over both, passes in every lane. -/
def Obligations.GeneratedStreamPassesCheck : Prop :=
  (∀ (p : Word64) (s : List Word64) (c : Nat), HasCheckLength p c → ∀ e ∈ crcDiv p (s ++ crcRem p s), e = 0) ∧
  (∀ (l : BitVec 7) (s t : State) (c : Nat), lanesOk l = true → HasCheckLength s.poly c → s.arg0.toNat % 8 = 0 →
    s.arg0.toNat + 8 * (s.arg1.toNat + c) ≤ 65536 → s.arg2.toNat = s.arg0.toNat + 8 * s.arg1.toNat →
    exec (.crcGen l) s = .next t →
    ∃ u, exec (.crcChk l) { t with arg1 := BitVec.ofNat 64 (s.arg1.toNat + c) } = .next u ∧
      u.err = false ∧ u.res0 = 1 ∧ u.res1 = 0)

/-- Single-bit errors (41_crc.md R242): flipping one lane-bit of a stream that passes makes the check fail in that lane
when the polynomial has at least two set bits, and goes unnoticed in the first `n - C` positions when it has one. -/
def Obligations.SingleBitErrorIsDetected : Prop :=
  ∀ (l : BitVec 7) (s t : State) (c i j : Nat), lanesOk l = true → HasCheckLength s.poly c → c ≤ s.arg1.toNat →
    Placed s.arg0.toNat s.arg1.toNat 8 → i < s.arg1.toNat → j < l.toNat →
    exec (.crcChk l) s = .next t → t.res0 = 1 →
    ∀ m, m = memWrite s.dmem (s.arg0.toNat + 8 * i) 8
        (Nat.xor (memRead s.dmem (s.arg0.toNat + 8 * i) 8) (2 ^ j)) →
    ∃ u, exec (.crcChk l) { s with dmem := m } = .next u ∧
      (s.poly.toNat ≠ 2 ^ c → u.res0 = 0 ∧ u.res1.getLsbD j = true) ∧
      (s.poly.toNat = 2 ^ c → i < s.arg1.toNat - c → u.res0 = 1)

/-- `CRC.GENR bits=m` and `CRC.GEN lanes=1` over the same `m` bits in DMEM give the same `RES0` (41_crc.md R247). -/
def Obligations.RegisterAndStreamFormsAgree : Prop :=
  ∀ (m : BitVec 7) (s t t' : State) (v : Word64) (c : Nat), lengthOk m = true → HasCheckLength s.poly c →
    s.arg1.toNat = m.toNat → Placed s.arg0.toNat s.arg1.toNat 8 → Placed s.arg2.toNat c 8 →
    (∀ i < m.toNat, memRead s.dmem (s.arg0.toNat + 8 * i) 8 = if v.getLsbD (m.toNat - 1 - i) then 1 else 0) →
    exec (.crcGen 1) s = .next t → exec (.crcGenr m) { s with arg0 := v } = .next t' → t.res0 = t'.res0

/-- A message with the CRC `CRC.GENR` gave appended below it passes `CRC.CHKR` (41_crc.md R249). -/
def Obligations.AppendedRegisterCrcPasses : Prop :=
  ∀ (m : BitVec 7) (s t : State) (c : Nat), lengthOk m = true → HasCheckLength s.poly c → m.toNat + c ≤ 64 →
    exec (.crcGenr m) s = .next t →
    ∃ u, exec (.crcChkr (BitVec.ofNat 7 (m.toNat + c))) { t with arg0 := (s.arg0 <<< c) ||| t.res0 } = .next u ∧
      u.err = false ∧ u.res0 = 1

/-! ## The header validator -/

/-- `HDR.LD` loads the four words at `ARG0`, little-endian, and nothing else (42_header.md R280, R270). -/
def Obligations.HeaderLoadResult : Prop :=
  ∀ s : State, Placed s.arg0.toNat 4 4 →
    exec .hdrLd s = .next (completed { s with hdr :=
      #v[BitVec.ofNat 32 (memRead s.dmem s.arg0.toNat 4), BitVec.ofNat 32 (memRead s.dmem (s.arg0.toNat + 4) 4),
        BitVec.ofNat 32 (memRead s.dmem (s.arg0.toNat + 8) 4),
        BitVec.ofNat 32 (memRead s.dmem (s.arg0.toNat + 12) 4)] })

/-- `HDR.ST` stores the four words at `ARG0`, little-endian, and writes no other byte (42_header.md R281, R270). -/
def Obligations.HeaderStoreResult : Prop :=
  ∀ s : State, Placed s.arg0.toNat 4 4 →
    ∃ m, exec .hdrSt s = .next (completed { s with dmem := m }) ∧
      (∀ w : Fin 4, memRead m (s.arg0.toNat + 4 * w.val) 4 = (s.hdr.word w).toNat) ∧
      SameOutside s.dmem m s.arg0.toNat 16

/-- Header round trip (42_header.md R282): a store then a load leaves the header as it was, and a load then a store
leaves every byte of DMEM as it was. -/
def Obligations.HeaderRoundTrip : Prop :=
  (∀ s t u : State, exec .hdrSt s = .next t → exec .hdrLd t = .next u → u.hdr = s.hdr) ∧
  (∀ s t u : State, exec .hdrLd s = .next t → exec .hdrSt t = .next u → ∀ a, memByte u.dmem a = memByte s.dmem a)

/-- `HDR.EQ` answers 1 exactly when the four words in DMEM are bit-identical to the header's (42_header.md R313). -/
def Obligations.HeaderEqualityResult : Prop :=
  ∀ s : State, Placed s.arg0.toNat 4 4 →
    ((∀ w : Fin 4, memRead s.dmem (s.arg0.toNat + 4 * w.val) 4 = (s.hdr.word w).toNat) →
      exec .hdrEq s = .next (completed { s with res0 := 1 })) ∧
    ((∃ w : Fin 4, memRead s.dmem (s.arg0.toNat + 4 * w.val) 4 ≠ (s.hdr.word w).toNat) →
      exec .hdrEq s = .next (completed { s with res0 := 0 }))

/-- `HDR.RDF`: each present field of the default table reads its own bits; an absent FID is `BAD_FIELD`
(42_header.md R283, R272, R273). -/
def Obligations.FieldReadResult : Prop :=
  ∀ (fid : BitVec 4) (s : State),
    (∀ r ∈ fieldRows, fid.toNat = r.1 →
      exec (.hdrRdf fid) s = .next (completed { s with
        res0 := BitVec.ofNat 64 (bitsAt (s.hdr.word r.2.1) r.2.2.1 r.2.2.2) })) ∧
    (8 ≤ fid.toNat → exec (.hdrRdf fid) s = .next (errored s .badField (fid.setWidth 64) 0))

/-- `HDR.WRF`: a value that fits is written to its field; the CRC field becomes the header CRC of the new header when the
field is one of the three BCD fields and else keeps its bits, unless it is the field written; no bit outside the two
changes. A value that does not fit is `RANGE`, an absent FID `BAD_FIELD` (42_header.md R285, R287, R273, R278). -/
def Obligations.FieldWriteResult : Prop :=
  ∀ (fid : BitVec 4) (s : State),
    (∀ r ∈ fieldRows, fid.toNat = r.1 → s.arg0.toNat < 2 ^ r.2.2.2 →
      ∃ h, exec (.hdrWrf fid) s = .next (completed { s with
          hdr := h, res0 := BitVec.ofNat 64 (bitsAt (h.word 3) 0 16), res1 := if 4 ≤ r.1 ∧ r.1 ≤ 6 then 1 else 0 }) ∧
        bitsAt (h.word r.2.1) r.2.2.1 r.2.2.2 = s.arg0.toNat ∧
        (4 ≤ r.1 ∧ r.1 ≤ 6 → bitsAt (h.word 3) 0 16 = headerCrc Config.profile h) ∧
        (∀ (w : Fin 4) (b : Nat), (w = 3 → b < 16 → ¬ (4 ≤ r.1 ∧ r.1 ≤ 6)) →
          (w = r.2.1 → ¬ (r.2.2.1 ≤ b ∧ b < r.2.2.1 + r.2.2.2)) → (h.word w).getLsbD b = (s.hdr.word w).getLsbD b)) ∧
    (∀ r ∈ fieldRows, fid.toNat = r.1 → 2 ^ r.2.2.2 ≤ s.arg0.toNat →
      exec (.hdrWrf fid) s = .next (errored s .range (fid.setWidth 64) s.arg0)) ∧
    (8 ≤ fid.toNat → exec (.hdrWrf fid) s = .next (errored s .badField (fid.setWidth 64) 0))

/-- The header CRC is the 48 bits of word 2 and the top half of word 3, times `x^16`, modulo
`x^16 + x^15 + x^2 + 1` (42_header.md R276). -/
def Obligations.HeaderCrcIsPolynomial : Prop :=
  ∀ h : Header, headerCrc Config.profile h < 2 ^ 16 ∧
    IsResidue 0x18005 16 48 16 (fun i => (h.word 2 ++ h.word 3).getLsbD (63 - i))
      (fun k => (headerCrc Config.profile h).testBit (15 - k))

/-- `HDR.VAL` reports three bits and two CRCs and writes nothing else: bit 0 the sync word, bit 1 the CRC, bit 2 the
twelve BCD digits (42_header.md R290). -/
def Obligations.HeaderValidateResult : Prop :=
  ∀ s : State, ∃ r : Word64,
    exec .hdrVal s = .next (completed { s with
      res0 := r, res1 := BitVec.ofNat 64 (headerCrc Config.profile s.hdr),
      res2 := BitVec.ofNat 64 (bitsAt (s.hdr.word 3) 0 16) }) ∧
    r.toNat < 8 ∧ (r.getLsbD 0 = true ↔ s.hdr.word 0 = 0xABADDEED) ∧
    (r.getLsbD 1 = true ↔ bitsAt (s.hdr.word 3) 0 16 = headerCrc Config.profile s.hdr) ∧
    (r.getLsbD 2 = true ↔ DigitsOk (s.hdr.word 2).toNat 8 ∧ DigitsOk (bitsAt (s.hdr.word 3) 16 16) 4)

/-- A header is CRC-valid exactly when its words 2 and 3, taken as 64 message-plus-CRC bits, pass the CRC engine's check
under the header polynomial (42_header.md R277). -/
def Obligations.HeaderCrcAgreesWithEngine : Prop :=
  ∀ s t u : State, exec .hdrVal s = .next t →
    exec (.crcChkr 64) { s with poly := 0x18005, arg0 := s.hdr.word 2 ++ s.hdr.word 3 } = .next u →
    (t.res0.getLsbD 1 = true ↔ u.res0 = 1)

/-- `HDR.CRCUPD` stores the header CRC in the CRC field and in `RES0`, keeps every other bit, makes the header CRC-valid,
and done twice changes the header no further (42_header.md R292, R277). -/
def Obligations.CrcUpdateResult : Prop :=
  ∀ s : State, ∃ h : Header,
    exec .hdrCrcupd s = .next (completed { s with
      hdr := h, res0 := BitVec.ofNat 64 (headerCrc Config.profile s.hdr) }) ∧
    h.word 0 = s.hdr.word 0 ∧ h.word 1 = s.hdr.word 1 ∧ h.word 2 = s.hdr.word 2 ∧
    bitsAt (h.word 3) 16 16 = bitsAt (s.hdr.word 3) 16 16 ∧
    bitsAt (h.word 3) 0 16 = headerCrc Config.profile s.hdr ∧
    headerCrc Config.profile h = headerCrc Config.profile s.hdr ∧
    (∀ t u, exec .hdrCrcupd s = .next t → exec .hdrCrcupd t = .next u → u.hdr = h)

/-- `HDR.GETT` gives the decimal numbers of the three BCD fields, or reports the first invalid one in the order day,
seconds, fraction, with its FID and raw bits (42_header.md R300). -/
def Obligations.GetTimeResult : Prop :=
  ∀ s : State,
    let day := bitsAt (s.hdr.word 2) 20 12
    let sec := bitsAt (s.hdr.word 2) 0 20
    let frac := bitsAt (s.hdr.word 3) 16 16
    (DigitsOk day 3 → DigitsOk sec 5 → DigitsOk frac 4 →
      exec .hdrGett s = .next (completed { s with
        res0 := BitVec.ofNat 64 (decimal day 3), res1 := BitVec.ofNat 64 (decimal sec 5),
        res2 := BitVec.ofNat 64 (decimal frac 4) })) ∧
    (¬ DigitsOk day 3 → exec .hdrGett s = .next (errored s .invalidEncoding 4 (BitVec.ofNat 64 day))) ∧
    (DigitsOk day 3 → ¬ DigitsOk sec 5 →
      exec .hdrGett s = .next (errored s .invalidEncoding 5 (BitVec.ofNat 64 sec))) ∧
    (DigitsOk day 3 → DigitsOk sec 5 → ¬ DigitsOk frac 4 →
      exec .hdrGett s = .next (errored s .invalidEncoding 6 (BitVec.ofNat 64 frac)))

/-- `HDR.SETT` writes a time that `HDR.GETT` reads back, the day modulo 1000, and a CRC that validates, in `RES0` too;
words 0 and 1 stay. Seconds outside a day, then ticks outside a second, are refused (42_header.md R301). -/
def Obligations.SetTimeResult : Prop :=
  ∀ s : State,
    (s.arg1.toNat < 86400 → s.arg2.toNat < 10000 →
      ∃ h : Header, exec .hdrSett s = .next (completed { s with
          hdr := h, res0 := BitVec.ofNat 64 (headerCrc Config.profile h) }) ∧
        h.word 0 = s.hdr.word 0 ∧ h.word 1 = s.hdr.word 1 ∧ bitsAt (h.word 3) 0 16 = headerCrc Config.profile h ∧
        (∀ t, t.hdr = h → exec .hdrGett t = .next (completed { t with
          res0 := BitVec.ofNat 64 (s.arg0.toNat % 1000), res1 := s.arg1, res2 := s.arg2 }))) ∧
    (86400 ≤ s.arg1.toNat → exec .hdrSett s = .next (errored s .range 1 s.arg1)) ∧
    (s.arg1.toNat < 86400 → 10000 ≤ s.arg2.toNat → exec .hdrSett s = .next (errored s .range 2 s.arg2))

/-- `HDR.EPOCH` chooses the candidate nearest the reference, the earliest on a tie, and reports a day that does not fit
64 bits as `RANGE`; the first invalid time field is reported as `HDR.GETT` reports it (42_header.md R303). -/
def Obligations.EpochIsNearestCandidate : Prop :=
  ∀ s : State,
    let day := bitsAt (s.hdr.word 2) 20 12
    let sec := bitsAt (s.hdr.word 2) 0 20
    let frac := bitsAt (s.hdr.word 3) 16 16
    (DigitsOk day 3 → DigitsOk sec 5 → DigitsOk frac 4 →
      ∃ k : Nat,
        let dist : Nat → Nat := fun j => (candidate (decimal day 3) (decimal sec 5) (decimal frac 4) j -
          (s.arg0.toNat * 864000000 + s.arg1.toNat * 10000 + s.arg2.toNat : Nat)).natAbs
        (∀ j, dist k ≤ dist j) ∧ (∀ j < k, dist k < dist j) ∧
        (decimal day 3 + k * 1000 < 2 ^ 64 →
          exec .hdrEpoch s = .next (completed { s with
            res0 := BitVec.ofNat 64 (decimal day 3 + k * 1000), res1 := BitVec.ofNat 64 (decimal sec 5),
            res2 := BitVec.ofNat 64 (decimal frac 4) })) ∧
        (2 ^ 64 ≤ decimal day 3 + k * 1000 →
          exec .hdrEpoch s = .next (errored s .range 0 (BitVec.ofNat 64 (decimal day 3))))) ∧
    (¬ DigitsOk day 3 → exec .hdrEpoch s = .next (errored s .invalidEncoding 4 (BitVec.ofNat 64 day))) ∧
    (DigitsOk day 3 → ¬ DigitsOk sec 5 →
      exec .hdrEpoch s = .next (errored s .invalidEncoding 5 (BitVec.ofNat 64 sec))) ∧
    (DigitsOk day 3 → DigitsOk sec 5 → ¬ DigitsOk frac 4 →
      exec .hdrEpoch s = .next (errored s .invalidEncoding 6 (BitVec.ofNat 64 frac)))

/-- The invariance 42_header.md R304 derives: a reference within half the wrap period of a candidate's time resolves to
that candidate, so any two such references agree. And where it ends: for every valid header time, a reference at the
midpoint of a candidate and the next resolves to the candidate, and the reference one tick later to the next (R303), each
where its day fits 64 bits. -/
def Obligations.EpochIgnoresSmallReferenceChange : Prop :=
  (∀ (s : State) (k : Nat),
    let day := bitsAt (s.hdr.word 2) 20 12
    let sec := bitsAt (s.hdr.word 2) 0 20
    let frac := bitsAt (s.hdr.word 3) 16 16
    DigitsOk day 3 → DigitsOk sec 5 → DigitsOk frac 4 → decimal day 3 + k * 1000 < 2 ^ 64 →
    2 * ((candidate (decimal day 3) (decimal sec 5) (decimal frac 4) k -
      (s.arg0.toNat * 864000000 + s.arg1.toNat * 10000 + s.arg2.toNat : Nat)).natAbs) < 1000 * 864000000 →
    exec .hdrEpoch s = .next (completed { s with
      res0 := BitVec.ofNat 64 (decimal day 3 + k * 1000), res1 := BitVec.ofNat 64 (decimal sec 5),
      res2 := BitVec.ofNat 64 (decimal frac 4) })) ∧
  (∀ (s : State) (k : Nat),
    let day := bitsAt (s.hdr.word 2) 20 12
    let sec := bitsAt (s.hdr.word 2) 0 20
    let frac := bitsAt (s.hdr.word 3) 16 16
    DigitsOk day 3 → DigitsOk sec 5 → DigitsOk frac 4 → s.arg2.toNat + 1 < 2 ^ 64 →
    ((s.arg0.toNat * 864000000 + s.arg1.toNat * 10000 + s.arg2.toNat : Nat) : Int) =
      candidate (decimal day 3) (decimal sec 5) (decimal frac 4) k + 500 * 864000000 →
    (decimal day 3 + k * 1000 < 2 ^ 64 →
      exec .hdrEpoch s = .next (completed { s with
        res0 := BitVec.ofNat 64 (decimal day 3 + k * 1000), res1 := BitVec.ofNat 64 (decimal sec 5),
        res2 := BitVec.ofNat 64 (decimal frac 4) })) ∧
    (decimal day 3 + (k + 1) * 1000 < 2 ^ 64 →
      exec .hdrEpoch { s with arg2 := s.arg2 + 1 } = .next (completed { s with
        arg2 := s.arg2 + 1, res0 := BitVec.ofNat 64 (decimal day 3 + (k + 1) * 1000),
        res1 := BitVec.ofNat 64 (decimal sec 5), res2 := BitVec.ofNat 64 (decimal frac 4) })))

/-- `HDR.SIZE` on this hardware (the `FIXED` mode): the payload of 10000 bytes and the frame of 10016 are accepted, and
every other request is refused with the first of the reasons 2, 1, 3 that holds (42_header.md R310, R311). -/
def Obligations.SizeRequestResult : Prop :=
  ∀ s : State,
    let z := s.arg0.toNat
    (z = 10000 → exec (.hdrSize .payload) s = .next (completed { s with res0 := 10000, res1 := 10016 })) ∧
    (z = 10016 → exec (.hdrSize .frame) s = .next (completed { s with res0 := 10000, res1 := 10016 })) ∧
    (z % 4 ≠ 0 → exec (.hdrSize .payload) s = .next (errored s .invalidSize 1 s.arg0)) ∧
    (z % 4 = 0 → z ≠ 10000 → exec (.hdrSize .payload) s = .next (errored s .invalidSize 3 s.arg0)) ∧
    (z < 16 → exec (.hdrSize .frame) s = .next (errored s .invalidSize 2 s.arg0)) ∧
    (16 ≤ z → z % 4 ≠ 0 → exec (.hdrSize .frame) s = .next (errored s .invalidSize 1 s.arg0)) ∧
    (16 ≤ z → z % 4 = 0 → z ≠ 10016 → exec (.hdrSize .frame) s = .next (errored s .invalidSize 3 s.arg0))

/-! ## The quantization codec -/

/-- `Q.DEC`: each of the `K` levels stored is the one its code in the packed bytes stands for, the bytes taken as they
stood before the command, and no other byte is written (43_quant.md R340, R332 to R337). -/
def Obligations.SampleDecodeResult : Prop :=
  ∀ (b : BitVec 2) (s : State), b = 1 ∨ b = 2 → GeometryOk s.arg3.toNat b.toNat →
    let k := levelsOf s.arg3.toNat
    let need := k * b.toNat / 8
    need ≤ s.arg1.toNat → Placed s.arg0.toNat need 1 → Placed s.arg2.toNat k 4 →
    ∃ m, exec (.qDec b false) s = .next (completed { s with
        dmem := m, res0 := BitVec.ofNat 64 k, res1 := BitVec.ofNat 64 need }) ∧
      (∀ i < k, memRead m (s.arg2.toNat + 4 * i) 4 = levelOf b.toNat (packedCode s.dmem s.arg0.toNat b.toNat i)) ∧
      SameOutside s.dmem m s.arg2.toNat (4 * k)

/-- `Q.ENC`: each packed code is the code of its sample, by sign and threshold, the samples taken as they stood before
the command, and no byte outside the packed ones is written (43_quant.md R344, R342, R343, R337). -/
def Obligations.SampleEncodeResult : Prop :=
  ∀ (b : BitVec 2) (s : State), b = 1 ∨ b = 2 → GeometryOk s.arg3.toNat b.toNat →
    let k := levelsOf s.arg3.toNat
    let need := k * b.toNat / 8
    Placed s.arg0.toNat k 4 → Placed s.arg2.toNat need 1 →
    ∃ m, exec (.qEnc b false) s = .next (completed { s with
        dmem := m, res0 := BitVec.ofNat 64 k, res1 := BitVec.ofNat 64 need }) ∧
      (∀ i < k, packedCode m s.arg2.toNat b.toNat i = codeOf b.toNat (memRead s.dmem (s.arg0.toNat + 4 * i) 4)) ∧
      SameOutside s.dmem m s.arg2.toNat need

/-- The codec's refusals in their order: complex samples, whatever the geometry is, then the three reasons of a bad
geometry, then, in decode, too few bytes supplied (43_quant.md R335, R336, R340, 60_exceptions.md R411). The word reported
for complex samples is the one in `CMDLATCH`, which R410 runs and R402 reports, in every state, also one whose latch holds
another word, which no step runs so (log 13, DEDUCED). -/
def Obligations.SampleRequestRefusals : Prop :=
  ∀ (b : BitVec 2) (s : State) (i : Instr), b = 1 ∨ b = 2 →
    (i = .qDec b true ∨ i = .qEnc b true →
      exec i s = .next (errored s .unsupportedSampleType (b.setWidth 64) (s.cmdLatch.setWidth 64))) ∧
    (i = .qDec b false ∨ i = .qEnc b false →
      (s.arg3.toNat / 2 ^ 48 ≠ 0 → exec i s = .next (errored s .badGeometry 1 s.arg3)) ∧
      (s.arg3.toNat / 2 ^ 48 = 0 → s.arg3.toNat / 2 ^ 32 % 2 ^ 16 = 0 →
        exec i s = .next (errored s .badGeometry 2 s.arg3)) ∧
      (s.arg3.toNat / 2 ^ 48 = 0 → s.arg3.toNat / 2 ^ 32 % 2 ^ 16 ≠ 0 →
        (levelsOf s.arg3.toNat * b.toNat) % 8 ≠ 0 → exec i s = .next (errored s .badGeometry 3 s.arg3))) ∧
    (GeometryOk s.arg3.toNat b.toNat → s.arg1.toNat < levelsOf s.arg3.toNat * b.toNat / 8 →
      exec (.qDec b false) s = .next
        (errored s .truncatedData (BitVec.ofNat 64 (levelsOf s.arg3.toNat * b.toNat / 8)) s.arg1))

/-- The codec's round trips (43_quant.md R346): samples of the alphabet, encoded and decoded again, come back bit for
bit, and so do raw bytes decoded and encoded again, for every geometry and every place of the arrays. -/
def Obligations.SampleRoundTrip : Prop :=
  ∀ (b : BitVec 2) (s t u : State) (dst : Word64), b = 1 ∨ b = 2 →
    let k := levelsOf s.arg3.toNat
    let need := k * b.toNat / 8
    ((∀ i < k, ∃ c < 2 ^ b.toNat, memRead s.dmem (s.arg0.toNat + 4 * i) 4 = levelOf b.toNat c) →
      exec (.qEnc b false) s = .next t → t.err = false →
      exec (.qDec b false) { t with arg0 := s.arg2, arg1 := t.res1, arg2 := dst } = .next u → u.err = false →
      ∀ i < k, memRead u.dmem (dst.toNat + 4 * i) 4 = memRead s.dmem (s.arg0.toNat + 4 * i) 4) ∧
    (exec (.qDec b false) s = .next t → t.err = false →
      exec (.qEnc b false) { t with arg0 := s.arg2, arg2 := dst } = .next u → u.err = false →
      ∀ j < need, memByte u.dmem (dst.toNat + j) = memByte s.dmem (s.arg0.toNat + j))

/-- Encoding then decoding one sample gives a level of the alphabet no farther from the sample, as exact real numbers,
than any other level (43_quant.md R347, R331, R342, R343). -/
def Obligations.EncodedLevelIsNearest : Prop :=
  ∀ v : Word32, (v.extractLsb' 23 8).toNat ≠ 255 →
    (∀ c < 4, (realValue v.toNat - realValue (level4 (code2 v)).toNat).natAbs ≤
      (realValue v.toNat - realValue (levelOfCode c)).natAbs) ∧
    (∀ c < 2, (realValue v.toNat - realValue (levelOf 1 (code1 v))).natAbs ≤
      (realValue v.toNat - realValue (levelOf 1 c)).natAbs)
end

