-- ==== Sys2Proof/Laws/Bcd.lean ====
section
/-! SUPPORT. The laws of BCD digits (40_bcd.md R200 to R209). -/

namespace Sys2Proof.Machine

/-! ## Digits -/

theorem bcdDigits_length (v d : Nat) : (bcdDigits v d).length = d := by
  induction d generalizing v with
  | zero => rfl
  | succ d ih => simp [bcdDigits, ih]

/-- The digits are the nibbles, lowest first. -/
theorem bcdDigits_getElem (v d k : Nat) (h : k < (bcdDigits v d).length) :
    (bcdDigits v d)[k] = v / 16 ^ k % 16 := by
  induction d generalizing v k with
  | zero => simp [bcdDigits] at h
  | succ d ih =>
    cases k with
    | zero => simp [bcdDigits]
    | succ k =>
      simp only [bcdDigits, List.getElem_cons_succ]
      rw [ih, Nat.div_div_eq_div_mul, pow_succ']

/-- Validity is a bound on every nibble (00_scope.md R22). -/
theorem validBcd_iff (v d : Nat) : validBcd v d = true ↔ ∀ k < d, v / 16 ^ k % 16 ≤ 9 := by
  simp only [validBcd, List.all_eq_true, decide_eq_true_eq]
  constructor
  · intro h k hk
    have hk : k < (bcdDigits v d).length := by rwa [bcdDigits_length]
    exact bcdDigits_getElem v d k hk ▸ h _ (List.getElem_mem hk)
  · intro h x hx
    obtain ⟨k, hk, rfl⟩ := List.getElem_of_mem hx
    rw [bcdDigits_getElem]
    exact h k (by rwa [bcdDigits_length] at hk)

theorem firstBadNibble_eq_none_iff (v d : Nat) :
    firstBadNibble v d = none ↔ ∀ k < d, v / 16 ^ k % 16 ≤ 9 := by
  rw [← validBcd_iff, firstBadNibble, List.findIdx?_eq_none_iff, validBcd, List.all_eq_true]
  simp

theorem firstBadNibble_eq_some_iff (v d k : Nat) :
    firstBadNibble v d = some k ↔ k < d ∧ 9 < v / 16 ^ k % 16 ∧ ∀ j < k, v / 16 ^ j % 16 ≤ 9 := by
  rw [firstBadNibble, List.findIdx?_eq_some_iff_getElem]
  constructor
  · rintro ⟨h, hk, hj⟩
    refine ⟨by rwa [bcdDigits_length] at h, by simpa [bcdDigits_getElem] using hk, fun j hjk => ?_⟩
    simpa [bcdDigits_getElem] using hj j hjk
  · rintro ⟨h, hk, hj⟩
    refine ⟨by rwa [bcdDigits_length], by simpa [bcdDigits_getElem] using hk, fun j hjk => ?_⟩
    simpa [bcdDigits_getElem] using hj j hjk

/-! ## Decoding and encoding -/

/-- Decoding is the sum of 40_bcd.md R201. -/
theorem bcdDecode_eq_sum (v d : Nat) : bcdDecode v d = ∑ k ∈ Finset.range d, v / 16 ^ k % 16 * 10 ^ k := by
  induction d generalizing v with
  | zero => rfl
  | succ d ih =>
    have hs : bcdDecode v (d + 1) = v % 16 + 10 * bcdDecode (v / 16) d := rfl
    rw [hs, ih, Finset.sum_range_succ', Finset.mul_sum, Nat.add_comm]
    congr 1
    · refine Finset.sum_congr rfl fun k _ => ?_
      rw [Nat.div_div_eq_div_mul, pow_succ', pow_succ']
      ring
    · simp

/-- Valid digits decode below `10^d`. -/
theorem bcdDecode_lt {v d : Nat} (h : ∀ k < d, v / 16 ^ k % 16 ≤ 9) : bcdDecode v d < 10 ^ d := by
  induction d generalizing v with
  | zero => simp [bcdDecode, bcdDigits, bcdSum]
  | succ d ih =>
    have hs : bcdDecode v (d + 1) = v % 16 + 10 * bcdDecode (v / 16) d := rfl
    have h0 : v % 16 ≤ 9 := by simpa using h 0 (by omega)
    have := @ih (v / 16) fun k hk => by
      have := h (k + 1) (by omega)
      rwa [pow_succ', ← Nat.div_div_eq_div_mul] at this
    rw [hs, pow_succ]
    omega

theorem bcdEncode_lt (n d : Nat) : bcdEncode n d < 16 ^ d := by
  induction d generalizing n with
  | zero => simp [bcdEncode]
  | succ d ih =>
    have := ih (n / 10)
    rw [bcdEncode, pow_succ]
    omega

/-- The nibbles of an encoding are the decimal digits (40_bcd.md R203). -/
theorem nibble_bcdEncode (n d k : Nat) :
    bcdEncode n d / 16 ^ k % 16 = if k < d then n / 10 ^ k % 10 else 0 := by
  induction d generalizing n k with
  | zero => simp [bcdEncode]
  | succ d ih =>
    cases k with
    | zero => simp [bcdEncode]; omega
    | succ k =>
      have hdiv : bcdEncode n (d + 1) / 16 = bcdEncode (n / 10) d := by
        rw [bcdEncode]
        omega
      rw [pow_succ', ← Nat.div_div_eq_div_mul, hdiv, ih, Nat.div_div_eq_div_mul, ← pow_succ' 10 k]
      simp

/-- Decoding what encode gave (40_bcd.md R209). -/
theorem bcdDecode_bcdEncode {n d : Nat} (h : n < 10 ^ d) : bcdDecode (bcdEncode n d) d = n := by
  induction d generalizing n with
  | zero =>
    have : n = 0 := by simpa using h
    simp [this, bcdDecode, bcdDigits, bcdSum]
  | succ d ih =>
    have hs : ∀ v, bcdDecode v (d + 1) = v % 16 + 10 * bcdDecode (v / 16) d := fun _ => rfl
    have hdiv : bcdEncode n (d + 1) / 16 = bcdEncode (n / 10) d := by
      rw [bcdEncode]
      omega
    have hmod : bcdEncode n (d + 1) % 16 = n % 10 := by
      rw [bcdEncode]
      omega
    rw [hs, hdiv, hmod, ih (by rw [pow_succ] at h; omega)]
    omega

/-- Encoding what decode gave (40_bcd.md R209). -/
theorem bcdEncode_bcdDecode {v d : Nat} (hv : v < 16 ^ d) (h : ∀ k < d, v / 16 ^ k % 16 ≤ 9) :
    bcdEncode (bcdDecode v d) d = v := by
  induction d generalizing v with
  | zero =>
    have : v = 0 := by simpa using hv
    simp [this, bcdEncode]
  | succ d ih =>
    have hs : bcdDecode v (d + 1) = v % 16 + 10 * bcdDecode (v / 16) d := rfl
    have h0 : v % 16 ≤ 9 := by simpa using h 0 (by omega)
    have ih := @ih (v / 16) (by rw [pow_succ] at hv; omega) fun k hk => by
      have := h (k + 1) (by omega)
      rwa [pow_succ', ← Nat.div_div_eq_div_mul] at this
    rw [bcdEncode, hs, show (v % 16 + 10 * bcdDecode (v / 16) d) / 10 = bcdDecode (v / 16) d by omega, ih]
    omega

/-- Decoding `d` digits of a value whose nibbles from `d` up are 0 decodes all of them. -/
theorem bcdDecode_of_high_zero {v d e : Nat} (hde : d ≤ e) (h : ∀ k, d ≤ k → k < e → v / 16 ^ k % 16 = 0) :
    bcdDecode v e = bcdDecode v d := by
  rw [bcdDecode_eq_sum, bcdDecode_eq_sum, ← Finset.sum_range_add_sum_Ico _ hde]
  rw [Finset.sum_eq_zero (s := Finset.Ico d e)]
  · simp
  · intro k hk
    rw [Finset.mem_Ico] at hk
    simp [h k hk.1 hk.2]

/-! ## The first bad element -/

theorem firstBad_eq_none_iff (bad : Nat → Bool) (l : List Nat) (i : Nat) :
    firstBad bad l i = none ↔ ∀ e ∈ l, bad e = false := by
  induction l generalizing i with
  | nil => simp [firstBad]
  | cons e l ih =>
    rw [firstBad]
    cases hb : bad e <;> simp [hb, ih]

theorem firstBad_eq_some_iff (bad : Nat → Bool) (l : List Nat) (i k v : Nat) :
    firstBad bad l i = some (k, v) ↔
      ∃ j, ∃ h : j < l.length, k = i + j ∧ v = l[j] ∧ bad l[j] = true ∧ ∀ j', ∀ h' : j' < j, bad (l[j']'(h'.trans h)) = false := by
  induction l generalizing i with
  | nil => simp [firstBad]
  | cons e l ih =>
    rw [firstBad]
    cases hb : bad e
    · simp only [Bool.false_eq_true, if_false, ih]
      constructor
      · rintro ⟨j, h, rfl, rfl, hbad, hlt⟩
        refine ⟨j + 1, by simpa using h, by omega, rfl, hbad, fun j' hj' => ?_⟩
        cases j' with
        | zero => exact hb
        | succ j' => exact hlt j' (by omega)
      · rintro ⟨j, h, hk, hv, hbad, hlt⟩
        cases j with
        | zero => simp [hb] at hbad
        | succ j =>
          exact ⟨j, by simpa using h, by omega, hv, hbad, fun j' hj' => hlt (j' + 1) (by omega)⟩
    · simp only [if_true, Option.some.injEq, Prod.mk.injEq]
      constructor
      · rintro ⟨rfl, rfl⟩
        exact ⟨0, by simp, by simp, rfl, hb, fun j' h' => absurd h' (by omega)⟩
      · rintro ⟨j, h, hk, hv, hbad, hlt⟩
        cases j with
        | zero => exact ⟨by omega, hv.symm⟩
        | succ j => exact absurd (hlt 0 (by omega)) (by simp [hb])

/-! ## The array commands -/

/-- All a BCD array command can do (40_bcd.md R205, R207). -/
theorem bcdArray_cases (bad : Nat → Bool) (e : CmdError) (convert : Nat → Nat) (s : State) :
    (arrayOk s.arg0.toNat s.arg1.toNat 8 = false ∧ bcdArray bad e convert s = raise s .address 0 s.arg0) ∨
    (arrayOk s.arg0.toNat s.arg1.toNat 8 = true ∧ arrayOk s.arg2.toNat s.arg1.toNat 8 = false ∧
      bcdArray bad e convert s = raise s .address 2 s.arg2) ∨
    (arrayOk s.arg0.toNat s.arg1.toNat 8 = true ∧ arrayOk s.arg2.toNat s.arg1.toNat 8 = true ∧
      ((∃ i v, firstBad bad (readArray s.dmem s.arg0.toNat 8 s.arg1.toNat) 0 = some (i, v) ∧
          bcdArray bad e convert s = raise s e (BitVec.ofNat 64 i) (BitVec.ofNat 64 v)) ∨
        (firstBad bad (readArray s.dmem s.arg0.toNat 8 s.arg1.toNat) 0 = none ∧
          bcdArray bad e convert s = succeed { s with
            dmem := writeArray s.dmem s.arg2.toNat 8
              ((readArray s.dmem s.arg0.toNat 8 s.arg1.toNat).map convert)
            res0 := s.arg1 }))) := by
  cases h0 : arrayOk s.arg0.toNat s.arg1.toNat 8
  · exact .inl ⟨rfl, by simp [bcdArray, h0]⟩
  · cases h2 : arrayOk s.arg2.toNat s.arg1.toNat 8
    · exact .inr (.inl ⟨rfl, rfl, by simp [bcdArray, h0, h2]⟩)
    · refine .inr (.inr ⟨rfl, rfl, ?_⟩)
      cases hb : firstBad bad (readArray s.dmem s.arg0.toNat 8 s.arg1.toNat) 0 with
      | none => exact .inr ⟨rfl, by simp [bcdArray, h0, h2, hb]⟩
      | some p => exact .inl ⟨p.1, p.2, rfl, by simp [bcdArray, h0, h2, hb]⟩

end Sys2Proof.Machine
end

