-- ==== Sys2Proof/Laws/Memory.lean ====
section
/-! SUPPORT. The laws of memory: what a read gives after a write, and that every write keeps the canonical form and
stays in the range it writes. -/

namespace Sys2Proof.Machine

/-! ## One byte -/

@[simp] theorem cell?_nil (a : Nat) : cell? [] a = none := rfl

theorem cell?_putByte_same (m : Memory) (a : Nat) (v : Byte) : cell? (putByte m a v) a = some v := by
  induction m with
  | nil => simp [putByte, cell?]
  | cons c m ih =>
    obtain ⟨b, w⟩ := c
    simp only [putByte]
    split
    · simp [cell?]
    · split
      · simp [cell?]
      · rename_i _ hne
        simpa [cell?, Ne.symm hne] using ih

theorem cell?_putByte_other (m : Memory) {a b : Nat} (v : Byte) (h : b ≠ a) :
    cell? (putByte m a v) b = cell? m b := by
  induction m with
  | nil => simp [putByte, cell?, h.symm]
  | cons c m ih =>
    obtain ⟨d, w⟩ := c
    simp only [putByte]
    split
    · simp [cell?, h.symm]
    · split
      · rename_i _ heq
        subst heq
        simp [cell?, h.symm]
      · simp [cell?, ih]

@[simp] theorem memByte_putByte_same (m : Memory) (a : Nat) (v : Byte) : memByte (putByte m a v) a = v := by
  simp [memByte, cell?_putByte_same]

theorem memByte_putByte_other (m : Memory) {a b : Nat} (v : Byte) (h : b ≠ a) :
    memByte (putByte m a v) b = memByte m b := by
  simp [memByte, cell?_putByte_other m v h]

theorem mem_putByte {m : Memory} {a : Nat} {v : Byte} {c : Host.Cell} (h : c ∈ putByte m a v) :
    c = (a, v) ∨ c ∈ m := by
  induction m with
  | nil => simpa [putByte] using h
  | cons d m ih =>
    obtain ⟨b, w⟩ := d
    simp only [putByte] at h
    split at h
    · simpa using h
    · split at h
      · rcases List.mem_cons.1 h with h | h
        · exact .inl h
        · exact .inr (List.mem_cons_of_mem _ h)
      · rcases List.mem_cons.1 h with h | h
        · exact .inr (h ▸ List.mem_cons_self ..)
        · exact (ih h).imp id (List.mem_cons_of_mem _)

/-- Writing a byte keeps the canonical form. -/
theorem putByte_wf {m : Memory} (h : m.wf) (a : Nat) (v : Byte) : (putByte m a v).wf := by
  induction m with
  | nil => simp [putByte]
  | cons d m ih =>
    obtain ⟨b, w⟩ := d
    have hm := List.pairwise_cons.1 h
    simp only [putByte]
    split
    · rename_i hab
      refine List.pairwise_cons.2 ⟨fun c hc => ?_, h⟩
      rcases List.mem_cons.1 hc with rfl | hc
      · exact hab
      · exact hab.trans (hm.1 c hc)
    · split
      · rename_i _ heq
        subst heq
        exact List.pairwise_cons.2 ⟨hm.1, hm.2⟩
      · rename_i h1 h2
        refine List.pairwise_cons.2 ⟨fun c hc => ?_, ih hm.2⟩
        rcases mem_putByte hc with rfl | hc
        · show b < a
          omega
        · exact hm.1 c hc

theorem putByte_inRange {m : Memory} (h : m.inRange) {a : Nat} (ha : a < Config.dmemBytes) (v : Byte) :
    (putByte m a v).inRange := fun c hc => by
  rcases mem_putByte hc with rfl | hc
  · exact ha
  · exact h c hc

/-! ## Values of several bytes -/

theorem memWrite_wf {m : Memory} (h : m.wf) (a n v : Nat) : (memWrite m a n v).wf := by
  induction n generalizing m a v with
  | zero => exact h
  | succ n ih => exact ih (putByte_wf h ..) ..

theorem memWrite_inRange {m : Memory} (h : m.inRange) {a n : Nat} (ha : a + n ≤ Config.dmemBytes) (v : Nat) :
    (memWrite m a n v).inRange := by
  induction n generalizing m a v with
  | zero => exact h
  | succ n ih => exact ih (putByte_inRange h (by omega) _) (by omega) _

/-- A write leaves every byte outside it alone. -/
theorem memByte_memWrite_outside (m : Memory) {a n b : Nat} (v : Nat) (h : b < a ∨ a + n ≤ b) :
    memByte (memWrite m a n v) b = memByte m b := by
  induction n generalizing m a v with
  | zero => rfl
  | succ n ih =>
    rw [memWrite, ih _ _ (by omega), memByte_putByte_other _ _ (by omega)]

/-- A write leaves byte `i` of its value at its `i`-th address. -/
theorem memByte_memWrite_inside (m : Memory) {a n i : Nat} (v : Nat) (h : i < n) :
    memByte (memWrite m a n v) (a + i) = BitVec.ofNat 8 (v / 256 ^ i) := by
  induction n generalizing m a v i with
  | zero => omega
  | succ n ih =>
    rw [memWrite]
    cases i with
    | zero => rw [memByte_memWrite_outside _ _ (by omega)]; simp
    | succ i =>
      rw [show a + (i + 1) = a + 1 + i by omega, ih _ _ (by omega), Nat.div_div_eq_div_mul, pow_succ']

/-- A read depends on the bytes it covers alone. -/
theorem memRead_congr {m m' : Memory} {a n : Nat} (h : ∀ i < n, memByte m (a + i) = memByte m' (a + i)) :
    memRead m a n = memRead m' a n := by
  induction n generalizing a with
  | zero => rfl
  | succ n ih =>
    rw [memRead, memRead, show memByte m a = memByte m' a from h 0 (by omega),
      ih fun i hi => by simpa [Nat.add_assoc, Nat.add_comm 1] using h (i + 1) (by omega)]

theorem memRead_lt (m : Memory) (a n : Nat) : memRead m a n < 256 ^ n := by
  induction n generalizing a with
  | zero => simp [memRead]
  | succ n ih =>
    have h1 := (memByte m a).isLt
    have h2 := ih (a + 1)
    rw [memRead, pow_succ]
    omega

/-- Reading what was written gives the value, cut to the bytes written. -/
theorem memRead_memWrite_same (m : Memory) (a n v : Nat) : memRead (memWrite m a n v) a n = v % 256 ^ n := by
  induction n generalizing m a v with
  | zero => simp [memRead, Nat.mod_one]
  | succ n ih =>
    rw [memRead, memWrite, ih, memByte_memWrite_outside _ _ (by omega), memByte_putByte_same,
      BitVec.toNat_ofNat, pow_succ' 256 n, Nat.mod_mul]

theorem memRead_memWrite_outside (m : Memory) {a n b k : Nat} (v : Nat) (h : b + k ≤ a ∨ a + n ≤ b) :
    memRead (memWrite m a n v) b k = memRead m b k :=
  memRead_congr fun i hi => memByte_memWrite_outside _ _ (by omega)

theorem memRead_byte (m : Memory) (a n i : Nat) (h : i < n) :
    BitVec.ofNat 8 (memRead m a n / 256 ^ i) = memByte m (a + i) := by
  induction n generalizing a i with
  | zero => omega
  | succ n ih =>
    cases i with
    | zero =>
      apply BitVec.eq_of_toNat_eq
      have := (memByte m a).isLt
      simp [memRead]
      omega
    | succ i =>
      have := (memByte m a).isLt
      have key : ((memByte m a).toNat + 256 * memRead m (a + 1) n) / 256 = memRead m (a + 1) n := by omega
      rw [memRead, pow_succ', ← Nat.div_div_eq_div_mul, key, ih _ _ (by omega)]
      congr 1
      omega

/-- Storing what a read gave changes no byte. -/
theorem memByte_memWrite_memRead (m m' : Memory) (a n b : Nat) (h : ∀ c, memByte m' c = memByte m c) :
    memByte (memWrite m' a n (memRead m a n)) b = memByte m b := by
  by_cases hb : b < a ∨ a + n ≤ b
  · rw [memByte_memWrite_outside _ _ hb, h]
  · obtain ⟨i, rfl⟩ := Nat.exists_eq_add_of_le (show a ≤ b by omega)
    rw [memByte_memWrite_inside _ _ (by omega), memRead_byte _ _ _ _ (by omega)]

/-! ## Arrays -/

theorem readArray_length (m : Memory) (a w k : Nat) : (readArray m a w k).length = k := by
  induction k generalizing a with
  | zero => rfl
  | succ k ih => simp [readArray, ih]

theorem readArray_eq_map (m : Memory) (a w k : Nat) :
    readArray m a w k = (List.range k).map fun i => memRead m (a + w * i) w := by
  induction k generalizing a with
  | zero => rfl
  | succ k ih =>
    rw [readArray, ih, List.range_succ_eq_map]
    simp [List.map_map, Function.comp_def, Nat.mul_add, Nat.add_assoc, Nat.add_comm w]

theorem writeArray_wf {m : Memory} (h : m.wf) (a w : Nat) (vs : List Nat) : (writeArray m a w vs).wf := by
  induction vs generalizing m a with
  | nil => exact h
  | cons v vs ih => exact ih (memWrite_wf h ..) _

theorem writeArray_inRange {m : Memory} (h : m.inRange) {a w : Nat} (vs : List Nat)
    (ha : vs = [] ∨ a + vs.length * w ≤ Config.dmemBytes) : (writeArray m a w vs).inRange := by
  induction vs generalizing m a with
  | nil => exact h
  | cons v vs ih =>
    have ha : a + (vs.length + 1) * w ≤ Config.dmemBytes := by simpa using ha
    rw [Nat.add_mul, Nat.one_mul] at ha
    exact ih (memWrite_inRange h (by omega) _) (.inr (by omega))

/-- An array store leaves every byte outside the array alone. -/
theorem memByte_writeArray_outside (m : Memory) {a w b : Nat} (vs : List Nat)
    (h : b < a ∨ a + vs.length * w ≤ b) : memByte (writeArray m a w vs) b = memByte m b := by
  induction vs generalizing m a with
  | nil => rfl
  | cons v vs ih =>
    rw [List.length_cons, Nat.add_mul, Nat.one_mul] at h
    rw [writeArray, ih _ (by omega), memByte_memWrite_outside _ _ (by omega)]

theorem memRead_writeArray_before (m : Memory) {a w b k : Nat} (vs : List Nat) (h : b + k ≤ a) :
    memRead (writeArray m a w vs) b k = memRead m b k :=
  memRead_congr fun i hi => memByte_writeArray_outside _ _ (by omega)

/-- Element `i` of a stored array reads as the value stored, cut to its width. -/
theorem memRead_writeArray (m : Memory) (a w : Nat) (vs : List Nat) (i : Nat) (h : i < vs.length) :
    memRead (writeArray m a w vs) (a + w * i) w = vs[i] % 256 ^ w := by
  induction vs generalizing m a i with
  | nil => simp at h
  | cons v vs ih =>
    rw [writeArray]
    cases i with
    | zero =>
      rw [Nat.mul_zero, Nat.add_zero, memRead_writeArray_before _ _ (le_refl _), memRead_memWrite_same]
      rfl
    | succ i =>
      have := ih (memWrite m a w v) (a + w) i (by simpa using h)
      rw [show a + w * (i + 1) = a + w + w * i by ring]
      simpa using this

/-! ## The array check -/

/-- `check_array` (60_exceptions.md R420). -/
theorem arrayOk_iff (a k w : Nat) :
    arrayOk a k w = true ↔ k = 0 ∨ (a % w = 0 ∧ a + k * w ≤ 65536) := by
  have : arrayOk a k w = true ↔ k = 0 ∨ (a % w = 0 ∧ a + k * w ≤ Config.dmemBytes) := by simp [arrayOk]
  exact this

/-- An array that passed its check is stored in range. -/
theorem writeArray_inRange_of_arrayOk {m : Memory} (h : m.inRange) {a k w : Nat} (ho : arrayOk a k w = true)
    {vs : List Nat} (hk : vs.length = k) : (writeArray m a w vs).inRange := by
  subst hk
  refine writeArray_inRange h _ ?_
  rcases (arrayOk_iff _ _ _).1 ho with ho | ho
  · exact .inl (List.eq_nil_of_length_eq_zero ho)
  · exact .inr ho.2

/-- Element `i` of a stored array, for a value that fits its width. -/
theorem memRead_writeArray_of_lt (m : Memory) (a w : Nat) (vs : List Nat) (i : Nat) (h : i < vs.length)
    (hv : vs[i] < 256 ^ w) : memRead (writeArray m a w vs) (a + w * i) w = vs[i] := by
  rw [memRead_writeArray _ _ _ _ _ h, Nat.mod_eq_of_lt hv]

/-- A read as the sum of its bytes (20_memory.md R102). -/
theorem memRead_eq_sum (m : Memory) (a n : Nat) :
    memRead m a n = ∑ i ∈ Finset.range n, (memByte m (a + i)).toNat * 256 ^ i := by
  induction n generalizing a with
  | zero => rfl
  | succ n ih =>
    rw [memRead, ih, Finset.sum_range_succ', Finset.mul_sum, Nat.add_comm]
    congr 1
    · refine Finset.sum_congr rfl fun i _ => ?_
      rw [show a + 1 + i = a + (i + 1) by omega]
      ring
    · simp

end Sys2Proof.Machine
end

