-- ==== Sys2Proof/Laws/Crc.lean ====
section
/-! SUPPORT. The laws of the division (41_crc.md R234 to R239): lengths, lanes, and its reading as the remainder of a
polynomial over GF(2). -/

namespace Sys2Proof.Machine

open Polynomial

/-! ## Check length -/

/-- The check length is where the leading coefficient stands (41_crc.md R230). -/
theorem checkLength_of {p : Word64} {c : Nat} (h : Safety.HasCheckLength p c) : checkLength p = c := by
  obtain ⟨h1, h2, h3⟩ := h
  have hp : p.toNat ≠ 0 := by have := Nat.two_pow_pos c; omega
  rw [checkLength, bitLength, if_neg hp, (Nat.log2_eq_iff hp).2 ⟨h2, h3⟩]
  simp

theorem hasCheckLength {p : Word64} (h : 2 ≤ p.toNat) : Safety.HasCheckLength p (checkLength p) := by
  have hp : p.toNat ≠ 0 := by omega
  have hl := (Nat.log2_eq_iff hp).1 rfl
  have hc : checkLength p = Nat.log2 p.toNat := by simp [checkLength, bitLength, hp]
  refine ⟨?_, hc ▸ hl.1, hc ▸ hl.2⟩
  rw [hc]
  exact (Nat.le_log2 hp).2 (by simpa using h)

theorem hasCheckLength_lt {p : Word64} {c : Nat} (h : Safety.HasCheckLength p c) : c ≤ 63 := by
  have := p.isLt
  have h2 : 2 ^ c < 2 ^ 64 := by have := h.2.1; omega
  have := (Nat.pow_lt_pow_iff_right (a := 2) (by omega)).1 h2
  omega

/-- No polynomial that `POLY` holds has a check length above `C_MAX` (41_crc.md R231, 00_scope.md R13). -/
theorem checkLength_le_cMax {p : Config.PolyWord} (h : 2 ≤ p.toNat) : checkLength p ≤ Config.cMax :=
  hasCheckLength_lt (hasCheckLength h)

/-- `POLY` holds every bit of an argument register: `POLY_W` is the register width (00_scope.md R13, R14). -/
@[simp] theorem setWidth_polyW (v : Word64) : v.setWidth Config.polyW = v := BitVec.setWidth_eq v

/-- A read of `POLY` gives all of it (10_state.md R55). -/
@[simp] theorem polyWord_setWidth (p : Config.PolyWord) : p.setWidth 64 = p := BitVec.setWidth_eq p

theorem leading_bit {p : Word64} {c : Nat} (h : Safety.HasCheckLength p c) : p.getLsbD c = true := by
  have : p.toNat / 2 ^ c = 1 := by
    rw [Nat.div_eq_iff (by positivity)]
    have := h.2.1
    have := h.2.2
    rw [pow_succ] at this
    omega
  rw [BitVec.getLsbD, Nat.testBit_eq_decide_div_mod_eq, this]
  rfl

theorem high_bit {p : Word64} {c k : Nat} (h : Safety.HasCheckLength p c) (hk : c < k) : p.getLsbD k = false := by
  rw [BitVec.getLsbD, Nat.testBit_lt_two_pow]
  exact h.2.2.trans_le (Nat.pow_le_pow_right (by omega) hk)

/-- `CRC.SETPOLY`'s test (41_crc.md R231). -/
theorem bitLength_lt_two_iff (n : Nat) : bitLength n < 2 ↔ n < 2 := by
  rw [bitLength]
  split
  · omega
  · rename_i h
    have := Nat.le_log2 (n := n) (k := 1) h
    omega

/-! ## Lane and bit counts (30_encoding.md R142) -/

theorem lanesOk_iff (n : BitVec 7) : lanesOk n = true ↔ 1 ≤ n.toNat ∧ n.toNat ≤ 64 := by
  rw [lanesOk, Bool.and_eq_true, decide_eq_true_eq, decide_eq_true_eq]
  rfl

theorem lengthOk_iff (n : BitVec 7) : lengthOk n = true ↔ 1 ≤ n.toNat ∧ n.toNat ≤ 64 := by
  rw [lengthOk, Bool.and_eq_true, decide_eq_true_eq, decide_eq_true_eq]

/-! ## Lengths -/

@[simp] theorem xorWindow_length (t : Word64) (bs : List Bool) (es : List Word64) :
    (xorWindow t bs es).length = es.length := by
  induction bs generalizing es with
  | nil => simp [xorWindow]
  | cons b bs ih => cases es <;> simp [xorWindow, ih]

theorem divSteps_length (bs : List Bool) (k : Nat) (w : List Word64) :
    (divSteps bs k w).length = w.length - k := by
  induction k generalizing w with
  | zero => rfl
  | succ k ih =>
    cases w with
    | nil => simp [divSteps]
    | cons t w => simp [divSteps, ih]

/-- A division leaves the last `C` elements (R234). -/
theorem crcDiv_length (p : Word64) (s : List Word64) (h : checkLength p ≤ s.length) :
    (crcDiv p s).length = checkLength p := by
  rw [crcDiv, divSteps_length]
  omega

/-- A remainder has `C` elements, whatever the stream (R235). -/
@[simp] theorem crcRem_length (p : Word64) (s : List Word64) : (crcRem p s).length = checkLength p := by
  rw [crcRem, crcDiv_length]
  simp

@[simp] theorem bitsOf_length (v : Word64) (m : Nat) : (bitsOf v m).length = m := by
  induction m with
  | zero => rfl
  | succ m ih => simp [bitsOf, ih]

theorem bitsOf_getElem (v : Word64) (m i : Nat) (h : i < (bitsOf v m).length) :
    (bitsOf v m)[i] = if v.getLsbD (m - 1 - i) then 1 else 0 := by
  induction m generalizing i with
  | zero => simp [bitsOf] at h
  | succ m ih =>
    cases i with
    | zero => simp [bitsOf]
    | succ i =>
      simp only [bitsOf, List.getElem_cons_succ]
      rw [ih, show m + 1 - 1 - (i + 1) = m - 1 - i by omega]

@[simp] theorem taps_length (p : Word64) : (taps p).length = checkLength p + 1 := by simp [taps]

/-! ## Maps that commute with XOR -/

theorem xorWindow_map (f : Word64 → Word64) (hf : ∀ a b, f (a ^^^ b) = f a ^^^ f b) (t : Word64) (bs : List Bool)
    (es : List Word64) : (xorWindow t bs es).map f = xorWindow (f t) bs (es.map f) := by
  induction bs generalizing es with
  | nil => simp [xorWindow]
  | cons b bs ih =>
    cases es with
    | nil => simp [xorWindow]
    | cons e es => cases b <;> simp [xorWindow, ih, hf]

theorem divSteps_map (f : Word64 → Word64) (hf : ∀ a b, f (a ^^^ b) = f a ^^^ f b) (bs : List Bool) (k : Nat)
    (w : List Word64) : (divSteps bs k w).map f = divSteps bs k (w.map f) := by
  induction k generalizing w with
  | zero => rfl
  | succ k ih =>
    cases w with
    | nil => simp [divSteps]
    | cons t w =>
      rw [divSteps, ih, List.map_tail, xorWindow_map f hf]
      rfl

/-- A map that commutes with XOR commutes with the division. -/
theorem crcDiv_map (f : Word64 → Word64) (hf : ∀ a b, f (a ^^^ b) = f a ^^^ f b) (p : Word64) (s : List Word64) :
    (crcDiv p s).map f = crcDiv p (s.map f) := by
  rw [crcDiv, crcDiv, divSteps_map f hf, List.length_map]

/-- A map that commutes with XOR, and so keeps 0, commutes with the remainder. -/
theorem crcRem_map (f : Word64 → Word64) (hf : ∀ a b, f (a ^^^ b) = f a ^^^ f b) (p : Word64) (s : List Word64) :
    (crcRem p s).map f = crcRem p (s.map f) := by
  have h0 : f 0 = 0 := by simpa using hf 0 0
  rw [crcRem, crcRem, crcDiv_map f hf, List.map_append, List.map_replicate, h0]

/-! ## Polynomials -/

/-- One lane of a stream as a polynomial, the first element the highest coefficient (41_crc.md R238). -/
noncomputable def lanePoly (l : Nat) : List Word64 → (ZMod 2)[X]
  | [] => 0
  | e :: es => (if e.getLsbD l then X ^ es.length else 0) + lanePoly l es

/-- Coefficients, the first the highest, as a polynomial. -/
noncomputable def tapsPoly : List Bool → (ZMod 2)[X]
  | [] => 0
  | b :: bs => (if b then X ^ bs.length else 0) + tapsPoly bs

/-- `P(x)` (41_crc.md R238). -/
noncomputable def wordPoly (p : Word64) : (ZMod 2)[X] :=
  ∑ k ∈ Finset.range 64, if p.getLsbD k then X ^ k else 0

theorem add_self_zmod2 (q : (ZMod 2)[X]) : q + q = 0 := CharTwo.add_self_eq_zero q

theorem xor_poly (a b : Bool) (q : (ZMod 2)[X]) :
    (if (a ^^ b) then q else 0) = (if a then q else 0) + (if b then q else 0) := by
  cases a <;> cases b <;> simp [add_self_zmod2]

/-- XOR of the window adds the shifted coefficients in the lanes that `t` sets. -/
theorem lanePoly_xorWindow (l : Nat) (t : Word64) (bs : List Bool) (es : List Word64) (h : bs.length ≤ es.length) :
    lanePoly l (xorWindow t bs es) =
      lanePoly l es + if t.getLsbD l then tapsPoly bs * X ^ (es.length - bs.length) else 0 := by
  induction bs generalizing es with
  | nil => simp [xorWindow, tapsPoly]
  | cons b bs ih =>
    cases es with
    | nil => simp at h
    | cons e es =>
      have hle : bs.length ≤ es.length := by simpa using h
      simp only [xorWindow, lanePoly, tapsPoly, xorWindow_length, List.length_cons, Nat.add_sub_add_right]
      rw [ih es hle]
      have key : (if ((if b then e ^^^ t else e).getLsbD l) then (X : (ZMod 2)[X]) ^ es.length else 0) =
          (if e.getLsbD l then X ^ es.length else 0) +
            if t.getLsbD l then (if b then X ^ bs.length else 0) * X ^ (es.length - bs.length) else 0 := by
        cases b
        · simp
        · simp only [if_true, BitVec.getLsbD_xor, xor_poly, ← pow_add, Nat.add_sub_cancel' hle]
      rw [key]
      cases t.getLsbD l
      · simp
      · simp only [if_true]
        ring

theorem degree_lanePoly_lt (l : Nat) (w : List Word64) : (lanePoly l w).degree < w.length := by
  induction w with
  | nil => simp [lanePoly]
  | cons e w ih =>
    rw [lanePoly]
    refine (degree_add_le _ _).trans_lt (max_lt ?_ (ih.trans ?_))
    · split
      · rw [degree_X_pow]
        exact_mod_cast Nat.lt_succ_self _
      · rw [degree_zero]
        exact bot_lt_iff_ne_bot.2 (by simp)
    · exact_mod_cast Nat.lt_succ_self _

/-- The steps of a division subtract a multiple of the polynomial (41_crc.md R234, R238). -/
theorem lanePoly_divSteps (l : Nat) (bs : List Bool) (k : Nat) (w : List Word64) (h : k + bs.length ≤ w.length) :
    ∃ q, lanePoly l w = lanePoly l (divSteps (true :: bs) k w) + tapsPoly (true :: bs) * q := by
  induction k generalizing w with
  | zero => exact ⟨0, by simp [divSteps]⟩
  | succ k ih =>
    cases w with
    | nil => simp at h
    | cons t w =>
      have hlen : bs.length ≤ w.length := by simp at h; omega
      obtain ⟨q, hq⟩ := ih (xorWindow t (true :: bs) (t :: w)).tail (by simp at h ⊢; omega)
      have htail : lanePoly l (xorWindow t (true :: bs) (t :: w)).tail =
          lanePoly l (xorWindow t (true :: bs) (t :: w)) := by
        simp [xorWindow, lanePoly]
      refine ⟨q + if t.getLsbD l then X ^ (w.length - bs.length) else 0, ?_⟩
      have hwin := lanePoly_xorWindow l t (true :: bs) (t :: w) (by simpa using hlen)
      rw [divSteps, mul_add, ← add_assoc, ← hq, htail, hwin, add_assoc]
      cases ht : t.getLsbD l
      · simp
      · simp [add_self_zmod2]

theorem tapsPoly_eq (f : Nat → Bool) (n : Nat) :
    tapsPoly ((List.range n).map fun j => f (n - 1 - j)) = ∑ k ∈ Finset.range n, if f k then X ^ k else 0 := by
  induction n with
  | zero => simp [tapsPoly]
  | succ n ih =>
    rw [List.range_succ_eq_map, Finset.sum_range_succ, ← ih]
    simp only [List.map_cons, List.map_map, tapsPoly, List.length_map, List.length_range]
    rw [add_comm]
    congr 2
    simp [Function.comp_def, Nat.sub_sub, Nat.add_comm 1]

/-- The taps are the polynomial's coefficients from the leading one down. -/
theorem tapsPoly_taps {p : Word64} {c : Nat} (h : Safety.HasCheckLength p c) : tapsPoly (taps p) = wordPoly p := by
  have hc := hasCheckLength_lt h
  have := tapsPoly_eq (fun k => p.getLsbD k) (c + 1)
  rw [taps, checkLength_of h]
  simp only [Nat.add_sub_cancel] at this
  rw [this, wordPoly, ← Finset.sum_range_add_sum_Ico _ (show c + 1 ≤ 64 by omega),
    Finset.sum_eq_zero (s := Finset.Ico (c + 1) 64), add_zero]
  intro k hk
  rw [Finset.mem_Ico] at hk
  rw [high_bit h (by omega)]
  simp

theorem taps_eq_cons {p : Word64} {c : Nat} (h : Safety.HasCheckLength p c) :
    ∃ bs, taps p = true :: bs ∧ bs.length = c := by
  refine ⟨(taps p).tail, ?_, by simp [checkLength_of h]⟩
  rw [taps, checkLength_of h, List.range_succ_eq_map]
  simp [leading_bit h]

theorem wordPoly_monic {p : Word64} {c : Nat} (h : Safety.HasCheckLength p c) :
    (wordPoly p).Monic ∧ (wordPoly p).degree = c := by
  have hlt : (∑ k ∈ Finset.range c, if p.getLsbD k then (X : (ZMod 2)[X]) ^ k else 0).degree < c := by
    refine (degree_sum_le _ _).trans_lt ?_
    rw [Finset.sup_lt_iff (by exact_mod_cast WithBot.bot_lt_coe c)]
    intro k hk
    split
    · rw [degree_X_pow]
      exact_mod_cast Finset.mem_range.1 hk
    · rw [degree_zero]
      exact WithBot.bot_lt_coe _
  have hp : wordPoly p = X ^ c + ∑ k ∈ Finset.range c, if p.getLsbD k then X ^ k else 0 := by
    have hc := hasCheckLength_lt h
    rw [wordPoly, ← Finset.sum_range_add_sum_Ico _ (show c + 1 ≤ 64 by omega),
      Finset.sum_eq_zero (s := Finset.Ico (c + 1) 64), add_zero, Finset.sum_range_succ, leading_bit h, add_comm]
    · rfl
    · intro k hk
      rw [Finset.mem_Ico] at hk
      rw [high_bit h (by omega)]
      simp
  rw [hp]
  exact ⟨monic_X_pow_add hlt, by rw [degree_add_eq_left_of_degree_lt (by rwa [degree_X_pow]), degree_X_pow]⟩

/-- A division is the remainder modulo the polynomial, lane by lane (41_crc.md R238). -/
theorem lanePoly_crcDiv {p : Word64} {c : Nat} (h : Safety.HasCheckLength p c) (l : Nat) (s : List Word64)
    (hs : c ≤ s.length) : lanePoly l (crcDiv p s) = lanePoly l s %ₘ wordPoly p := by
  obtain ⟨bs, htaps, hbs⟩ := taps_eq_cons h
  obtain ⟨q, hq⟩ := lanePoly_divSteps l bs (s.length - c) s (by omega)
  have hdiv : crcDiv p s = divSteps (true :: bs) (s.length - c) s := by rw [crcDiv, checkLength_of h, htaps]
  rw [← hdiv, ← htaps, tapsPoly_taps h] at hq
  refine ((div_modByMonic_unique q _ (wordPoly_monic h).1 ⟨hq.symm, ?_⟩).2).symm
  rw [(wordPoly_monic h).2]
  have := degree_lanePoly_lt l (crcDiv p s)
  rwa [crcDiv_length _ _ (by rwa [checkLength_of h]), checkLength_of h] at this

theorem lanePoly_append_zeros (l : Nat) (s : List Word64) (c : Nat) :
    lanePoly l (s ++ List.replicate c 0) = lanePoly l s * X ^ c := by
  induction s with
  | nil =>
    induction c with
    | zero => simp [lanePoly]
    | succ c ih => simpa [List.replicate_succ, lanePoly] using ih
  | cons e s ih =>
    rw [List.cons_append, lanePoly, lanePoly, ih, add_mul]
    congr 1
    split
    · rw [← pow_add]
      simp
    · simp

/-- A remainder is the message times `x^C`, modulo the polynomial, lane by lane (41_crc.md R238). -/
theorem lanePoly_crcRem {p : Word64} {c : Nat} (h : Safety.HasCheckLength p c) (l : Nat) (s : List Word64) :
    lanePoly l (crcRem p s) = (lanePoly l s * X ^ c) %ₘ wordPoly p := by
  rw [crcRem, lanePoly_crcDiv h l _ (by simp [checkLength_of h]), checkLength_of h, lanePoly_append_zeros]

/-- The polynomial of a lane as a sum over positions (41_crc.md R238). -/
theorem lanePoly_eq_sum (l : Nat) (s : List Word64) :
    lanePoly l s =
      ∑ i ∈ Finset.range s.length, if (s.getD i 0).getLsbD l then X ^ (s.length - 1 - i) else 0 := by
  induction s with
  | nil => simp [lanePoly]
  | cons e s ih =>
    rw [lanePoly, ih, List.length_cons, Finset.sum_range_succ', add_comm]
    congr 1
    refine Finset.sum_congr rfl fun i _ => ?_
    rw [List.getD_cons_succ, show s.length + 1 - 1 - (i + 1) = s.length - 1 - i by omega]

/-- The residue of a check, in the terms of the claims. -/
theorem isResidue_crcDiv {p : Word64} {c : Nat} (h : Safety.HasCheckLength p c) (l : Nat) (s : List Word64)
    (hs : c ≤ s.length) :
    Safety.IsResidue p c s.length 0 (fun i => (s.getD i 0).getLsbD l)
      (fun k => ((crcDiv p s).getD k 0).getLsbD l) := by
  have := lanePoly_crcDiv h l s hs
  rw [lanePoly_eq_sum, lanePoly_eq_sum, crcDiv_length _ _ (by rwa [checkLength_of h]), checkLength_of h] at this
  rw [Safety.IsResidue, pow_zero, mul_one]
  exact this

/-- The remainder of a message, in the terms of the claims. -/
theorem isResidue_crcRem {p : Word64} {c : Nat} (h : Safety.HasCheckLength p c) (l : Nat) (s : List Word64) :
    Safety.IsResidue p c s.length c (fun i => (s.getD i 0).getLsbD l)
      (fun k => ((crcRem p s).getD k 0).getLsbD l) := by
  have := lanePoly_crcRem h l s
  rw [lanePoly_eq_sum, lanePoly_eq_sum, crcRem_length, checkLength_of h] at this
  exact this

/-- A residue depends on the stream's `n` bits and the result's `c` bits alone. -/
theorem isResidue_congr {p : Word64} {c n shift : Nat} {s s' r r' : Nat → Bool} (hs : ∀ i < n, s i = s' i)
    (hr : ∀ k < c, r k = r' k) (h : Safety.IsResidue p c n shift s r) : Safety.IsResidue p c n shift s' r' := by
  unfold Safety.IsResidue at h ⊢
  have e1 : (∑ k ∈ Finset.range c, if r' k then (X : (ZMod 2)[X]) ^ (c - 1 - k) else 0) =
      ∑ k ∈ Finset.range c, if r k then (X : (ZMod 2)[X]) ^ (c - 1 - k) else 0 :=
    Finset.sum_congr rfl fun k hk => by rw [hr k (Finset.mem_range.1 hk)]
  have e2 : (∑ i ∈ Finset.range n, if s' i then (X : (ZMod 2)[X]) ^ (n - 1 - i) else 0) =
      ∑ i ∈ Finset.range n, if s i then (X : (ZMod 2)[X]) ^ (n - 1 - i) else 0 :=
    Finset.sum_congr rfl fun i hi => by rw [hs i (Finset.mem_range.1 hi)]
  rw [e1, e2]
  exact h

/-! ## The streams of the commands (41_crc.md R240, R245) -/

theorem bitsOf_getD {v : Word64} {m i : Nat} (h : i < m) :
    ((bitsOf v m).getD i 0).getLsbD 0 = v.getLsbD (m - 1 - i) := by
  have hi : i < (bitsOf v m).length := by simpa using h
  rw [List.getD_eq_getElem _ _ hi, bitsOf_getElem]
  split <;> simp_all

@[simp] theorem readStream_length (m : Memory) (a n l : Nat) : (readStream m a n l).length = n := by
  simp [readStream, readArray_length]

theorem getLsbD_laneMask (l j : Nat) (h : l ≤ 64) : (laneMask l).getLsbD j = decide (j < l) := by
  rw [laneMask, BitVec.getLsbD_ofNat, Nat.testBit_two_pow_sub_one]
  by_cases hj : j < l
  · simp [hj]
    omega
  · simp [hj]

/-- Element `i` of a stream in DMEM, lane by lane. -/
theorem readStream_getD (m : Memory) {a n l i : Nat} (hi : i < n) (hl : l ≤ 64) (j : Nat) :
    ((readStream m a n l).getD i 0).getLsbD j = (decide (j < l) && Safety.laneBit m a i j) := by
  have h : i < (readStream m a n l).length := by simpa using hi
  rw [List.getD_eq_getElem _ _ h]
  simp only [readStream, List.getElem_map, readArray_eq_map, List.getElem_range, BitVec.getLsbD_and,
    getLsbD_laneMask _ _ hl, BitVec.getLsbD_ofNat, Safety.laneBit]
  by_cases hj : j < l
  · simp [hj]
    omega
  · simp [hj]

/-! ## Zero residues, appended remainders, single-bit changes (41_crc.md R236, R241, R242) -/

/-- A lane is zero as a polynomial exactly when it is zero at every position. -/
theorem lanePoly_eq_zero_iff (l : Nat) (w : List Word64) : lanePoly l w = 0 ↔ ∀ e ∈ w, e.getLsbD l = false := by
  induction w with
  | nil => simp [lanePoly]
  | cons e w ih =>
    rw [List.forall_mem_cons, ← ih, lanePoly]
    cases he : e.getLsbD l
    · simp
    · have hd := degree_lanePoly_lt l w
      have : (X ^ w.length + lanePoly l w : (ZMod 2)[X]).Monic := monic_X_pow_add hd
      simpa using this.ne_zero

theorem lanePoly_append (l : Nat) (s r : List Word64) :
    lanePoly l (s ++ r) = lanePoly l s * X ^ r.length + lanePoly l r := by
  induction s with
  | nil => simp [lanePoly]
  | cons e s ih =>
    rw [List.cons_append, lanePoly, lanePoly, ih, add_mul, add_assoc]
    congr 1
    split
    · rw [← pow_add, List.length_append]
    · simp

/-- A stream followed by its remainder divides to zero (41_crc.md R241). -/
theorem lanePoly_crcDiv_append_crcRem {p : Word64} {c : Nat} (h : Safety.HasCheckLength p c) (l : Nat)
    (s : List Word64) : lanePoly l (crcDiv p (s ++ crcRem p s)) = 0 := by
  have hm := (wordPoly_monic h).1
  rw [lanePoly_crcDiv h l _ (by simp [checkLength_of h]), lanePoly_append, crcRem_length, checkLength_of h,
    lanePoly_crcRem h, add_modByMonic, modByMonic_eq_self_iff hm |>.2 (degree_modByMonic_lt _ hm)]
  exact add_self_zmod2 _

/-- Flipping one bit of a lane adds its power of `x`. -/
theorem lanePoly_set_xor (l : Nat) (s : List Word64) (i : Nat) (hi : i < s.length) (t : Word64)
    (ht : t.getLsbD l = true) :
    lanePoly l (s.set i (s[i] ^^^ t)) = lanePoly l s + X ^ (s.length - 1 - i) := by
  induction s generalizing i with
  | nil => simp at hi
  | cons e s ih =>
    cases i with
    | zero =>
      simp only [List.set_cons_zero, List.getElem_cons_zero, lanePoly, BitVec.getLsbD_xor, ht, xor_poly, if_true,
        List.length_cons, Nat.add_sub_cancel, Nat.sub_zero]
      ring
    | succ i =>
      have hi : i < s.length := by simpa using hi
      simp only [List.set_cons_succ, List.getElem_cons_succ, lanePoly, List.length_set, ih i hi, List.length_cons,
        add_assoc]
      rw [show s.length + 1 - 1 - (i + 1) = s.length - 1 - i by omega]

/-- A lane a change does not touch. -/
theorem lanePoly_set_xor_other (l : Nat) (s : List Word64) (i : Nat) (hi : i < s.length) (t : Word64)
    (ht : t.getLsbD l = false) : lanePoly l (s.set i (s[i] ^^^ t)) = lanePoly l s := by
  induction s generalizing i with
  | nil => simp at hi
  | cons e s ih =>
    cases i with
    | zero => simp [lanePoly, ht]
    | succ i => simp [lanePoly, ih i (by simpa using hi)]

/-! ## Packing and lanes of a remainder (41_crc.md R239) -/

theorem pack0_lt (r : List Word64) : pack0 r < 2 ^ r.length := by
  induction r with
  | nil => simp [pack0]
  | cons e r ih =>
    have := Nat.mod_lt e.toNat (show 0 < 2 by omega)
    rw [pack0, List.length_cons, pow_succ]
    nlinarith

/-- Lane 0 of element `k` stands in bit `C-1-k` (R239). -/
theorem testBit_pack0 (r : List Word64) (k : Nat) (h : k < r.length) :
    (pack0 r).testBit (r.length - 1 - k) = (r.getD k 0).getLsbD 0 := by
  induction r generalizing k with
  | nil => simp at h
  | cons e r ih =>
    have hlt := pack0_lt r
    have he : (e.toNat % 2).testBit 0 = e.getLsbD 0 := by
      rw [BitVec.getLsbD, Nat.testBit_zero, Nat.testBit_zero]
      simp
    cases k with
    | zero =>
      rw [pack0, Nat.mul_comm, Nat.testBit_two_pow_mul_add _ hlt]
      simpa using he
    | succ k =>
      have hk : k < r.length := by simpa using h
      rw [pack0, Nat.mul_comm, Nat.testBit_two_pow_mul_add _ hlt, List.length_cons,
        show r.length + 1 - 1 - (k + 1) = r.length - 1 - k by omega, if_pos (by omega), ih k hk, List.getD_cons_succ]

/-- `NZ` is the mask of the lanes with a set bit (R239). -/
theorem getLsbD_nonzeroLanes (r : List Word64) (j : Nat) :
    (nonzeroLanes r).getLsbD j = true ↔ ∃ k < r.length, (r.getD k 0).getLsbD j = true := by
  induction r with
  | nil => simp [nonzeroLanes]
  | cons e r ih =>
    rw [nonzeroLanes, BitVec.getLsbD_or, Bool.or_eq_true, ih]
    constructor
    · rintro (h | ⟨k, hk, h⟩)
      · exact ⟨0, by simp, by simpa using h⟩
      · exact ⟨k + 1, by simpa using hk, by simpa using h⟩
    · rintro ⟨k, hk, h⟩
      cases k with
      | zero => exact .inl (by simpa using h)
      | succ k => exact .inr ⟨k, by simpa using hk, by simpa using h⟩

theorem nonzeroLanes_eq_zero (r : List Word64) : nonzeroLanes r = 0 ↔ ∀ e ∈ r, e = 0 := by
  induction r with
  | nil => simp [nonzeroLanes]
  | cons e r ih =>
    rw [nonzeroLanes, List.forall_mem_cons, ← ih]
    constructor
    · intro h
      constructor <;> ext i hi <;> have := congrArg (fun v => v.getLsbD i) h <;> simp_all
    · rintro ⟨h1, h2⟩
      simp [h1, h2]

/-! ## One-lane streams (41_crc.md R245) -/

/-- An element that uses lane 0 alone. -/
theorem and_one_eq_self_iff (e : Word64) : e &&& 1 = e ↔ e = 0 ∨ e = 1 := by
  constructor
  · intro h
    have := congrArg BitVec.toNat h
    rw [BitVec.toNat_and, show (1 : Word64).toNat = 2 ^ 1 - 1 from rfl, Nat.and_two_pow_sub_one_eq_mod] at this
    have h2 : e.toNat = 0 ∨ e.toNat = 1 := by omega
    exact h2.imp (fun h => BitVec.eq_of_toNat_eq (by simpa using h)) fun h => BitVec.eq_of_toNat_eq (by simpa using h)
  · rintro (rfl | rfl) <;> decide

/-- A division of a one-lane stream uses lane 0 alone (41_crc.md R237, R245). -/
theorem crcDiv_oneLane (p : Word64) {s : List Word64} (h : ∀ e ∈ s, e = 0 ∨ e = 1) :
    ∀ e ∈ crcDiv p s, e = 0 ∨ e = 1 := by
  have hmap : s.map (fun e => e &&& 1) = s :=
    (List.map_congr_left fun e he => (and_one_eq_self_iff e).2 (h e he)).trans (List.map_id' s)
  have key := crcDiv_map (fun e : Word64 => e &&& 1) (fun a b => by
    apply BitVec.eq_of_getLsbD_eq
    intro i _
    simp only [BitVec.getLsbD_and, BitVec.getLsbD_xor]
    cases a.getLsbD i <;> cases b.getLsbD i <;> simp) p s
  rw [hmap] at key
  intro e he
  rw [← key] at he
  obtain ⟨f, -, rfl⟩ := List.mem_map.1 he
  refine (and_one_eq_self_iff _).1 ?_
  apply BitVec.eq_of_getLsbD_eq
  intro i _
  simp only [BitVec.getLsbD_and, Bool.and_assoc, Bool.and_self]

theorem bitsOf_oneLane (v : Word64) (m : Nat) : ∀ e ∈ bitsOf v m, e = 0 ∨ e = 1 := by
  induction m with
  | zero => simp [bitsOf]
  | succ m ih =>
    rw [bitsOf, List.forall_mem_cons]
    exact ⟨by split <;> simp, ih⟩

theorem crcRem_oneLane (p : Word64) {s : List Word64} (h : ∀ e ∈ s, e = 0 ∨ e = 1) :
    ∀ e ∈ crcRem p s, e = 0 ∨ e = 1 := by
  refine crcDiv_oneLane p fun e he => ?_
  rcases List.mem_append.1 he with he | he
  · exact h e he
  · exact .inl (List.mem_replicate.1 he).2

/-- In one lane, `NZ` is 1 exactly when `PACK0` is not 0 (R239, R246). -/
theorem nonzeroLanes_oneLane (r : List Word64) (h : ∀ e ∈ r, e = 0 ∨ e = 1) :
    nonzeroLanes r = if pack0 r = 0 then 0 else 1 := by
  induction r with
  | nil => simp [nonzeroLanes, pack0]
  | cons e r ih =>
    rw [List.forall_mem_cons] at h
    rw [nonzeroLanes, pack0, ih h.2]
    rcases h.1 with rfl | rfl
    · simp
    · split <;> simp

end Sys2Proof.Machine
end

