-- ==== Sys2Proof/Laws/HostPort.lean ====
section
/-! SUPPORT. The laws of the host port: where an access goes, which accesses are legal, and all that one can do. -/

namespace Sys2Proof.Machine

/-! ## Where an access goes (20_memory.md R104) -/

theorem target_eq (rel : Int) :
    target rel = if 0 ≤ rel ∧ rel < 256 then .reg rel.toNat
      else if 65536 ≤ rel ∧ rel < 131072 then .dmem (rel - 65536).toNat else .undecoded := rfl

theorem target_reg {o : Nat} (h : o < 256) : target (o : Int) = .reg o := by
  rw [target_eq, if_pos (by omega)]
  rfl

theorem target_dmem {a : Nat} (h : a < 65536) : target ((a : Int) + 65536) = .dmem a := by
  rw [target_eq, if_neg (by omega), if_pos (by omega), add_sub_cancel_right]
  rfl

theorem hostAccess_reg {o : Nat} (h : o < 256) (n : HostWidth) (op : HostOp) (s : State) :
    hostAccess (Safety.regAccessAt o n op) s = regAccess o n op s := by
  rw [hostAccess, Safety.regAccessAt, target_reg h]

theorem hostAccess_dmem {a : Nat} (h : a < 65536) (n : HostWidth) (op : HostOp) (s : State) :
    hostAccess (Safety.dmemAccessAt a n op) s = dmemAccess a n op s := by
  have key (x : HostAccess) (hx : target x.rel = .dmem a) : hostAccess x s = dmemAccess a x.width x.op s := by
    rw [hostAccess, hx]
  exact key _ (target_dmem h)

/-! ## Legal accesses (20_memory.md R105, R106) -/

theorem regLegal_iff (o : Nat) (n : HostWidth) : regLegal o n = true ↔ Safety.RegShape o n := by
  cases n <;> simp [regLegal, Safety.RegShape]

theorem dmemLegal_iff (a : Nat) (n : HostWidth) : dmemLegal a n = true ↔ a % n.bytes = 0 ∧ a + n.bytes ≤ 65536 := by
  have : dmemLegal a n = true ↔ a % n.bytes = 0 ∧ a + n.bytes ≤ Config.dmemBytes := by simp [dmemLegal]
  exact this

theorem HostWidth.bytes_pos (n : HostWidth) : 0 < n.bytes := by cases n <;> decide

/-- The registers whose every legal write is refused (20_memory.md R107, 10_state.md R45). -/
def readOnly : Reg → Bool
  | .id | .errCode | .errInfo | .errVal | .res0 | .res1 | .res2 | .poly | .clen | .optr | .thrr | .reserved => true
  | .ctrl | .status | .cmd | .arg0 | .arg1 | .arg2 | .arg3 | .hdr0 | .hdr1 | .hdr2 | .hdr3 => false

/-- The read-only registers stand at the offsets of 20_memory.md R107 and 10_state.md R45. -/
theorem readOnly_regAt {k : Nat} (h : k < 32) :
    readOnly (regAt k) = true ↔ k * 8 ∈ Safety.readOnlyOffsets ∨ k * 8 ∈ Safety.reservedOffsets := by
  revert k
  decide

/-- The illegal accesses of the register space. -/
theorem illegalAccess_reg {o : Nat} (h : o < 256) (n : HostWidth) (op : HostOp) :
    Safety.IllegalAccess (Safety.regAccessAt o n op) ↔
      regLegal o n = false ∨ ((∃ d, op = .write d) ∧ readOnly (regAt (o / 8)) = true) := by
  rw [readOnly_regAt (by omega), ← Bool.not_eq_true, regLegal_iff]
  constructor
  · rintro (⟨o', h', e, hh⟩ | ⟨a, ha, e, hh⟩)
    · obtain rfl : o = o' := by simpa [Safety.regAccessAt] using e
      exact hh
    · simp only [Safety.regAccessAt] at e
      omega
  · exact fun hh => .inl ⟨o, h, rfl, hh⟩

/-- The illegal accesses of the DMEM window. -/
theorem illegalAccess_dmem {a : Nat} (h : a < 65536) (n : HostWidth) (op : HostOp) :
    Safety.IllegalAccess (Safety.dmemAccessAt a n op) ↔ dmemLegal a n = false := by
  have key : dmemLegal a n = false ↔ (a % n.bytes ≠ 0 ∨ 65536 < a + n.bytes) := by
    rw [← Bool.not_eq_true, dmemLegal_iff]
    omega
  rw [key]
  constructor
  · rintro (⟨o, h', e, hh⟩ | ⟨a', ha, e, hh⟩)
    · simp only [Safety.dmemAccessAt] at e
      omega
    · obtain rfl : a = a' := by simpa [Safety.dmemAccessAt] using e
      exact hh
  · exact fun hh => .inr ⟨a, h, rfl, hh⟩

/-- Every access goes to a register offset, to an engine address, or nowhere. -/
theorem access_cases (x : HostAccess) :
    (∃ o, o < 256 ∧ x = Safety.regAccessAt o x.width x.op) ∨
    (∃ a, a < 65536 ∧ x = Safety.dmemAccessAt a x.width x.op) ∨
    (target x.rel = .undecoded ∧ ¬ Safety.IllegalAccess x) := by
  obtain ⟨rel, n, op⟩ := x
  by_cases h1 : 0 ≤ rel ∧ rel < 256
  · refine .inl ⟨rel.toNat, by omega, ?_⟩
    simp [Safety.regAccessAt, h1.1]
  · by_cases h2 : 65536 ≤ rel ∧ rel < 131072
    · refine .inr (.inl ⟨(rel - 65536).toNat, by omega, ?_⟩)
      rw [Safety.dmemAccessAt, show (((rel - 65536).toNat : Int) + 0x10000) = rel by omega]
    · refine .inr (.inr ⟨?_, ?_⟩)
      · rw [target_eq, if_neg (by omega), if_neg (by omega)]
      · rintro (⟨o, h, e, -⟩ | ⟨a, h, e, -⟩) <;> simp only at e <;> omega

/-! ## All an access can do (20_memory.md R105, R106, 70_reset_and_hazards.md R461, R462) -/

theorem regAccess_illegal {o : Nat} {n : HostWidth} (h : regLegal o n = false) (op : HostOp) (s : State) :
    regAccess o n op s = illegalAccess op s := by simp [regAccess, h]

theorem regAccess_read {o : Nat} {n : HostWidth} (h : regLegal o n = true) (s : State) :
    regAccess o n .read s = regRead (regAt (o / 8)) n (halfOf o n) s := by simp [regAccess, h]

theorem regAccess_write {o : Nat} {n : HostWidth} (h : regLegal o n = true) (d : Word64) (s : State) :
    regAccess o n (.write d) s = regWrite (regAt (o / 8)) (halfOf o n) d (noResponse s) := by simp [regAccess, h]

theorem dmemAccess_illegal {a : Nat} {n : HostWidth} (h : dmemLegal a n = false) (op : HostOp) (s : State) :
    dmemAccess a n op s = illegalAccess op s := by simp [dmemAccess, h]

theorem dmemAccess_read {a : Nat} {n : HostWidth} (h : dmemLegal a n = true) (s : State) :
    dmemAccess a n .read s =
      if s.busy then respondAny n s else respond (BitVec.ofNat 64 (memRead s.dmem a n.bytes)) s := by
  simp [dmemAccess, h]

theorem dmemAccess_write {a : Nat} {n : HostWidth} (h : dmemLegal a n = true) (d : Word64) (s : State) :
    dmemAccess a n (.write d) s =
      if s.busy then dropWrite (noResponse s)
      else { noResponse s with dmem := memWrite s.dmem a n.bytes d.toNat } := by
  simp [dmemAccess, h]

/-! ## All a register write can do -/

/-- A write of a read-only register or a reserved slot. -/
theorem regWrite_readOnly {r : Reg} (h : readOnly r = true) (part : Half) (d : Word64) (s : State) :
    regWrite r part d s = refuseWrite s := by
  cases r <;> first | rfl | cases h

/-- The argument and header registers are written only while the engine is idle. -/
theorem regWrite_cases {r : Reg} (h : readOnly r = false) (part : Half) (d : Word64) (s : State) :
    regWrite r part d s = s ∨ regWrite r part d s = dropWrite s ∧ s.busy = true ∨
    (∃ v, r = .ctrl ∧ lowData part d = some v ∧ regWrite r part d s = writeCtrl v s) ∨
    (∃ v, r = .status ∧ lowData part d = some v ∧ regWrite r part d s = writeStatus v s) ∨
    (∃ w, r = .cmd ∧ lowData part d = some w ∧ s.busy = false ∧ regWrite r part d s = acceptCommand w s) ∨
    (s.busy = false ∧ ∃ a0 a1 a2 a3 hd,
      regWrite r part d s = { s with arg0 := a0, arg1 := a1, arg2 := a2, arg3 := a3, hdr := hd }) := by
  cases r <;> try cases h
  case ctrl =>
    cases hl : lowData part d with
    | none => exact .inl (by simp [regWrite, hl])
    | some v => exact .inr (.inr (.inl ⟨v, rfl, rfl, by simp [regWrite, hl]⟩))
  case status =>
    cases hl : lowData part d with
    | none => exact .inl (by simp [regWrite, hl])
    | some v => exact .inr (.inr (.inr (.inl ⟨v, rfl, rfl, by simp [regWrite, hl]⟩)))
  case cmd =>
    cases hl : lowData part d with
    | none => exact .inl (by simp [regWrite, writeCmd, hl])
    | some w =>
      cases hb : s.busy
      · exact .inr (.inr (.inr (.inr (.inl ⟨w, rfl, rfl, rfl, by simp [regWrite, writeCmd, hl, hb]⟩))))
      · exact .inr (.inl ⟨by simp [regWrite, writeCmd, hl, hb], rfl⟩)
  all_goals
    cases hb : s.busy
    · exact .inr (.inr (.inr (.inr (.inr ⟨rfl, _, _, _, _, _, by simp only [regWrite, writeIdle, hb]; rfl⟩))))
    · exact .inr (.inl ⟨by simp [regWrite, writeIdle, hb], rfl⟩)

end Sys2Proof.Machine
end

