-- ==== Sys2Proof/Laws/State.lean ====
section
/-! SUPPORT. What each named update of the state leaves in each field: one lemma a field, true by rfl, so that no
proof unfolds a record update. -/

namespace Sys2Proof.Machine

/-! ## `completed` -/

@[simp] theorem completed_ieDone (s : State) : (completed s).ieDone = s.ieDone := rfl
@[simp] theorem completed_ieErr (s : State) : (completed s).ieErr = s.ieErr := rfl
@[simp] theorem completed_busy (s : State) : (completed s).busy = false := rfl
@[simp] theorem completed_done (s : State) : (completed s).done = true := rfl
@[simp] theorem completed_err (s : State) : (completed s).err = false := rfl
@[simp] theorem completed_ovr (s : State) : (completed s).ovr = s.ovr := rfl
@[simp] theorem completed_herr (s : State) : (completed s).herr = s.herr := rfl
@[simp] theorem completed_errCode (s : State) : (completed s).errCode = 0 := rfl
@[simp] theorem completed_errInfo (s : State) : (completed s).errInfo = 0 := rfl
@[simp] theorem completed_errVal (s : State) : (completed s).errVal = 0 := rfl
@[simp] theorem completed_cmdLatch (s : State) : (completed s).cmdLatch = s.cmdLatch := rfl
@[simp] theorem completed_arg0 (s : State) : (completed s).arg0 = s.arg0 := rfl
@[simp] theorem completed_arg1 (s : State) : (completed s).arg1 = s.arg1 := rfl
@[simp] theorem completed_arg2 (s : State) : (completed s).arg2 = s.arg2 := rfl
@[simp] theorem completed_arg3 (s : State) : (completed s).arg3 = s.arg3 := rfl
@[simp] theorem completed_res0 (s : State) : (completed s).res0 = s.res0 := rfl
@[simp] theorem completed_res1 (s : State) : (completed s).res1 = s.res1 := rfl
@[simp] theorem completed_res2 (s : State) : (completed s).res2 = s.res2 := rfl
@[simp] theorem completed_poly (s : State) : (completed s).poly = s.poly := rfl
@[simp] theorem completed_hdr (s : State) : (completed s).hdr = s.hdr := rfl
@[simp] theorem completed_dmem (s : State) : (completed s).dmem = s.dmem := rfl
@[simp] theorem completed_events (s : State) : (completed s).events = s.events := rfl
@[simp] theorem completed_response (s : State) : (completed s).response = s.response := rfl
@[simp] theorem completed_draws (s : State) : (completed s).draws = s.draws := rfl

/-! ## `errored` -/

@[simp] theorem errored_ieDone (s : State) (e : CmdError) (i v : Word64) : (errored s e i v).ieDone = s.ieDone := rfl
@[simp] theorem errored_ieErr (s : State) (e : CmdError) (i v : Word64) : (errored s e i v).ieErr = s.ieErr := rfl
@[simp] theorem errored_busy (s : State) (e : CmdError) (i v : Word64) : (errored s e i v).busy = false := rfl
@[simp] theorem errored_done (s : State) (e : CmdError) (i v : Word64) : (errored s e i v).done = true := rfl
@[simp] theorem errored_err (s : State) (e : CmdError) (i v : Word64) : (errored s e i v).err = true := rfl
@[simp] theorem errored_ovr (s : State) (e : CmdError) (i v : Word64) : (errored s e i v).ovr = s.ovr := rfl
@[simp] theorem errored_herr (s : State) (e : CmdError) (i v : Word64) : (errored s e i v).herr = s.herr := rfl
@[simp] theorem errored_errCode (s : State) (e : CmdError) (i v : Word64) : (errored s e i v).errCode = errorCode e := rfl
@[simp] theorem errored_errInfo (s : State) (e : CmdError) (i v : Word64) : (errored s e i v).errInfo = i := rfl
@[simp] theorem errored_errVal (s : State) (e : CmdError) (i v : Word64) : (errored s e i v).errVal = v := rfl
@[simp] theorem errored_cmdLatch (s : State) (e : CmdError) (i v : Word64) : (errored s e i v).cmdLatch = s.cmdLatch := rfl
@[simp] theorem errored_arg0 (s : State) (e : CmdError) (i v : Word64) : (errored s e i v).arg0 = s.arg0 := rfl
@[simp] theorem errored_arg1 (s : State) (e : CmdError) (i v : Word64) : (errored s e i v).arg1 = s.arg1 := rfl
@[simp] theorem errored_arg2 (s : State) (e : CmdError) (i v : Word64) : (errored s e i v).arg2 = s.arg2 := rfl
@[simp] theorem errored_arg3 (s : State) (e : CmdError) (i v : Word64) : (errored s e i v).arg3 = s.arg3 := rfl
@[simp] theorem errored_res0 (s : State) (e : CmdError) (i v : Word64) : (errored s e i v).res0 = s.res0 := rfl
@[simp] theorem errored_res1 (s : State) (e : CmdError) (i v : Word64) : (errored s e i v).res1 = s.res1 := rfl
@[simp] theorem errored_res2 (s : State) (e : CmdError) (i v : Word64) : (errored s e i v).res2 = s.res2 := rfl
@[simp] theorem errored_poly (s : State) (e : CmdError) (i v : Word64) : (errored s e i v).poly = s.poly := rfl
@[simp] theorem errored_hdr (s : State) (e : CmdError) (i v : Word64) : (errored s e i v).hdr = s.hdr := rfl
@[simp] theorem errored_dmem (s : State) (e : CmdError) (i v : Word64) : (errored s e i v).dmem = s.dmem := rfl
@[simp] theorem errored_events (s : State) (e : CmdError) (i v : Word64) : (errored s e i v).events = s.events := rfl
@[simp] theorem errored_response (s : State) (e : CmdError) (i v : Word64) : (errored s e i v).response = s.response := rfl
@[simp] theorem errored_draws (s : State) (e : CmdError) (i v : Word64) : (errored s e i v).draws = s.draws := rfl

/-! ## `acceptCommand` -/

@[simp] theorem acceptCommand_ieDone (w : Word32) (s : State) : (acceptCommand w s).ieDone = s.ieDone := rfl
@[simp] theorem acceptCommand_ieErr (w : Word32) (s : State) : (acceptCommand w s).ieErr = s.ieErr := rfl
@[simp] theorem acceptCommand_busy (w : Word32) (s : State) : (acceptCommand w s).busy = true := rfl
@[simp] theorem acceptCommand_done (w : Word32) (s : State) : (acceptCommand w s).done = false := rfl
@[simp] theorem acceptCommand_err (w : Word32) (s : State) : (acceptCommand w s).err = false := rfl
@[simp] theorem acceptCommand_ovr (w : Word32) (s : State) : (acceptCommand w s).ovr = s.ovr := rfl
@[simp] theorem acceptCommand_herr (w : Word32) (s : State) : (acceptCommand w s).herr = s.herr := rfl
@[simp] theorem acceptCommand_errCode (w : Word32) (s : State) : (acceptCommand w s).errCode = s.errCode := rfl
@[simp] theorem acceptCommand_errInfo (w : Word32) (s : State) : (acceptCommand w s).errInfo = s.errInfo := rfl
@[simp] theorem acceptCommand_errVal (w : Word32) (s : State) : (acceptCommand w s).errVal = s.errVal := rfl
@[simp] theorem acceptCommand_cmdLatch (w : Word32) (s : State) : (acceptCommand w s).cmdLatch = w := rfl
@[simp] theorem acceptCommand_arg0 (w : Word32) (s : State) : (acceptCommand w s).arg0 = s.arg0 := rfl
@[simp] theorem acceptCommand_arg1 (w : Word32) (s : State) : (acceptCommand w s).arg1 = s.arg1 := rfl
@[simp] theorem acceptCommand_arg2 (w : Word32) (s : State) : (acceptCommand w s).arg2 = s.arg2 := rfl
@[simp] theorem acceptCommand_arg3 (w : Word32) (s : State) : (acceptCommand w s).arg3 = s.arg3 := rfl
@[simp] theorem acceptCommand_res0 (w : Word32) (s : State) : (acceptCommand w s).res0 = s.res0 := rfl
@[simp] theorem acceptCommand_res1 (w : Word32) (s : State) : (acceptCommand w s).res1 = s.res1 := rfl
@[simp] theorem acceptCommand_res2 (w : Word32) (s : State) : (acceptCommand w s).res2 = s.res2 := rfl
@[simp] theorem acceptCommand_poly (w : Word32) (s : State) : (acceptCommand w s).poly = s.poly := rfl
@[simp] theorem acceptCommand_hdr (w : Word32) (s : State) : (acceptCommand w s).hdr = s.hdr := rfl
@[simp] theorem acceptCommand_dmem (w : Word32) (s : State) : (acceptCommand w s).dmem = s.dmem := rfl
@[simp] theorem acceptCommand_events (w : Word32) (s : State) : (acceptCommand w s).events = s.events := rfl
@[simp] theorem acceptCommand_response (w : Word32) (s : State) : (acceptCommand w s).response = s.response := rfl
@[simp] theorem acceptCommand_draws (w : Word32) (s : State) : (acceptCommand w s).draws = s.draws := rfl

/-! ## `respond` -/

@[simp] theorem respond_ieDone (v : Word64) (s : State) : (respond v s).ieDone = s.ieDone := rfl
@[simp] theorem respond_ieErr (v : Word64) (s : State) : (respond v s).ieErr = s.ieErr := rfl
@[simp] theorem respond_busy (v : Word64) (s : State) : (respond v s).busy = s.busy := rfl
@[simp] theorem respond_done (v : Word64) (s : State) : (respond v s).done = s.done := rfl
@[simp] theorem respond_err (v : Word64) (s : State) : (respond v s).err = s.err := rfl
@[simp] theorem respond_ovr (v : Word64) (s : State) : (respond v s).ovr = s.ovr := rfl
@[simp] theorem respond_herr (v : Word64) (s : State) : (respond v s).herr = s.herr := rfl
@[simp] theorem respond_errCode (v : Word64) (s : State) : (respond v s).errCode = s.errCode := rfl
@[simp] theorem respond_errInfo (v : Word64) (s : State) : (respond v s).errInfo = s.errInfo := rfl
@[simp] theorem respond_errVal (v : Word64) (s : State) : (respond v s).errVal = s.errVal := rfl
@[simp] theorem respond_cmdLatch (v : Word64) (s : State) : (respond v s).cmdLatch = s.cmdLatch := rfl
@[simp] theorem respond_arg0 (v : Word64) (s : State) : (respond v s).arg0 = s.arg0 := rfl
@[simp] theorem respond_arg1 (v : Word64) (s : State) : (respond v s).arg1 = s.arg1 := rfl
@[simp] theorem respond_arg2 (v : Word64) (s : State) : (respond v s).arg2 = s.arg2 := rfl
@[simp] theorem respond_arg3 (v : Word64) (s : State) : (respond v s).arg3 = s.arg3 := rfl
@[simp] theorem respond_res0 (v : Word64) (s : State) : (respond v s).res0 = s.res0 := rfl
@[simp] theorem respond_res1 (v : Word64) (s : State) : (respond v s).res1 = s.res1 := rfl
@[simp] theorem respond_res2 (v : Word64) (s : State) : (respond v s).res2 = s.res2 := rfl
@[simp] theorem respond_poly (v : Word64) (s : State) : (respond v s).poly = s.poly := rfl
@[simp] theorem respond_hdr (v : Word64) (s : State) : (respond v s).hdr = s.hdr := rfl
@[simp] theorem respond_dmem (v : Word64) (s : State) : (respond v s).dmem = s.dmem := rfl
@[simp] theorem respond_events (v : Word64) (s : State) : (respond v s).events = s.events := rfl
@[simp] theorem respond_response (v : Word64) (s : State) : (respond v s).response = some v := rfl
@[simp] theorem respond_draws (v : Word64) (s : State) : (respond v s).draws = s.draws := rfl

/-! ## `noResponse` -/

@[simp] theorem noResponse_ieDone (s : State) : (noResponse s).ieDone = s.ieDone := rfl
@[simp] theorem noResponse_ieErr (s : State) : (noResponse s).ieErr = s.ieErr := rfl
@[simp] theorem noResponse_busy (s : State) : (noResponse s).busy = s.busy := rfl
@[simp] theorem noResponse_done (s : State) : (noResponse s).done = s.done := rfl
@[simp] theorem noResponse_err (s : State) : (noResponse s).err = s.err := rfl
@[simp] theorem noResponse_ovr (s : State) : (noResponse s).ovr = s.ovr := rfl
@[simp] theorem noResponse_herr (s : State) : (noResponse s).herr = s.herr := rfl
@[simp] theorem noResponse_errCode (s : State) : (noResponse s).errCode = s.errCode := rfl
@[simp] theorem noResponse_errInfo (s : State) : (noResponse s).errInfo = s.errInfo := rfl
@[simp] theorem noResponse_errVal (s : State) : (noResponse s).errVal = s.errVal := rfl
@[simp] theorem noResponse_cmdLatch (s : State) : (noResponse s).cmdLatch = s.cmdLatch := rfl
@[simp] theorem noResponse_arg0 (s : State) : (noResponse s).arg0 = s.arg0 := rfl
@[simp] theorem noResponse_arg1 (s : State) : (noResponse s).arg1 = s.arg1 := rfl
@[simp] theorem noResponse_arg2 (s : State) : (noResponse s).arg2 = s.arg2 := rfl
@[simp] theorem noResponse_arg3 (s : State) : (noResponse s).arg3 = s.arg3 := rfl
@[simp] theorem noResponse_res0 (s : State) : (noResponse s).res0 = s.res0 := rfl
@[simp] theorem noResponse_res1 (s : State) : (noResponse s).res1 = s.res1 := rfl
@[simp] theorem noResponse_res2 (s : State) : (noResponse s).res2 = s.res2 := rfl
@[simp] theorem noResponse_poly (s : State) : (noResponse s).poly = s.poly := rfl
@[simp] theorem noResponse_hdr (s : State) : (noResponse s).hdr = s.hdr := rfl
@[simp] theorem noResponse_dmem (s : State) : (noResponse s).dmem = s.dmem := rfl
@[simp] theorem noResponse_events (s : State) : (noResponse s).events = s.events := rfl
@[simp] theorem noResponse_response (s : State) : (noResponse s).response = none := rfl
@[simp] theorem noResponse_draws (s : State) : (noResponse s).draws = s.draws := rfl

/-! ## `respondAny` -/

@[simp] theorem respondAny_ieDone (n : HostWidth) (s : State) : (respondAny n s).ieDone = s.ieDone := rfl
@[simp] theorem respondAny_ieErr (n : HostWidth) (s : State) : (respondAny n s).ieErr = s.ieErr := rfl
@[simp] theorem respondAny_busy (n : HostWidth) (s : State) : (respondAny n s).busy = s.busy := rfl
@[simp] theorem respondAny_done (n : HostWidth) (s : State) : (respondAny n s).done = s.done := rfl
@[simp] theorem respondAny_err (n : HostWidth) (s : State) : (respondAny n s).err = s.err := rfl
@[simp] theorem respondAny_ovr (n : HostWidth) (s : State) : (respondAny n s).ovr = s.ovr := rfl
@[simp] theorem respondAny_herr (n : HostWidth) (s : State) : (respondAny n s).herr = s.herr := rfl
@[simp] theorem respondAny_errCode (n : HostWidth) (s : State) : (respondAny n s).errCode = s.errCode := rfl
@[simp] theorem respondAny_errInfo (n : HostWidth) (s : State) : (respondAny n s).errInfo = s.errInfo := rfl
@[simp] theorem respondAny_errVal (n : HostWidth) (s : State) : (respondAny n s).errVal = s.errVal := rfl
@[simp] theorem respondAny_cmdLatch (n : HostWidth) (s : State) : (respondAny n s).cmdLatch = s.cmdLatch := rfl
@[simp] theorem respondAny_arg0 (n : HostWidth) (s : State) : (respondAny n s).arg0 = s.arg0 := rfl
@[simp] theorem respondAny_arg1 (n : HostWidth) (s : State) : (respondAny n s).arg1 = s.arg1 := rfl
@[simp] theorem respondAny_arg2 (n : HostWidth) (s : State) : (respondAny n s).arg2 = s.arg2 := rfl
@[simp] theorem respondAny_arg3 (n : HostWidth) (s : State) : (respondAny n s).arg3 = s.arg3 := rfl
@[simp] theorem respondAny_res0 (n : HostWidth) (s : State) : (respondAny n s).res0 = s.res0 := rfl
@[simp] theorem respondAny_res1 (n : HostWidth) (s : State) : (respondAny n s).res1 = s.res1 := rfl
@[simp] theorem respondAny_res2 (n : HostWidth) (s : State) : (respondAny n s).res2 = s.res2 := rfl
@[simp] theorem respondAny_poly (n : HostWidth) (s : State) : (respondAny n s).poly = s.poly := rfl
@[simp] theorem respondAny_hdr (n : HostWidth) (s : State) : (respondAny n s).hdr = s.hdr := rfl
@[simp] theorem respondAny_dmem (n : HostWidth) (s : State) : (respondAny n s).dmem = s.dmem := rfl
@[simp] theorem respondAny_events (n : HostWidth) (s : State) : (respondAny n s).events = s.events := rfl
@[simp] theorem respondAny_response (n : HostWidth) (s : State) : (respondAny n s).response = some (cutTo n (Config.busyRead s.draws)) := rfl
@[simp] theorem respondAny_draws (n : HostWidth) (s : State) : (respondAny n s).draws = s.draws + 1 := rfl

/-! ## `dropWrite` -/

@[simp] theorem dropWrite_ieDone (s : State) : (dropWrite s).ieDone = s.ieDone := rfl
@[simp] theorem dropWrite_ieErr (s : State) : (dropWrite s).ieErr = s.ieErr := rfl
@[simp] theorem dropWrite_busy (s : State) : (dropWrite s).busy = s.busy := rfl
@[simp] theorem dropWrite_done (s : State) : (dropWrite s).done = s.done := rfl
@[simp] theorem dropWrite_err (s : State) : (dropWrite s).err = s.err := rfl
@[simp] theorem dropWrite_ovr (s : State) : (dropWrite s).ovr = true := rfl
@[simp] theorem dropWrite_herr (s : State) : (dropWrite s).herr = s.herr := rfl
@[simp] theorem dropWrite_errCode (s : State) : (dropWrite s).errCode = s.errCode := rfl
@[simp] theorem dropWrite_errInfo (s : State) : (dropWrite s).errInfo = s.errInfo := rfl
@[simp] theorem dropWrite_errVal (s : State) : (dropWrite s).errVal = s.errVal := rfl
@[simp] theorem dropWrite_cmdLatch (s : State) : (dropWrite s).cmdLatch = s.cmdLatch := rfl
@[simp] theorem dropWrite_arg0 (s : State) : (dropWrite s).arg0 = s.arg0 := rfl
@[simp] theorem dropWrite_arg1 (s : State) : (dropWrite s).arg1 = s.arg1 := rfl
@[simp] theorem dropWrite_arg2 (s : State) : (dropWrite s).arg2 = s.arg2 := rfl
@[simp] theorem dropWrite_arg3 (s : State) : (dropWrite s).arg3 = s.arg3 := rfl
@[simp] theorem dropWrite_res0 (s : State) : (dropWrite s).res0 = s.res0 := rfl
@[simp] theorem dropWrite_res1 (s : State) : (dropWrite s).res1 = s.res1 := rfl
@[simp] theorem dropWrite_res2 (s : State) : (dropWrite s).res2 = s.res2 := rfl
@[simp] theorem dropWrite_poly (s : State) : (dropWrite s).poly = s.poly := rfl
@[simp] theorem dropWrite_hdr (s : State) : (dropWrite s).hdr = s.hdr := rfl
@[simp] theorem dropWrite_dmem (s : State) : (dropWrite s).dmem = s.dmem := rfl
@[simp] theorem dropWrite_events (s : State) : (dropWrite s).events = s.events := rfl
@[simp] theorem dropWrite_response (s : State) : (dropWrite s).response = s.response := rfl
@[simp] theorem dropWrite_draws (s : State) : (dropWrite s).draws = s.draws := rfl

/-! ## `refuseWrite` -/

@[simp] theorem refuseWrite_ieDone (s : State) : (refuseWrite s).ieDone = s.ieDone := rfl
@[simp] theorem refuseWrite_ieErr (s : State) : (refuseWrite s).ieErr = s.ieErr := rfl
@[simp] theorem refuseWrite_busy (s : State) : (refuseWrite s).busy = s.busy := rfl
@[simp] theorem refuseWrite_done (s : State) : (refuseWrite s).done = s.done := rfl
@[simp] theorem refuseWrite_err (s : State) : (refuseWrite s).err = s.err := rfl
@[simp] theorem refuseWrite_ovr (s : State) : (refuseWrite s).ovr = s.ovr := rfl
@[simp] theorem refuseWrite_herr (s : State) : (refuseWrite s).herr = true := rfl
@[simp] theorem refuseWrite_errCode (s : State) : (refuseWrite s).errCode = s.errCode := rfl
@[simp] theorem refuseWrite_errInfo (s : State) : (refuseWrite s).errInfo = s.errInfo := rfl
@[simp] theorem refuseWrite_errVal (s : State) : (refuseWrite s).errVal = s.errVal := rfl
@[simp] theorem refuseWrite_cmdLatch (s : State) : (refuseWrite s).cmdLatch = s.cmdLatch := rfl
@[simp] theorem refuseWrite_arg0 (s : State) : (refuseWrite s).arg0 = s.arg0 := rfl
@[simp] theorem refuseWrite_arg1 (s : State) : (refuseWrite s).arg1 = s.arg1 := rfl
@[simp] theorem refuseWrite_arg2 (s : State) : (refuseWrite s).arg2 = s.arg2 := rfl
@[simp] theorem refuseWrite_arg3 (s : State) : (refuseWrite s).arg3 = s.arg3 := rfl
@[simp] theorem refuseWrite_res0 (s : State) : (refuseWrite s).res0 = s.res0 := rfl
@[simp] theorem refuseWrite_res1 (s : State) : (refuseWrite s).res1 = s.res1 := rfl
@[simp] theorem refuseWrite_res2 (s : State) : (refuseWrite s).res2 = s.res2 := rfl
@[simp] theorem refuseWrite_poly (s : State) : (refuseWrite s).poly = s.poly := rfl
@[simp] theorem refuseWrite_hdr (s : State) : (refuseWrite s).hdr = s.hdr := rfl
@[simp] theorem refuseWrite_dmem (s : State) : (refuseWrite s).dmem = s.dmem := rfl
@[simp] theorem refuseWrite_events (s : State) : (refuseWrite s).events = s.events := rfl
@[simp] theorem refuseWrite_response (s : State) : (refuseWrite s).response = s.response := rfl
@[simp] theorem refuseWrite_draws (s : State) : (refuseWrite s).draws = s.draws := rfl

/-! ## `writeStatus` -/

@[simp] theorem writeStatus_ieDone (v : Word32) (s : State) : (writeStatus v s).ieDone = s.ieDone := rfl
@[simp] theorem writeStatus_ieErr (v : Word32) (s : State) : (writeStatus v s).ieErr = s.ieErr := rfl
@[simp] theorem writeStatus_busy (v : Word32) (s : State) : (writeStatus v s).busy = s.busy := rfl
@[simp] theorem writeStatus_done (v : Word32) (s : State) : (writeStatus v s).done = (s.done && !v.getLsbD 1) := rfl
@[simp] theorem writeStatus_err (v : Word32) (s : State) : (writeStatus v s).err = (s.err && !v.getLsbD 2) := rfl
@[simp] theorem writeStatus_ovr (v : Word32) (s : State) : (writeStatus v s).ovr = (s.ovr && !v.getLsbD 3) := rfl
@[simp] theorem writeStatus_herr (v : Word32) (s : State) : (writeStatus v s).herr = (s.herr && !v.getLsbD 4) := rfl
@[simp] theorem writeStatus_errCode (v : Word32) (s : State) : (writeStatus v s).errCode = s.errCode := rfl
@[simp] theorem writeStatus_errInfo (v : Word32) (s : State) : (writeStatus v s).errInfo = s.errInfo := rfl
@[simp] theorem writeStatus_errVal (v : Word32) (s : State) : (writeStatus v s).errVal = s.errVal := rfl
@[simp] theorem writeStatus_cmdLatch (v : Word32) (s : State) : (writeStatus v s).cmdLatch = s.cmdLatch := rfl
@[simp] theorem writeStatus_arg0 (v : Word32) (s : State) : (writeStatus v s).arg0 = s.arg0 := rfl
@[simp] theorem writeStatus_arg1 (v : Word32) (s : State) : (writeStatus v s).arg1 = s.arg1 := rfl
@[simp] theorem writeStatus_arg2 (v : Word32) (s : State) : (writeStatus v s).arg2 = s.arg2 := rfl
@[simp] theorem writeStatus_arg3 (v : Word32) (s : State) : (writeStatus v s).arg3 = s.arg3 := rfl
@[simp] theorem writeStatus_res0 (v : Word32) (s : State) : (writeStatus v s).res0 = s.res0 := rfl
@[simp] theorem writeStatus_res1 (v : Word32) (s : State) : (writeStatus v s).res1 = s.res1 := rfl
@[simp] theorem writeStatus_res2 (v : Word32) (s : State) : (writeStatus v s).res2 = s.res2 := rfl
@[simp] theorem writeStatus_poly (v : Word32) (s : State) : (writeStatus v s).poly = s.poly := rfl
@[simp] theorem writeStatus_hdr (v : Word32) (s : State) : (writeStatus v s).hdr = s.hdr := rfl
@[simp] theorem writeStatus_dmem (v : Word32) (s : State) : (writeStatus v s).dmem = s.dmem := rfl
@[simp] theorem writeStatus_events (v : Word32) (s : State) : (writeStatus v s).events = s.events := rfl
@[simp] theorem writeStatus_response (v : Word32) (s : State) : (writeStatus v s).response = s.response := rfl
@[simp] theorem writeStatus_draws (v : Word32) (s : State) : (writeStatus v s).draws = s.draws := rfl

/-! ## `setPolynomial` -/

@[simp] theorem setPolynomial_ieDone (p : Config.PolyWord) (s : State) : (setPolynomial p s).ieDone = s.ieDone := rfl
@[simp] theorem setPolynomial_ieErr (p : Config.PolyWord) (s : State) : (setPolynomial p s).ieErr = s.ieErr := rfl
@[simp] theorem setPolynomial_busy (p : Config.PolyWord) (s : State) : (setPolynomial p s).busy = s.busy := rfl
@[simp] theorem setPolynomial_done (p : Config.PolyWord) (s : State) : (setPolynomial p s).done = s.done := rfl
@[simp] theorem setPolynomial_err (p : Config.PolyWord) (s : State) : (setPolynomial p s).err = s.err := rfl
@[simp] theorem setPolynomial_ovr (p : Config.PolyWord) (s : State) : (setPolynomial p s).ovr = s.ovr := rfl
@[simp] theorem setPolynomial_herr (p : Config.PolyWord) (s : State) : (setPolynomial p s).herr = s.herr := rfl
@[simp] theorem setPolynomial_errCode (p : Config.PolyWord) (s : State) : (setPolynomial p s).errCode = s.errCode := rfl
@[simp] theorem setPolynomial_errInfo (p : Config.PolyWord) (s : State) : (setPolynomial p s).errInfo = s.errInfo := rfl
@[simp] theorem setPolynomial_errVal (p : Config.PolyWord) (s : State) : (setPolynomial p s).errVal = s.errVal := rfl
@[simp] theorem setPolynomial_cmdLatch (p : Config.PolyWord) (s : State) : (setPolynomial p s).cmdLatch = s.cmdLatch :=
    rfl
@[simp] theorem setPolynomial_arg0 (p : Config.PolyWord) (s : State) : (setPolynomial p s).arg0 = s.arg0 := rfl
@[simp] theorem setPolynomial_arg1 (p : Config.PolyWord) (s : State) : (setPolynomial p s).arg1 = s.arg1 := rfl
@[simp] theorem setPolynomial_arg2 (p : Config.PolyWord) (s : State) : (setPolynomial p s).arg2 = s.arg2 := rfl
@[simp] theorem setPolynomial_arg3 (p : Config.PolyWord) (s : State) : (setPolynomial p s).arg3 = s.arg3 := rfl
@[simp] theorem setPolynomial_res0 (p : Config.PolyWord) (s : State) : (setPolynomial p s).res0 = BitVec.ofNat 64 (checkLength p) :=
    rfl
@[simp] theorem setPolynomial_res1 (p : Config.PolyWord) (s : State) : (setPolynomial p s).res1 = s.res1 := rfl
@[simp] theorem setPolynomial_res2 (p : Config.PolyWord) (s : State) : (setPolynomial p s).res2 = s.res2 := rfl
@[simp] theorem setPolynomial_poly (p : Config.PolyWord) (s : State) : (setPolynomial p s).poly = p := rfl
@[simp] theorem setPolynomial_hdr (p : Config.PolyWord) (s : State) : (setPolynomial p s).hdr = s.hdr := rfl
@[simp] theorem setPolynomial_dmem (p : Config.PolyWord) (s : State) : (setPolynomial p s).dmem = s.dmem := rfl
@[simp] theorem setPolynomial_events (p : Config.PolyWord) (s : State) : (setPolynomial p s).events = s.events := rfl
@[simp] theorem setPolynomial_response (p : Config.PolyWord) (s : State) : (setPolynomial p s).response = s.response :=
    rfl
@[simp] theorem setPolynomial_draws (p : Config.PolyWord) (s : State) : (setPolynomial p s).draws = s.draws := rfl

/-! ## `genWrites` -/

@[simp] theorem genWrites_ieDone (r : List Word64) (s : State) : (genWrites r s).ieDone = s.ieDone := rfl
@[simp] theorem genWrites_ieErr (r : List Word64) (s : State) : (genWrites r s).ieErr = s.ieErr := rfl
@[simp] theorem genWrites_busy (r : List Word64) (s : State) : (genWrites r s).busy = s.busy := rfl
@[simp] theorem genWrites_done (r : List Word64) (s : State) : (genWrites r s).done = s.done := rfl
@[simp] theorem genWrites_err (r : List Word64) (s : State) : (genWrites r s).err = s.err := rfl
@[simp] theorem genWrites_ovr (r : List Word64) (s : State) : (genWrites r s).ovr = s.ovr := rfl
@[simp] theorem genWrites_herr (r : List Word64) (s : State) : (genWrites r s).herr = s.herr := rfl
@[simp] theorem genWrites_errCode (r : List Word64) (s : State) : (genWrites r s).errCode = s.errCode := rfl
@[simp] theorem genWrites_errInfo (r : List Word64) (s : State) : (genWrites r s).errInfo = s.errInfo := rfl
@[simp] theorem genWrites_errVal (r : List Word64) (s : State) : (genWrites r s).errVal = s.errVal := rfl
@[simp] theorem genWrites_cmdLatch (r : List Word64) (s : State) : (genWrites r s).cmdLatch = s.cmdLatch := rfl
@[simp] theorem genWrites_arg0 (r : List Word64) (s : State) : (genWrites r s).arg0 = s.arg0 := rfl
@[simp] theorem genWrites_arg1 (r : List Word64) (s : State) : (genWrites r s).arg1 = s.arg1 := rfl
@[simp] theorem genWrites_arg2 (r : List Word64) (s : State) : (genWrites r s).arg2 = s.arg2 := rfl
@[simp] theorem genWrites_arg3 (r : List Word64) (s : State) : (genWrites r s).arg3 = s.arg3 := rfl
@[simp] theorem genWrites_res0 (r : List Word64) (s : State) : (genWrites r s).res0 = BitVec.ofNat 64 (pack0 r) := rfl
@[simp] theorem genWrites_res1 (r : List Word64) (s : State) : (genWrites r s).res1 = nonzeroLanes r := rfl
@[simp] theorem genWrites_res2 (r : List Word64) (s : State) : (genWrites r s).res2 = s.res2 := rfl
@[simp] theorem genWrites_poly (r : List Word64) (s : State) : (genWrites r s).poly = s.poly := rfl
@[simp] theorem genWrites_hdr (r : List Word64) (s : State) : (genWrites r s).hdr = s.hdr := rfl
@[simp] theorem genWrites_dmem (r : List Word64) (s : State) : (genWrites r s).dmem = writeArray s.dmem s.arg2.toNat 8 (r.map BitVec.toNat) := rfl
@[simp] theorem genWrites_events (r : List Word64) (s : State) : (genWrites r s).events = s.events := rfl
@[simp] theorem genWrites_response (r : List Word64) (s : State) : (genWrites r s).response = s.response := rfl
@[simp] theorem genWrites_draws (r : List Word64) (s : State) : (genWrites r s).draws = s.draws := rfl

/-! ## `checkWrites` -/

@[simp] theorem checkWrites_ieDone (r : List Word64) (s : State) : (checkWrites r s).ieDone = s.ieDone := rfl
@[simp] theorem checkWrites_ieErr (r : List Word64) (s : State) : (checkWrites r s).ieErr = s.ieErr := rfl
@[simp] theorem checkWrites_busy (r : List Word64) (s : State) : (checkWrites r s).busy = s.busy := rfl
@[simp] theorem checkWrites_done (r : List Word64) (s : State) : (checkWrites r s).done = s.done := rfl
@[simp] theorem checkWrites_err (r : List Word64) (s : State) : (checkWrites r s).err = s.err := rfl
@[simp] theorem checkWrites_ovr (r : List Word64) (s : State) : (checkWrites r s).ovr = s.ovr := rfl
@[simp] theorem checkWrites_herr (r : List Word64) (s : State) : (checkWrites r s).herr = s.herr := rfl
@[simp] theorem checkWrites_errCode (r : List Word64) (s : State) : (checkWrites r s).errCode = s.errCode := rfl
@[simp] theorem checkWrites_errInfo (r : List Word64) (s : State) : (checkWrites r s).errInfo = s.errInfo := rfl
@[simp] theorem checkWrites_errVal (r : List Word64) (s : State) : (checkWrites r s).errVal = s.errVal := rfl
@[simp] theorem checkWrites_cmdLatch (r : List Word64) (s : State) : (checkWrites r s).cmdLatch = s.cmdLatch := rfl
@[simp] theorem checkWrites_arg0 (r : List Word64) (s : State) : (checkWrites r s).arg0 = s.arg0 := rfl
@[simp] theorem checkWrites_arg1 (r : List Word64) (s : State) : (checkWrites r s).arg1 = s.arg1 := rfl
@[simp] theorem checkWrites_arg2 (r : List Word64) (s : State) : (checkWrites r s).arg2 = s.arg2 := rfl
@[simp] theorem checkWrites_arg3 (r : List Word64) (s : State) : (checkWrites r s).arg3 = s.arg3 := rfl
@[simp] theorem checkWrites_res0 (r : List Word64) (s : State) : (checkWrites r s).res0 = flagValue (r.all (· == 0)) := rfl
@[simp] theorem checkWrites_res1 (r : List Word64) (s : State) : (checkWrites r s).res1 = nonzeroLanes r := rfl
@[simp] theorem checkWrites_res2 (r : List Word64) (s : State) : (checkWrites r s).res2 = BitVec.ofNat 64 (pack0 r) := rfl
@[simp] theorem checkWrites_poly (r : List Word64) (s : State) : (checkWrites r s).poly = s.poly := rfl
@[simp] theorem checkWrites_hdr (r : List Word64) (s : State) : (checkWrites r s).hdr = s.hdr := rfl
@[simp] theorem checkWrites_dmem (r : List Word64) (s : State) : (checkWrites r s).dmem = s.dmem := rfl
@[simp] theorem checkWrites_events (r : List Word64) (s : State) : (checkWrites r s).events = s.events := rfl
@[simp] theorem checkWrites_response (r : List Word64) (s : State) : (checkWrites r s).response = s.response := rfl
@[simp] theorem checkWrites_draws (r : List Word64) (s : State) : (checkWrites r s).draws = s.draws := rfl

/-! ## `genrWrites` -/

@[simp] theorem genrWrites_ieDone (r : List Word64) (s : State) : (genrWrites r s).ieDone = s.ieDone := rfl
@[simp] theorem genrWrites_ieErr (r : List Word64) (s : State) : (genrWrites r s).ieErr = s.ieErr := rfl
@[simp] theorem genrWrites_busy (r : List Word64) (s : State) : (genrWrites r s).busy = s.busy := rfl
@[simp] theorem genrWrites_done (r : List Word64) (s : State) : (genrWrites r s).done = s.done := rfl
@[simp] theorem genrWrites_err (r : List Word64) (s : State) : (genrWrites r s).err = s.err := rfl
@[simp] theorem genrWrites_ovr (r : List Word64) (s : State) : (genrWrites r s).ovr = s.ovr := rfl
@[simp] theorem genrWrites_herr (r : List Word64) (s : State) : (genrWrites r s).herr = s.herr := rfl
@[simp] theorem genrWrites_errCode (r : List Word64) (s : State) : (genrWrites r s).errCode = s.errCode := rfl
@[simp] theorem genrWrites_errInfo (r : List Word64) (s : State) : (genrWrites r s).errInfo = s.errInfo := rfl
@[simp] theorem genrWrites_errVal (r : List Word64) (s : State) : (genrWrites r s).errVal = s.errVal := rfl
@[simp] theorem genrWrites_cmdLatch (r : List Word64) (s : State) : (genrWrites r s).cmdLatch = s.cmdLatch := rfl
@[simp] theorem genrWrites_arg0 (r : List Word64) (s : State) : (genrWrites r s).arg0 = s.arg0 := rfl
@[simp] theorem genrWrites_arg1 (r : List Word64) (s : State) : (genrWrites r s).arg1 = s.arg1 := rfl
@[simp] theorem genrWrites_arg2 (r : List Word64) (s : State) : (genrWrites r s).arg2 = s.arg2 := rfl
@[simp] theorem genrWrites_arg3 (r : List Word64) (s : State) : (genrWrites r s).arg3 = s.arg3 := rfl
@[simp] theorem genrWrites_res0 (r : List Word64) (s : State) : (genrWrites r s).res0 = BitVec.ofNat 64 (pack0 r) := rfl
@[simp] theorem genrWrites_res1 (r : List Word64) (s : State) : (genrWrites r s).res1 = nonzeroLanes r := rfl
@[simp] theorem genrWrites_res2 (r : List Word64) (s : State) : (genrWrites r s).res2 = s.res2 := rfl
@[simp] theorem genrWrites_poly (r : List Word64) (s : State) : (genrWrites r s).poly = s.poly := rfl
@[simp] theorem genrWrites_hdr (r : List Word64) (s : State) : (genrWrites r s).hdr = s.hdr := rfl
@[simp] theorem genrWrites_dmem (r : List Word64) (s : State) : (genrWrites r s).dmem = s.dmem := rfl
@[simp] theorem genrWrites_events (r : List Word64) (s : State) : (genrWrites r s).events = s.events := rfl
@[simp] theorem genrWrites_response (r : List Word64) (s : State) : (genrWrites r s).response = s.response := rfl
@[simp] theorem genrWrites_draws (r : List Word64) (s : State) : (genrWrites r s).draws = s.draws := rfl

/-! ## `chkrWrites` -/

@[simp] theorem chkrWrites_ieDone (r : List Word64) (s : State) : (chkrWrites r s).ieDone = s.ieDone := rfl
@[simp] theorem chkrWrites_ieErr (r : List Word64) (s : State) : (chkrWrites r s).ieErr = s.ieErr := rfl
@[simp] theorem chkrWrites_busy (r : List Word64) (s : State) : (chkrWrites r s).busy = s.busy := rfl
@[simp] theorem chkrWrites_done (r : List Word64) (s : State) : (chkrWrites r s).done = s.done := rfl
@[simp] theorem chkrWrites_err (r : List Word64) (s : State) : (chkrWrites r s).err = s.err := rfl
@[simp] theorem chkrWrites_ovr (r : List Word64) (s : State) : (chkrWrites r s).ovr = s.ovr := rfl
@[simp] theorem chkrWrites_herr (r : List Word64) (s : State) : (chkrWrites r s).herr = s.herr := rfl
@[simp] theorem chkrWrites_errCode (r : List Word64) (s : State) : (chkrWrites r s).errCode = s.errCode := rfl
@[simp] theorem chkrWrites_errInfo (r : List Word64) (s : State) : (chkrWrites r s).errInfo = s.errInfo := rfl
@[simp] theorem chkrWrites_errVal (r : List Word64) (s : State) : (chkrWrites r s).errVal = s.errVal := rfl
@[simp] theorem chkrWrites_cmdLatch (r : List Word64) (s : State) : (chkrWrites r s).cmdLatch = s.cmdLatch := rfl
@[simp] theorem chkrWrites_arg0 (r : List Word64) (s : State) : (chkrWrites r s).arg0 = s.arg0 := rfl
@[simp] theorem chkrWrites_arg1 (r : List Word64) (s : State) : (chkrWrites r s).arg1 = s.arg1 := rfl
@[simp] theorem chkrWrites_arg2 (r : List Word64) (s : State) : (chkrWrites r s).arg2 = s.arg2 := rfl
@[simp] theorem chkrWrites_arg3 (r : List Word64) (s : State) : (chkrWrites r s).arg3 = s.arg3 := rfl
@[simp] theorem chkrWrites_res0 (r : List Word64) (s : State) : (chkrWrites r s).res0 = flagValue (pack0 r == 0) := rfl
@[simp] theorem chkrWrites_res1 (r : List Word64) (s : State) : (chkrWrites r s).res1 = nonzeroLanes r := rfl
@[simp] theorem chkrWrites_res2 (r : List Word64) (s : State) : (chkrWrites r s).res2 = BitVec.ofNat 64 (pack0 r) := rfl
@[simp] theorem chkrWrites_poly (r : List Word64) (s : State) : (chkrWrites r s).poly = s.poly := rfl
@[simp] theorem chkrWrites_hdr (r : List Word64) (s : State) : (chkrWrites r s).hdr = s.hdr := rfl
@[simp] theorem chkrWrites_dmem (r : List Word64) (s : State) : (chkrWrites r s).dmem = s.dmem := rfl
@[simp] theorem chkrWrites_events (r : List Word64) (s : State) : (chkrWrites r s).events = s.events := rfl
@[simp] theorem chkrWrites_response (r : List Word64) (s : State) : (chkrWrites r s).response = s.response := rfl
@[simp] theorem chkrWrites_draws (r : List Word64) (s : State) : (chkrWrites r s).draws = s.draws := rfl

/-! ## `softReset` -/

@[simp] theorem softReset_ieDone (s : State) : (softReset s).ieDone = false := rfl
@[simp] theorem softReset_ieErr (s : State) : (softReset s).ieErr = false := rfl
@[simp] theorem softReset_busy (s : State) : (softReset s).busy = false := rfl
@[simp] theorem softReset_done (s : State) : (softReset s).done = false := rfl
@[simp] theorem softReset_err (s : State) : (softReset s).err = false := rfl
@[simp] theorem softReset_ovr (s : State) : (softReset s).ovr = false := rfl
@[simp] theorem softReset_herr (s : State) : (softReset s).herr = false := rfl
@[simp] theorem softReset_errCode (s : State) : (softReset s).errCode = 0 := rfl
@[simp] theorem softReset_errInfo (s : State) : (softReset s).errInfo = 0 := rfl
@[simp] theorem softReset_errVal (s : State) : (softReset s).errVal = 0 := rfl
@[simp] theorem softReset_cmdLatch (s : State) : (softReset s).cmdLatch = 0 := rfl
@[simp] theorem softReset_arg0 (s : State) : (softReset s).arg0 = 0 := rfl
@[simp] theorem softReset_arg1 (s : State) : (softReset s).arg1 = 0 := rfl
@[simp] theorem softReset_arg2 (s : State) : (softReset s).arg2 = 0 := rfl
@[simp] theorem softReset_arg3 (s : State) : (softReset s).arg3 = 0 := rfl
@[simp] theorem softReset_res0 (s : State) : (softReset s).res0 = 0 := rfl
@[simp] theorem softReset_res1 (s : State) : (softReset s).res1 = 0 := rfl
@[simp] theorem softReset_res2 (s : State) : (softReset s).res2 = 0 := rfl
@[simp] theorem softReset_poly (s : State) : (softReset s).poly = Config.polyReset := rfl
@[simp] theorem softReset_hdr (s : State) : (softReset s).hdr = Vector.replicate Config.hdrWords 0 := rfl
@[simp] theorem softReset_dmem (s : State) : (softReset s).dmem = s.dmem := rfl
@[simp] theorem softReset_events (s : State) : (softReset s).events = s.events := rfl
@[simp] theorem softReset_response (s : State) : (softReset s).response = none := rfl
@[simp] theorem softReset_draws (s : State) : (softReset s).draws = s.draws := rfl

end Sys2Proof.Machine
end

