-- ==== Sys2Proof/Laws/Engine.lean ====
section
/-! SUPPORT. The laws of one step: what each event does, and what a host access can do to a running command
(70_reset_and_hazards.md R461, R462). -/

namespace Sys2Proof.Machine

/-! ## Steps -/

theorem engineTurn_busy {s : State} (h : s.busy = true) : engineTurn s = engineStep s := by simp [engineTurn, h]

theorem engineTurn_idle {s : State} (h : s.busy = false) : engineTurn s = .next s := by simp [engineTurn, h]

theorem engineStep_command {s : State} {i : Instr} (h : decode s.cmdLatch = .ok i) : engineStep s = exec i s := by
  simp [engineStep, h]

theorem engineStep_illegal {s : State} {r : IllegalReason} (h : decode s.cmdLatch = .error r) :
    engineStep s = raise s .illegalCmd (BitVec.ofNat 64 r.number) (s.cmdLatch.setWidth 64) := by
  simp [engineStep, h]

theorem step_host {s : State} {x : HostAccess} {es : List Event} (h : s.events = .host x :: es) :
    step s = .next (hostAccess x { s with events := es }) := by simp [step, nextEvent, h]

theorem step_engine {s : State} {es : List Event} (h : s.events = .engine :: es) :
    step s = engineTurn { s with events := es } := by simp [step, nextEvent, h]

theorem step_last {s : State} (h : s.events = []) : step s = engineTurn s := by simp [step, nextEvent, h]

/-! ## A host access while a command runs -/

/-- All that a host access can do while a command runs: reset the machine, or leave the command, its operands and
everything a command writes but `DONE` and `ERR`. -/
theorem hostAccess_busy (x : HostAccess) (s : State) (hb : s.busy = true) :
    (∃ d, x.rel = 8 ∧ x.op = .write d ∧ d.getLsbD 0 = true ∧ hostAccess x s = softReset s) ∨
    (∃ f1 f2 f3 f4 f5 f6 r k, hostAccess x s = { s with
      ieDone := f1, ieErr := f2, done := f3, err := f4, ovr := f5, herr := f6, response := r, draws := k }) := by
  rcases access_cases x with ⟨o, ho, hr⟩ | ⟨a, ha, hr⟩ | ⟨ht, -⟩
  · generalize x.width = n at hr
    generalize x.op = op at hr
    subst hr
    rw [hostAccess_reg ho]
    cases hl : regLegal o n
    · rw [regAccess_illegal hl]
      cases op <;> exact .inr ⟨_, _, _, _, _, _, _, _, rfl⟩
    · cases op with
      | read =>
        rw [regAccess_read hl, regRead]
        split <;> exact .inr ⟨_, _, _, _, _, _, _, _, rfl⟩
      | write d =>
        rw [regAccess_write hl]
        cases hro : readOnly (regAt (o / 8))
        · rcases regWrite_cases hro (halfOf o n) d (noResponse s) with
            e | ⟨e, -⟩ | ⟨v, e1, e2, e⟩ | ⟨v, -, -, e⟩ | ⟨w, -, -, hi, -⟩ | ⟨hi, -⟩
          · exact .inr ⟨_, _, _, _, _, _, _, _, e⟩
          · exact .inr ⟨_, _, _, _, _, _, _, _, e⟩
          · rw [e, writeCtrl]
            by_cases hv : v.getLsbD 0 = true
            · left
              have hslot : ∀ k < 32, regAt k = .ctrl → k = 1 := by decide
              have := hslot _ (by omega) e1
              have h8 : o = 8 := by
                by_contra hne
                cases n <;> simp [regLegal] at hl
                · have h4 : halfOf o .b4 = .high := by
                    simp only [halfOf]
                    rw [if_neg (by simp; omega)]
                  rw [h4] at e2
                  cases e2
                · omega
              subst h8
              refine ⟨d, rfl, rfl, ?_, by rw [if_pos hv]; rfl⟩
              cases n <;> simp [regLegal] at hl <;> simp [halfOf, lowData] at e2 <;> subst e2 <;> simpa using hv
            · rw [if_neg hv]
              exact .inr ⟨_, _, _, _, _, _, _, _, rfl⟩
          · exact .inr ⟨_, _, _, _, _, _, _, _, e⟩
          · simp [hb] at hi
          · simp [hb] at hi
        · rw [regWrite_readOnly hro]
          exact .inr ⟨_, _, _, _, _, _, _, _, rfl⟩
  · rw [hr, hostAccess_dmem ha]
    cases hl : dmemLegal a x.width
    · rw [dmemAccess_illegal hl]
      cases x.op <;> exact .inr ⟨_, _, _, _, _, _, _, _, rfl⟩
    · cases x.op
      · rw [dmemAccess_read hl, if_pos hb]
        exact .inr ⟨_, _, _, _, _, _, _, _, rfl⟩
      · rw [dmemAccess_write hl, if_pos hb]
        exact .inr ⟨_, _, _, _, _, _, _, _, rfl⟩
  · simp only [hostAccess, ht]
    exact .inr ⟨_, _, _, _, _, _, _, _, rfl⟩

end Sys2Proof.Machine
end

