-- ==== Sys2Proof/Laws/Header.lean ====
section
/-! SUPPORT. The laws of header fields (42_header.md R271), of the header CRC (R276) and of the decoded time (R300), and
the legality of this hardware's profile (R274). -/

namespace Sys2Proof.Machine

/-! ## Words -/

@[simp] theorem Header.word_setWord_same (h : Header) (w : Fin Config.hdrWords) (v : Word32) :
    (h.setWord w v).word w = v := by simp [Header.word, Header.setWord]

theorem Header.word_setWord_other (h : Header) {w w' : Fin Config.hdrWords} (v : Word32) (hw : w' ≠ w) :
    (h.setWord w v).word w' = h.word w' := by
  simpa [Header.word, Header.setWord] using Vector.getElem_set_ne _ _ fun e => hw (Fin.ext e.symm)

@[simp] theorem word_readHeader (m : Memory) (a : Nat) (w : Fin Config.hdrWords) :
    (readHeader m a).word w = BitVec.ofNat 32 (memRead m (a + 4 * w.val) 4) := by simp [Header.word, readHeader]

theorem Header.words_eq (h : Header) :
    h.words = [(h.word 0).toNat, (h.word 1).toNat, (h.word 2).toNat, (h.word 3).toNat] := by
  refine List.ext_getElem (by simp [Header.words]) fun i h1 h2 => ?_
  simp only [Header.words, List.getElem_map, Vector.getElem_toList]
  match i, h2 with
  | 0, _ | 1, _ | 2, _ | 3, _ => rfl

theorem Header.ext_words {h h' : Header} (e : ∀ w, h.word w = h'.word w) : h = h' := by
  exact Vector.ext fun i hi => e ⟨i, hi⟩

/-! ## Fields -/

/-- `FREAD` is the field's bits as a number (R271). -/
theorem fread_eq (h : Header) {f : Config.Field} (hf : f.width ≤ 32) :
    fread h f = Safety.bitsAt (h.word f.word) f.off f.width := by
  have hp : 2 ^ f.width - 1 < 2 ^ 32 := by
    have : 2 ^ f.width ≤ 2 ^ 32 := Nat.pow_le_pow_right (by omega) hf
    omega
  rw [fread, BitVec.toNat_and, BitVec.toNat_ofNat, Nat.mod_eq_of_lt hp, Nat.and_two_pow_sub_one_eq_mod,
    BitVec.toNat_ushiftRight, Nat.shiftRight_eq_div_pow, Safety.bitsAt]

theorem fread_lt (h : Header) {f : Config.Field} (hf : f.width ≤ 32) : fread h f < 2 ^ f.width := by
  rw [fread_eq h hf]
  exact Nat.mod_lt _ (Nat.two_pow_pos _)

theorem getLsbD_fieldMask {f : Config.Field} (hf : f.off + f.width ≤ 32) (b : Nat) :
    (fieldMask f).getLsbD b = (decide (f.off ≤ b) && decide (b < f.off + f.width)) := by
  rw [fieldMask, BitVec.getLsbD_shiftLeft, BitVec.getLsbD_ofNat, Nat.testBit_two_pow_sub_one, Bool.eq_iff_iff]
  simp only [Bool.and_eq_true, Bool.not_eq_true', decide_eq_true_eq, decide_eq_false_iff_not]
  omega

/-- Every bit of a header after `FWRITE`: the field's bits are the value's, the others are kept (R271). -/
theorem getLsbD_fwrite (h : Header) {f : Config.Field} (hf : f.off + f.width ≤ 32) {v : Nat} (hv : v < 2 ^ f.width)
    (w : Fin Config.hdrWords) (b : Nat) :
    ((fwrite h f v).word w).getLsbD b =
      if w = f.word ∧ f.off ≤ b ∧ b < f.off + f.width then v.testBit (b - f.off) else (h.word w).getLsbD b := by
  by_cases hw : w = f.word
  · subst hw
    rw [fwrite, Header.word_setWord_same, BitVec.getLsbD_or, BitVec.getLsbD_and, BitVec.getLsbD_not,
      getLsbD_fieldMask hf, BitVec.getLsbD_shiftLeft, BitVec.getLsbD_ofNat]
    by_cases h32 : b < 32
    · by_cases h1 : f.off ≤ b
      · by_cases h2 : b < f.off + f.width
        · have : b - f.off < 32 := by omega
          simp [h1, h2, h32, this]
        · have : v.testBit (b - f.off) = false :=
            Nat.testBit_lt_two_pow (hv.trans_le (Nat.pow_le_pow_right (by omega) (by omega)))
          simp [h1, h2, h32, this]
      · simp [h1, h32, show b < f.off by omega]
    · rw [BitVec.getLsbD_of_ge _ _ (show 32 ≤ b by omega), if_neg (by omega)]
      simp [h32]
  · rw [fwrite, Header.word_setWord_other _ _ hw, if_neg (fun h => hw h.1)]

/-- Reading the field written gives the value (R271). -/
theorem fread_fwrite_same (h : Header) {f : Config.Field} (hf : f.off + f.width ≤ 32) {v : Nat}
    (hv : v < 2 ^ f.width) : fread (fwrite h f v) f = v := by
  rw [fread_eq _ (by omega), Safety.bitsAt]
  refine Nat.eq_of_testBit_eq fun i => ?_
  rw [Nat.testBit_mod_two_pow, Nat.testBit_div_two_pow]
  have := getLsbD_fwrite h hf hv f.word (i + f.off)
  rw [BitVec.getLsbD] at this
  rw [this]
  by_cases hi : i < f.width
  · rw [if_pos (by omega)]
    simp [hi]
  · have : v.testBit i = false :=
      Nat.testBit_lt_two_pow (hv.trans_le (Nat.pow_le_pow_right (by omega) (by omega)))
    simp [hi, this]

/-- A field that shares no bit with the one written keeps its value (R271, R274). -/
theorem fread_fwrite_other (h : Header) {f g : Config.Field} (hf : f.off + f.width ≤ 32)
    (hg : g.off + g.width ≤ 32) {v : Nat} (hv : v < 2 ^ f.width) (hd : disjointFields f g = true) :
    fread (fwrite h f v) g = fread h g := by
  simp only [disjointFields, Bool.or_eq_true, decide_eq_true_eq] at hd
  rw [fread_eq _ (by omega), fread_eq _ (by omega), Safety.bitsAt, Safety.bitsAt]
  refine Nat.eq_of_testBit_eq fun i => ?_
  rw [Nat.testBit_mod_two_pow, Nat.testBit_mod_two_pow, Nat.testBit_div_two_pow, Nat.testBit_div_two_pow]
  by_cases hi : i < g.width
  · have := getLsbD_fwrite h hf hv g.word (i + g.off)
    rw [if_neg (by rintro ⟨h1, h2, h3⟩; rcases hd with (hd | hd) | hd; exact hd h1.symm; all_goals omega)] at this
    simpa [BitVec.getLsbD, hi] using this
  · simp [hi]

/-! ## The header CRC -/

/-- This hardware's profile is legal (R274). -/
theorem profile_legal : profileLegal Config.profile = true := by decide

/-- The protected bits of this hardware's header: word 2, then the top half of word 3 (R276). -/
theorem coverBits_profile (h : Header) :
    coverBits Config.profile h = bitsOf ((h.word 2).setWidth 64) 32 ++ bitsOf ((h.word 3).setWidth 64 >>> 16) 16 := by
  simp [coverBits, Config.profile, Header.word]

/-- The header CRC is as wide as the CRC field (R274, R276). -/
theorem headerCrc_lt (h : Header) : headerCrc Config.profile h < 2 ^ 16 := by
  have := pack0_lt (crcRem Config.profile.hdrPoly (coverBits Config.profile h))
  rw [crcRem_length, show checkLength Config.profile.hdrPoly = 16 by decide] at this
  exact this

/-- The header CRC depends on the protected bits alone, so not on the CRC field (R274, R276). -/
theorem headerCrc_congr {h h' : Header} (e2 : h.word 2 = h'.word 2) (e3 : h.word 3 >>> 16 = h'.word 3 >>> 16) :
    headerCrc Config.profile h = headerCrc Config.profile h' := by
  have key (v : Word32) : v.setWidth 64 >>> 16 = (v >>> 16).setWidth 64 := by
    apply BitVec.eq_of_toNat_eq
    have := v.isLt
    simp only [BitVec.toNat_ushiftRight, BitVec.toNat_setWidth, Nat.shiftRight_eq_div_pow]
    omega
  rw [headerCrc, headerCrc, coverBits_profile, coverBits_profile, e2, key, key, e3]

/-! ## Time -/

/-- All that decoding the time can do (R300). -/
theorem headerTime_cases (p : Config.Profile) (h : Header) :
    (fieldValid h p.jday = false ∧ headerTime p h = .error (4, fread h p.jday)) ∨
    (fieldValid h p.jday = true ∧ fieldValid h p.sec = false ∧ headerTime p h = .error (5, fread h p.sec)) ∨
    (fieldValid h p.jday = true ∧ fieldValid h p.sec = true ∧ fieldValid h p.frac = false ∧
      headerTime p h = .error (6, fread h p.frac)) ∨
    (fieldValid h p.jday = true ∧ fieldValid h p.sec = true ∧ fieldValid h p.frac = true ∧
      headerTime p h = .ok ⟨fieldDecode h p.jday, fieldDecode h p.sec, fieldDecode h p.frac⟩) := by
  cases h1 : fieldValid h p.jday <;> cases h2 : fieldValid h p.sec <;> cases h3 : fieldValid h p.frac <;>
    simp [headerTime, h1, h2, h3]

/-- Reading a BCD field that was written gives the number (R301). -/
theorem writeBcdField_valid (h : Header) {f : Config.Field} (hf : f.off + f.width ≤ 32) (h4 : f.width % 4 = 0)
    {n : Nat} (hn : n < 10 ^ fieldDigits f) :
    fieldValid (writeBcdField h f n) f = true ∧ fieldDecode (writeBcdField h f n) f = n := by
  have hv : bcdEncode n (fieldDigits f) < 2 ^ f.width := by
    have := bcdEncode_lt n (fieldDigits f)
    rwa [show (16 : Nat) = 2 ^ 4 by rfl, ← pow_mul, show 4 * fieldDigits f = f.width by rw [fieldDigits]; omega] at this
  rw [fieldValid, fieldDecode, writeBcdField, fread_fwrite_same _ hf hv]
  refine ⟨(validBcd_iff _ _).2 fun k _ => ?_, bcdDecode_bcdEncode hn⟩
  rw [nibble_bcdEncode]
  split <;> omega

/-! ## The field commands -/

/-- All that a field read can do (R283). -/
theorem readFieldCommand_cases (p : Config.Profile) (fid : BitVec 4) (s : State) :
    (fieldTable p fid.toNat = none ∧ readFieldCommand p fid s = raise s .badField (fid.setWidth 64) 0) ∨
    (∃ f, fieldTable p fid.toNat = some f ∧
      readFieldCommand p fid s = succeed { s with res0 := BitVec.ofNat 64 (fread s.hdr f) }) := by
  cases h : fieldTable p fid.toNat with
  | none => exact .inl ⟨rfl, by simp [readFieldCommand, h]⟩
  | some f => exact .inr ⟨f, rfl, by simp [readFieldCommand, h]⟩

/-- All that a field write can do (R285). -/
theorem writeFieldCommand_cases (p : Config.Profile) (fid : BitVec 4) (s : State) :
    (fieldTable p fid.toNat = none ∧ writeFieldCommand p fid s = raise s .badField (fid.setWidth 64) 0) ∨
    (∃ f, fieldTable p fid.toNat = some f ∧
      ((2 ^ f.width ≤ s.arg0.toNat ∧ writeFieldCommand p fid s = raise s .range (fid.setWidth 64) s.arg0) ∨
        (s.arg0.toNat < 2 ^ f.width ∧ writeFieldCommand p fid s = succeed { s with
          hdr := writeField p f s.arg0.toNat s.hdr
          res0 := BitVec.ofNat 64 (fread (writeField p f s.arg0.toNat s.hdr) p.crc)
          res1 := flagValue (crcCovered p f) }))) := by
  cases h : fieldTable p fid.toNat with
  | none => exact .inl ⟨rfl, by simp [writeFieldCommand, h]⟩
  | some f =>
    refine .inr ⟨f, rfl, ?_⟩
    by_cases hv : 2 ^ f.width ≤ s.arg0.toNat
    · exact .inl ⟨hv, by simp [writeFieldCommand, h, hv]⟩
    · exact .inr ⟨by omega, by simp [writeFieldCommand, h, hv]⟩

/-- The rows of this hardware's field table (R272). -/
theorem fieldTable_profile (fid : BitVec 4) :
    fieldTable Config.profile fid.toNat =
      ((Safety.fieldRows.find? fun r => r.1 == fid.toNat).map fun r => ⟨r.2.1, r.2.2.1, r.2.2.2⟩) := by
  revert fid
  decide

end Sys2Proof.Machine
end

