-- ==== Sys2Proof/Laws/PerInstr.lean ====
section
/-! SUPPORT. Statements about every command as syntax, one lemma per constructor. -/

/-- No two rows of the opcode map match one word (30_encoding.md R145): their opcodes differ. -/
theorem Sys2Proof.Laws.opcodeRows_disjoint :
    Safety.opcodeRows.Pairwise fun r q => r.1 &&& 0xFF ≠ q.1 &&& 0xFF := by decide

namespace Sys2Proof.Laws.EncodeMatches

/-- A command's word matches a row of the opcode map (30_encoding.md R145): every bit the row fixes is as it says. -/
def Statement (i : Instr) : Prop := ∃ r ∈ Safety.opcodeRows, encode i &&& r.2 = r.1

theorem nop : Statement .nop :=
  ⟨(0x00000000, 0xFFFFFFFF), by decide, by decide⟩

theorem bcdDec : Statement .bcdDec :=
  ⟨(0x00000010, 0xFFFFFFFF), by decide, by decide⟩

theorem bcdEnc (d : BitVec 5) : Statement (.bcdEnc d) :=
  ⟨(0x00000011, 0xFFFFE0FF), by decide, by revert d; decide⟩

theorem bcdDeca : Statement .bcdDeca :=
  ⟨(0x00000012, 0xFFFFFFFF), by decide, by decide⟩

theorem bcdEnca (d : BitVec 5) : Statement (.bcdEnca d) :=
  ⟨(0x00000013, 0xFFFFE0FF), by decide, by revert d; decide⟩

theorem crcSetpoly : Statement .crcSetpoly :=
  ⟨(0x00000020, 0xFFFFFFFF), by decide, by decide⟩

theorem crcGen (n : BitVec 7) : Statement (.crcGen n) :=
  ⟨(0x00000021, 0xFFFF80FF), by decide, by revert n; decide +kernel⟩

theorem crcChk (n : BitVec 7) : Statement (.crcChk n) :=
  ⟨(0x00000022, 0xFFFF80FF), by decide, by revert n; decide +kernel⟩

theorem crcGenr (n : BitVec 7) : Statement (.crcGenr n) :=
  ⟨(0x00000023, 0xFFFF80FF), by decide, by revert n; decide +kernel⟩

theorem crcChkr (n : BitVec 7) : Statement (.crcChkr n) :=
  ⟨(0x00000024, 0xFFFF80FF), by decide, by revert n; decide +kernel⟩

theorem hdrLd : Statement .hdrLd :=
  ⟨(0x00000030, 0xFFFFFFFF), by decide, by decide⟩

theorem hdrSt : Statement .hdrSt :=
  ⟨(0x00000031, 0xFFFFFFFF), by decide, by decide⟩

theorem hdrRdf (f : BitVec 4) : Statement (.hdrRdf f) :=
  ⟨(0x00000032, 0xFFFFF0FF), by decide, by revert f; decide⟩

theorem hdrWrf (f : BitVec 4) : Statement (.hdrWrf f) :=
  ⟨(0x00000033, 0xFFFFF0FF), by decide, by revert f; decide⟩

theorem hdrVal : Statement .hdrVal :=
  ⟨(0x00000034, 0xFFFFFFFF), by decide, by decide⟩

theorem hdrCrcupd : Statement .hdrCrcupd :=
  ⟨(0x00000035, 0xFFFFFFFF), by decide, by decide⟩

theorem hdrGett : Statement .hdrGett :=
  ⟨(0x00000036, 0xFFFFFFFF), by decide, by decide⟩

theorem hdrSett : Statement .hdrSett :=
  ⟨(0x00000037, 0xFFFFFFFF), by decide, by decide⟩

theorem hdrEpoch : Statement .hdrEpoch :=
  ⟨(0x00000038, 0xFFFFFFFF), by decide, by decide⟩

theorem hdrSize (k : SizeKind) : Statement (.hdrSize k) :=
  ⟨(0x00000039, 0xFFFFFEFF), by decide, by cases k <;> decide⟩

theorem hdrEq : Statement .hdrEq :=
  ⟨(0x0000003A, 0xFFFFFFFF), by decide, by decide⟩

theorem qDec (b : BitVec 2) (x : Bool) : Statement (.qDec b x) :=
  ⟨(0x00000040, 0xFFFFF8FF), by decide, by revert b x; decide⟩

theorem qEnc (b : BitVec 2) (x : Bool) : Statement (.qEnc b x) :=
  ⟨(0x00000041, 0xFFFFF8FF), by decide, by revert b x; decide⟩

end Sys2Proof.Laws.EncodeMatches
end

