-- ==== Sys2Proof/Laws/Quant.lean ====
section
/-! SUPPORT. The laws of the sample codec (43_quant.md): the geometry check and the two tables. -/

namespace Sys2Proof.Machine

/-! ## Geometry (R336) -/

theorem geoSamples_eq (g : Word64) : geoSamples g = g.toNat % 2 ^ 32 := by
  simp [geoSamples]

theorem geoChannels_eq (g : Word64) : geoChannels g = g.toNat / 2 ^ 32 % 2 ^ 16 := by
  simp [geoChannels, Nat.shiftRight_eq_div_pow]

theorem geoHigh_eq_zero_iff (g : Word64) : g.extractLsb' 48 16 = 0 ↔ g.toNat / 2 ^ 48 = 0 := by
  have := g.isLt
  constructor
  · intro h
    have := congrArg BitVec.toNat h
    simp [Nat.shiftRight_eq_div_pow] at this
    omega
  · intro h
    apply BitVec.eq_of_toNat_eq
    simp [Nat.shiftRight_eq_div_pow]
    omega

/-- All that the geometry check can do (R336). -/
theorem geometry_cases (g : Word64) (b : Nat) :
    (g.toNat / 2 ^ 48 ≠ 0 ∧ geometry g b = .error 1) ∨
    (g.toNat / 2 ^ 48 = 0 ∧ g.toNat / 2 ^ 32 % 2 ^ 16 = 0 ∧ geometry g b = .error 2) ∨
    (g.toNat / 2 ^ 48 = 0 ∧ g.toNat / 2 ^ 32 % 2 ^ 16 ≠ 0 ∧ Safety.levelsOf g.toNat * b % 8 ≠ 0 ∧
      geometry g b = .error 3) ∨
    (Safety.GeometryOk g.toNat b ∧
      geometry g b = .ok ⟨Safety.levelsOf g.toNat, Safety.levelsOf g.toNat * b / 8, 8 / b⟩) := by
  rw [geometry, geoSamples_eq, geoChannels_eq, Safety.GeometryOk, Safety.levelsOf]
  have h0 := geoHigh_eq_zero_iff g
  by_cases h1 : g.toNat / 2 ^ 48 = 0
  · rw [if_neg (not_not.2 (h0.2 h1))]
    by_cases h2 : g.toNat / 2 ^ 32 % 2 ^ 16 = 0
    · rw [if_pos h2]
      exact .inr (.inl ⟨h1, h2, rfl⟩)
    · rw [if_neg h2]
      by_cases h3 : g.toNat % 2 ^ 32 * (g.toNat / 2 ^ 32 % 2 ^ 16) * b % 8 = 0
      · rw [if_neg (not_not.2 h3)]
        exact .inr (.inr (.inr ⟨⟨h1, h2, h3⟩, rfl⟩))
      · rw [if_pos h3]
        exact .inr (.inr (.inl ⟨h1, h2, h3, rfl⟩))
  · rw [if_pos fun h => h1 (h0.1 h)]
    exact .inl ⟨h1, rfl⟩

/-- A legal geometry fills whole bytes (R336). -/
theorem levels_mul_eq {g b : Nat} (h : Safety.GeometryOk g b) :
    8 * (Safety.levelsOf g * b / 8) = Safety.levelsOf g * b := Nat.mul_div_cancel' (Nat.dvd_of_mod_eq_zero h.2.2)

/-! ## Tables (R331 to R334) -/

/-- Level `i` stands in field `i` from the lowest bits (00_scope.md R13 `BIT_ORDER`). -/
@[simp] theorem levelField_bitOrder (bps i : Nat) : levelField Config.bitOrder bps i = i := rfl

@[simp] theorem fromLowest_bitOrder (cs : List Nat) : fromLowest Config.bitOrder cs = cs := rfl

/-- In either order, packing puts the code of level `i` where the tables look for it (43_quant.md R344, R340). -/
theorem fromLowest_getElem (order : Config.BitOrder) (bps : Nat) (cs : List Nat) (hl : cs.length = 8 / bps) (i : Nat)
    (hi : i < cs.length) (h : levelField order bps i < (fromLowest order cs).length) :
    (fromLowest order cs)[levelField order bps i] = cs[i] := by
  cases order with
  | lsbFirst => rfl
  | msbFirst =>
    simp only [fromLowest, levelField, List.getElem_reverse, hl]
    congr 1
    omega

theorem level4_toNat (c : Nat) (h : c < 4) : (level4 c).toNat = Safety.levelOfCode c := by
  revert c
  decide

/-- Coding a level of the 2-bit alphabet gives its code back (R343, R345). -/
theorem code2_level4 (c : Nat) (h : c < 4) : code2 (level4 c) = c := by
  revert c
  decide +kernel

theorem code1_level (x : Bool) : code1 (if x then levelPlusOne else levelMinusOne) = if x then 1 else 0 := by
  cases x <;> decide

/-! ## Arrays -/

@[simp] theorem decodeLevels_length (m : Memory) (a bps : Nat) (g : Geometry) :
    (decodeLevels m a bps g).length = g.levels := by simp [decodeLevels]

@[simp] theorem encodeLevels_length (m : Memory) (a bps : Nat) (g : Geometry) :
    (encodeLevels m a bps g).length = g.need := by simp [encodeLevels]

theorem decodeLevels_getElem (m : Memory) (a bps : Nat) (g : Geometry) (k : Nat)
    (h : k < (decodeLevels m a bps g).length) :
    (decodeLevels m a bps g)[k] = (lut bps (memByte m (a + k / g.perByte)) (k % g.perByte)).toNat := by
  simp [decodeLevels]

theorem encodeLevels_getElem (m : Memory) (a bps : Nat) (g : Geometry) (j : Nat)
    (h : j < (encodeLevels m a bps g).length) :
    (encodeLevels m a bps g)[j] = packCodes bps ((List.range g.perByte).map fun i =>
      code bps (BitVec.ofNat 32 (memRead m (a + 4 * (j * g.perByte + i)) 4))) := by
  simp [encodeLevels]

theorem code_lt {bps : Nat} (h : bps = 1 ∨ bps = 2) (v : Word32) : code bps v < 2 ^ bps := by
  rcases h with rfl | rfl
  · rw [code, if_pos rfl, code1]
    split <;> decide
  · rw [code, if_neg (by decide), code2]
    (repeat' split) <;> decide

theorem packCodes_lt (bps : Nat) (cs : List Nat) (h : ∀ c ∈ cs, c < 2 ^ bps) :
    packCodes bps cs < 2 ^ (bps * cs.length) := by
  induction cs with
  | nil => simp [packCodes]
  | cons c cs ih =>
    rw [List.forall_mem_cons] at h
    have ih := ih h.2
    have h1 := h.1
    rw [packCodes, List.length_cons, Nat.mul_succ, pow_add]
    generalize 2 ^ (bps * cs.length) = x at ih ⊢
    generalize 2 ^ bps = y at h1 ⊢
    have : (packCodes bps cs + 1) * y ≤ x * y := Nat.mul_le_mul_right _ ih
    linarith [Nat.mul_comm y (packCodes bps cs)]

/-- Field `i` of a packed byte is code `i` (R344). -/
theorem packCodes_field (bps : Nat) (cs : List Nat) (h : ∀ c ∈ cs, c < 2 ^ bps) (i : Nat) (hi : i < cs.length) :
    packCodes bps cs / 2 ^ (bps * i) % 2 ^ bps = cs[i] := by
  induction cs generalizing i with
  | nil => simp at hi
  | cons c cs ih =>
    rw [List.forall_mem_cons] at h
    cases i with
    | zero =>
      rw [packCodes, Nat.mul_zero, pow_zero, Nat.div_one, Nat.add_mul_mod_self_left, Nat.mod_eq_of_lt h.1]
      rfl
    | succ i =>
      rw [packCodes, Nat.mul_succ, Nat.add_comm (bps * i), pow_add, ← Nat.div_div_eq_div_mul,
        Nat.add_mul_div_left _ _ (Nat.two_pow_pos _), Nat.div_eq_of_lt h.1, Nat.zero_add,
        ih h.2 i (by simpa using hi)]
      rfl

end Sys2Proof.Machine
end

