-- ==== Sys2Proof/Tests/Slice0.lean ====
section
/-! SUPPORT. Tests of the model: ill-formed terms, words written out from the spec's encodings, the vectors of
95_test_vectors.md, and for each statement with hypotheses a concrete case that meets them. -/

namespace Sys2Proof.Tests

open Sys2Proof.Machine Sys2Proof.Safety

-- One theorem at a time: each evaluation in the kernel holds a thread.
set_option Elab.async false

/-! ## Helpers -/

/-- What `f` reads in the state an instruction leaves, `none` if it stops. -/
def after {α : Type} (i : Instr) (s : State) (f : State → α) : Option α :=
  match exec i s with
  | .next t => some (f t)
  | _ => none

theorem exists_next {α : Type} {i : Instr} {s : State} {f : State → α} {v : α} (h : after i s f = some v) :
    ∃ t, exec i s = .next t ∧ f t = v := by
  unfold after at h
  split at h
  · rename_i t e
    exact ⟨t, e, Option.some.inj h⟩
  · cases h

/-- The error report of a command: `ERR`, `ERRCODE`, `ERRINFO`, `ERRVAL`. -/
def report (t : State) : Bool × BitVec 8 × Word64 × Word64 := (t.err, t.errCode, t.errInfo, t.errVal)

/-- The results. -/
def results (t : State) : Word64 × Word64 × Word64 := (t.res0, t.res1, t.res2)

/-- The reset state with argument registers. -/
def args (a0 a1 a2 a3 : Word64) : State := { State.reset with arg0 := a0, arg1 := a1, arg2 := a2, arg3 := a3 }

/-- The reset state with a header. -/
def headed (w0 w1 w2 w3 : Word32) : State := { State.reset with hdr := #v[w0, w1, w2, w3] }

/-- A state with an array of `w`-byte values at `a`. -/
def stored (a w : Nat) (vs : List Nat) (s : State) : State := { s with dmem := writeArray s.dmem a w vs }

/-- The reset state with a command pending. -/
def pending (w : Word32) : State := { State.reset with busy := true, cmdLatch := w }

/-! ## Ill-formed commands (30_encoding.md R142) -/

theorem test_wellFormed_lengths :
    (Instr.crcGen 0).wellFormed = false ∧ (Instr.crcChk 65).wellFormed = false ∧
    (Instr.crcGenr 127).wellFormed = false ∧ (Instr.crcChkr 0).wellFormed = false ∧
    (Instr.crcGen 1).wellFormed = true ∧ (Instr.crcGen 64).wellFormed = true := by decide

theorem test_wellFormed_digits :
    (Instr.bcdEnc 0).wellFormed = false ∧ (Instr.bcdEnca 17).wellFormed = false ∧
    (Instr.bcdEnc 1).wellFormed = true ∧ (Instr.bcdEnca 16).wellFormed = true := by decide

theorem test_wellFormed_bps :
    (Instr.qDec 0 false).wellFormed = false ∧ (Instr.qEnc 3 true).wellFormed = false ∧
    (Instr.qDec 1 true).wellFormed = true ∧ (Instr.qEnc 2 false).wellFormed = true := by decide

/-! ## Decoding: words written out from 30_encoding.md R141, R142 and R145 (RSV, MOD, OPC from the top down) -/

theorem test_decode_nop : decode 0b0000000000000000_00000000_00000000 = .ok .nop := by rfl
theorem test_decode_bcdDec : decode 0b0000000000000000_00000000_00010000 = .ok .bcdDec := by rfl
theorem test_decode_bcdEnc : decode 0b0000000000000000_00010000_00010001 = .ok (.bcdEnc 16) := by rfl
theorem test_decode_bcdDeca : decode 0b0000000000000000_00000000_00010010 = .ok .bcdDeca := by rfl
theorem test_decode_bcdEnca : decode 0b0000000000000000_00000101_00010011 = .ok (.bcdEnca 5) := by rfl
theorem test_decode_crcSetpoly : decode 0b0000000000000000_00000000_00100000 = .ok .crcSetpoly := by rfl
theorem test_decode_crcGen : decode 0b0000000000000000_01000000_00100001 = .ok (.crcGen 64) := by rfl
theorem test_decode_crcChk : decode 0b0000000000000000_00000010_00100010 = .ok (.crcChk 2) := by rfl
theorem test_decode_crcGenr : decode 0b0000000000000000_00001110_00100011 = .ok (.crcGenr 14) := by rfl
theorem test_decode_crcChkr : decode 0b0000000000000000_00000001_00100100 = .ok (.crcChkr 1) := by rfl
theorem test_decode_hdrLd : decode 0b0000000000000000_00000000_00110000 = .ok .hdrLd := by rfl
theorem test_decode_hdrSt : decode 0b0000000000000000_00000000_00110001 = .ok .hdrSt := by rfl
theorem test_decode_hdrRdf : decode 0b0000000000000000_00001111_00110010 = .ok (.hdrRdf 15) := by rfl
theorem test_decode_hdrWrf : decode 0b0000000000000000_00000011_00110011 = .ok (.hdrWrf 3) := by rfl
theorem test_decode_hdrVal : decode 0b0000000000000000_00000000_00110100 = .ok .hdrVal := by rfl
theorem test_decode_hdrCrcupd : decode 0b0000000000000000_00000000_00110101 = .ok .hdrCrcupd := by rfl
theorem test_decode_hdrGett : decode 0b0000000000000000_00000000_00110110 = .ok .hdrGett := by rfl
theorem test_decode_hdrSett : decode 0b0000000000000000_00000000_00110111 = .ok .hdrSett := by rfl
theorem test_decode_hdrEpoch : decode 0b0000000000000000_00000000_00111000 = .ok .hdrEpoch := by rfl
theorem test_decode_hdrSize : decode 0b0000000000000000_00000001_00111001 = .ok (.hdrSize .frame) := by rfl
theorem test_decode_hdrSize_payload : decode 0b0000000000000000_00000000_00111001 = .ok (.hdrSize .payload) := by rfl
theorem test_decode_hdrEq : decode 0b0000000000000000_00000000_00111010 = .ok .hdrEq := by rfl
theorem test_decode_qDec : decode 0b0000000000000000_00000110_01000000 = .ok (.qDec 2 true) := by rfl
theorem test_decode_qEnc : decode 0b0000000000000000_00000001_01000001 = .ok (.qEnc 1 false) := by rfl

/-- Vectors X2, X3, B20, CR23, Q13: the reasons of 30_encoding.md R146, in their order. -/
theorem test_decode_illegal :
    decode 0x00000005 = .error .unknownOpcode ∧ decode 0x00010010 = .error .reservedBit ∧
    decode 0x00002011 = .error .reservedBit ∧ decode 0x00008121 = .error .reservedBit ∧
    decode 0x00000840 = .error .reservedBit ∧ decode 0x00001111 = .error .modifierRange ∧
    decode 0x00004121 = .error .modifierRange ∧ decode 0x00000340 = .error .modifierRange ∧
    decode 0x00018005 = .error .unknownOpcode ∧ decode 0x00010021 = .error .reservedBit := by
  refine ⟨?_, ?_, ?_, ?_, ?_, ?_, ?_, ?_, ?_, ?_⟩ <;> rfl

/-- The host's numbering of a table word. -/
theorem test_decodeTableWord : decodeTableWord 32 0x00000E23 = some (.crcGenr 14) ∧ decodeTableWord 32 0x5 = none := by
  constructor <;> rfl

/-! ## Commands: vectors of 95_test_vectors.md -/

/-- X13: a success after a failure clears the report. -/
theorem test_nop : after .nop { State.reset with errCode := 2, errVal := 0xA, err := true, busy := true }
    (fun t => (report t, t.done, t.busy)) = some ((false, 0, 0, 0), true, false) := by decide

/-- B1. -/
theorem test_bcdDec : after .bcdDec (args 0x21367 0 0 0) (·.res0) = some 21367 := by decide +kernel

/-- B6: the lowest bad nibble is reported. -/
theorem test_bcdDec_bad : after .bcdDec (args 0xF1F0 0 0 0) report = some (true, 0x02, 1, 0xF1F0) := by decide +kernel

/-- B7. -/
theorem test_bcdEnc : after (.bcdEnc 5) (args 21367 0 0 0) (·.res0) = some 0x21367 := by decide +kernel

/-- B8. -/
theorem test_bcdEnc_range : after (.bcdEnc 5) (args 100000 0 0 0) report = some (true, 0x09, 5, 100000) := by
  decide +kernel

/-- B19: in place. -/
theorem test_bcdDeca : after .bcdDeca (stored 0x100 8 [0x42, 0x99] (args 0x100 2 0x100 0))
    (fun t => readArray t.dmem 0x100 8 2) = some [42, 99] := by decide +kernel

/-- B13: the first bad element is reported. -/
theorem test_bcdDeca_bad : after .bcdDeca (stored 0x100 8 [0x1234, 0x0999, 0x00A1] (args 0x100 3 0x200 0)) report =
    some (true, 0x02, 2, 0xA1) := by decide +kernel

/-- B14. -/
theorem test_bcdEnca : after (.bcdEnca 5) (stored 0x100 8 [0, 9, 10, 86399] (args 0x100 4 0x200 0))
    (fun t => (t.res0, readArray t.dmem 0x200 8 4)) = some (4, [0x0, 0x9, 0x10, 0x86399]) := by decide +kernel

/-- B18: nothing is written. -/
theorem test_bcdEnca_range : after (.bcdEnca 5) (stored 0x100 8 [5, 123456] (args 0x100 2 0x200 0))
    (fun t => (report t, t.dmem.length)) = some ((true, 0x09, 1, 123456), 16) := by decide +kernel

/-- CR3. -/
theorem test_crcSetpoly : after .crcSetpoly (args 0x8000000000000000 0 0 0) (fun t => (t.res0, t.poly)) =
    some (63, 0x8000000000000000) := by decide +kernel

/-- CR2. -/
theorem test_crcSetpoly_bad : after .crcSetpoly (args 1 0 0 0) (fun t => (report t, t.poly)) =
    some ((true, 0x07, 0, 1), 0x18005) := by decide +kernel

/-- CR11. -/
theorem test_crcGen : after (.crcGen 2) { stored 0 8 [1, 2, 3, 1] (args 0 4 0x400 0) with poly := 0xB }
    (fun t => (results t, readArray t.dmem 0x400 8 3)) = some ((0, 2, 0), [0, 0, 2]) := by decide +kernel

/-- CR22. -/
theorem test_crcGen_address : after (.crcGen 1) (args 0 0 0x404 0) report = some (true, 0x0C, 2, 0x404) := by
  decide +kernel

/-- The 17 elements of CR13. -/
def cr13 : State :=
  { stored 0 8 [1, 1, 0, 1, 0, 0, 1, 1, 1, 0, 1, 1, 0, 0, 1, 0, 0] (args 0 17 0 0) with poly := 0xB }

/-- CR13, and with element 5 set to 1. -/
theorem test_crcChk : after (.crcChk 1) cr13 results = some (1, 0, 0) ∧
    after (.crcChk 1) (stored 40 8 [1] cr13) results = some (0, 1, 6) := by decide +kernel

/-- CR17: the length is checked before the address. -/
theorem test_crcChk_length : after (.crcChk 1) (args 1 15 0 0) report = some (true, 0x08, 16, 15) := by decide +kernel

/-- CR5 and CR8. -/
theorem test_crcGenr : after (.crcGenr 14) { args 0x34EC 0 0 0 with poly := 0xB } results = some (4, 1, 0) ∧
    after (.crcGenr 64) (args 0xFFFFFFFFFFFFFFFF 0 0 0) (·.res0) = some 0x8221 := by decide +kernel

/-- CR15. -/
theorem test_crcChkr : after (.crcChkr 64) (args 0x8242136700001591 0 0 0) results = some (1, 0, 0) ∧
    after (.crcChkr 64) (args 0x8242136800001591 0 0 0) (·.res0) = some 0 := by decide +kernel

/-- CR16. -/
theorem test_crcChkr_length : after (.crcChkr 8) (args 0 0 0 0) report = some (true, 0x08, 16, 8) := by decide +kernel

/-- Header H1 of 95_test_vectors.md. -/
def h1 : State := headed 0xABADDEED 0 0x82421367 0x00001591

/-- The bytes of H1 as H1 lists them. -/
def h1Bytes : List Nat :=
  [0xED, 0xDE, 0xAD, 0xAB, 0x00, 0x00, 0x00, 0x00, 0x67, 0x13, 0x42, 0x82, 0x91, 0x15, 0x00, 0x00]

theorem test_hdrLd : after .hdrLd (stored 0xFFF0 1 h1Bytes (args 0xFFF0 0 0 0)) (·.hdr) = some h1.hdr := by
  decide +kernel

/-- H13. -/
theorem test_hdrLd_address : after .hdrLd (args 0xFFF4 0 0 0) report = some (true, 0x0C, 0, 0xFFF4) := by decide +kernel

theorem test_hdrSt : after .hdrSt h1 (fun t => readArray t.dmem 0 1 16) = some h1Bytes := by decide +kernel

/-- H8. -/
theorem test_hdrRdf : after (.hdrRdf 3) (headed 0xABADDEED 0xF00FFFFF 0x84986399 0x9999BA77) (·.res0) = some 0x7FFF ∧
    after (.hdrRdf 5) (headed 0xABADDEED 0xF00FFFFF 0x84986399 0x9999BA77) (·.res0) = some 0x86399 := by decide +kernel

theorem test_hdrRdf_absent : after (.hdrRdf 8) h1 report = some (true, 0x0A, 8, 0) := by decide +kernel

/-- H15. -/
theorem test_hdrWrf : after (.hdrWrf 6) { h1 with arg0 := 0x1234 } (fun t => (t.hdr.word 3, t.res0, t.res1)) =
    some (0x1234F92A, 0xF92A, 1) := by decide +kernel

/-- H9 and H16. -/
theorem test_hdrWrf_range : after (.hdrWrf 3) { h1 with arg0 := 0x8000 } report = some (true, 0x09, 3, 0x8000) ∧
    after (.hdrWrf 7) { h1 with arg0 := 0xFFFF } (fun t => (t.hdr.word 3, t.res0, t.res1)) =
      some (0x0000FFFF, 0xFFFF, 0) := by decide +kernel

/-- H5. -/
theorem test_hdrVal : after .hdrVal h1 results = some (7, 0x1591, 0x1591) ∧
    after .hdrVal (headed 0xABADDEED 0 0x82421368 0x1591) results = some (5, 0x155D, 0x1591) := by decide +kernel

/-- H14. -/
theorem test_hdrCrcupd : after .hdrCrcupd (headed 0xABADDEED 0 0x82421367 0) (fun t => (t.hdr, t.res0)) =
    some (h1.hdr, 0x1591) := by decide +kernel

/-- H17. -/
theorem test_hdrGett : after .hdrGett (headed 0xABADDEED 0 0x82421367 0x1234F92A) results =
    some (824, 21367, 1234) := by decide +kernel

/-- H18: the day is reported before the seconds. -/
theorem test_hdrGett_bad : after .hdrGett (headed 0xABADDEED 0 0x8A42136A 0x1591) report =
    some (true, 0x02, 4, 0x8A4) := by decide +kernel

/-- H4. -/
theorem test_hdrSett : after .hdrSett { headed 0xABADDEED 0xF00FFFFF 0 0 with arg0 := 58849, arg1 := 86399, arg2 := 9999 }
    (·.hdr) = some #v[0xABADDEED, 0xF00FFFFF, 0x84986399, 0x9999BA77] := by decide +kernel

/-- H20. -/
theorem test_hdrSett_range : after .hdrSett (args 0 86400 10000 0) report = some (true, 0x09, 1, 86400) ∧
    after .hdrSett (args 0 0 10000 0) report = some (true, 0x09, 2, 10000) := by decide +kernel

/-- E4 and E5: a tie, and one tick past it. -/
theorem test_hdrEpoch : after .hdrEpoch { headed 0 0 0x82400000 0 with arg0 := 56324 } (·.res0) = some 55824 ∧
    after .hdrEpoch { headed 0 0 0x82400000 0 with arg0 := 56324, arg2 := 1 } (·.res0) = some 56824 := by
  decide +kernel

/-- E12. -/
theorem test_hdrEpoch_range :
    after .hdrEpoch { headed 0 0 0x99900000 0 with arg0 := 18446744073709551615 } report =
      some (true, 0x09, 0, 999) := by decide +kernel

/-- H11. -/
theorem test_hdrSize : after (.hdrSize .frame) (args 10016 0 0 0) (fun t => (t.res0, t.res1)) = some (10000, 10016) := by
  decide +kernel

theorem test_hdrSize_refused : after (.hdrSize .payload) (args 9996 0 0 0) report = some (true, 0x03, 3, 9996) ∧
    after (.hdrSize .frame) (args 12 0 0 0) report = some (true, 0x03, 2, 12) := by decide +kernel

/-- H12: equal, and after byte 0x04C becomes 0x92. -/
theorem test_hdrEq : after .hdrEq { stored 0x40 1 h1Bytes h1 with arg0 := 0x40 } (·.res0) = some 1 ∧
    after .hdrEq { stored 0x4C 1 [0x92] (stored 0x40 1 h1Bytes h1) with arg0 := 0x40 } (·.res0) = some 0 := by
  decide +kernel

/-- Q3. -/
theorem test_qDec : after (.qDec 2 false) (stored 0x300 1 [0x1B, 0xE4] (args 0x300 2 0x400 0x0000000400000002))
    (fun t => (t.res0, t.res1, readArray t.dmem 0x400 4 8)) = some (8, 2, [0x4054419E, 0xBF800000, 0x3F800000,
      0xC054419E, 0xC054419E, 0x3F800000, 0xBF800000, 0x4054419E]) := by decide +kernel

/-- Q8 (e), and Q12 with the word latched. -/
theorem test_qDec_refused : after (.qDec 2 false) (args 0x300 1 0x400 0x0000000400000002) report =
      some (true, 0x05, 2, 1) ∧
    after (.qDec 2 true) (pending 0x640) report = some (true, 0x04, 2, 0x640) := by decide +kernel

/-- Q5. -/
theorem test_qEnc : after (.qEnc 2 false) (stored 0x300 4 [0x40400000, 0xBF000000, 0x3F000000, 0xC00CCCCD]
      (args 0x300 0 0x400 0x0000000400000001)) (fun t => (t.res0, t.res1, readArray t.dmem 0x400 1 1)) =
    some (4, 1, [0x1B]) := by decide +kernel

/-- Q6: the threshold, infinities, NaNs, zeros. -/
theorem test_qEnc_codes : ([0x00000000, 0x80000000, 0x400A20CF, 0x400A20CE, 0xC00A20CF, 0xC00A20CE, 0x7F800000,
    0xFF800000, 0x7FC00000, 0xFFC00000, 0x00000001].map fun v : Word32 => code2 v) =
      [1, 2, 3, 1, 0, 2, 3, 0, 1, 2, 1] := by decide +kernel

/-! ## Steps and the host port -/

/-- X1 as one step from reset: the placed word runs. -/
theorem test_step_placed : (match step (State.reset.withFetchWord 32 0x00000511) with
    | .next t => (t.done, t.busy, t.cmdLatch)
    | _ => (false, true, 0)) = (true, false, 0x511) := by decide +kernel

/-- X5, X6, X11, X12. -/
theorem test_host_errors :
    (hostAccess (regAccessAt 0x010 .b1 .read) State.reset).response = some 0 ∧
    (hostAccess (regAccessAt 0x010 .b1 .read) State.reset).herr = true ∧
    (hostAccess (regAccessAt 0x000 .b8 (.write 1)) State.reset).herr = true ∧
    (hostAccess (regAccessAt 0x038 .b8 (.write 1)) State.reset).herr = true ∧
    (hostAccess (regAccessAt 0x034 .b4 (.write 0xFFFFFFFF)) State.reset).herr = false ∧
    (hostAccess (regAccessAt 0x034 .b4 (.write 0xFFFFFFFF)) State.reset).busy = false ∧
    (hostAccess (dmemAccessAt 3 .b2 .read) State.reset).herr = true := by decide +kernel

/-- X10. -/
theorem test_host_dmem : (hostAccess (dmemAccessAt 4 .b4 .read)
    (hostAccess (dmemAccessAt 0 .b8 (.write 0x0807060504030201)) State.reset)).response = some 0x08070605 := by
  decide +kernel

/-- X4 and X9. -/
theorem test_host_busy : (hostAccess (regAccessAt 0x030 .b4 (.write 0x5)) (pending 0x121)).ovr = true ∧
    (hostAccess (regAccessAt 0x030 .b4 (.write 0x5)) (pending 0x121)).cmdLatch = 0x121 ∧
    hostAccess (regAccessAt 0x008 .b8 (.write 7)) (pending 0x121) = State.reset := by decide +kernel

/-- X7: the interrupt rises at completion and falls at the W1C. -/
theorem test_interrupt : after .nop { pending 0 with ieDone := true } irq = some true ∧
    irq (hostAccess (regAccessAt 0x010 .b8 (.write 2)) { State.reset with ieDone := true, done := true }) = false := by
  decide +kernel

/-! ## Witnesses: for each statement with hypotheses, a case that meets them all -/

theorem witness_DecodeOfEncode : (Instr.crcGen 64).wellFormed = true := by decide

theorem witness_EncodeOfDecode : decode 0x00004021 = .ok (.crcGen 64) := by rfl

/-- One word for each case of the statement, with the words at the edges of the ranges. -/
theorem witness_IllegalWordIsReported :
    (∀ r ∈ opcodeRows, (pending 0x05).cmdLatch &&& 0xFF ≠ r.1) ∧
    ((0x21, 0xFFFF80FF) ∈ opcodeRows ∧ (pending 0x8121).cmdLatch &&& 0xFF = 0x21 ∧
      (pending 0x8121).cmdLatch &&& 0xFFFF80FF ≠ 0x21) ∧
    ((pending 0x4121).cmdLatch &&& 0xFFFF80FF = 0x21 ∧ ModifierOutOfRange (pending 0x4121).cmdLatch) ∧
    ((pending 0x0021).cmdLatch &&& 0xFFFF80FF = 0x21 ∧ ModifierOutOfRange (pending 0x0021).cmdLatch) ∧
    ((pending 0x4021).cmdLatch &&& 0xFFFF80FF = 0x21 ∧ ¬ ModifierOutOfRange (pending 0x4021).cmdLatch) ∧
    ModifierOutOfRange (pending 0x1111).cmdLatch ∧ ¬ ModifierOutOfRange (pending 0x1011).cmdLatch ∧
    ModifierOutOfRange (pending 0x0340).cmdLatch ∧ ¬ ModifierOutOfRange (pending 0x0240).cmdLatch := by
  unfold ModifierOutOfRange
  refine ⟨by simp [opcodeRows, pending], ?_, ?_, ?_, ?_, ?_, ?_, ?_, ?_⟩ <;> decide

theorem witness_StepRunsDecodedCommand :
    (pending 0x121).busy = true ∧ decode (pending 0x121).cmdLatch = .ok (.crcGen 1) ∧ (pending 0x121).events = [] ∧
    { pending 0x121 with events := [.engine] }.events = .engine :: [] := by
  refine ⟨rfl, rfl, rfl, rfl⟩

theorem witness_StepPerformsHostAccess :
    { State.reset with events := [.host (regAccessAt 0 .b8 .read)] }.events =
      .host (regAccessAt 0 .b8 .read) :: [] ∧
    State.reset.busy = false ∧ State.reset.events = [] ∧
    { State.reset with events := [.engine] }.events = .engine :: [] := by
  refine ⟨rfl, rfl, rfl, rfl⟩

theorem witness_PlacedWordRunsNext : decodeTableWord 32 0x00004021 = some (.crcGen 64) := by rfl

/-- A state of a running command, which is not the reset state. -/
theorem witness_StepKeepsInvariant : Invariant (pending 0) ∧ ∃ t, step (pending 0) = .next t := by
  refine ⟨⟨by decide, by decide, by decide, by decide, by decide, by decide, by decide⟩, ⟨_, rfl⟩⟩

theorem witness_AcceptedCommandRuns : (pending 0x121).busy = true := rfl

/-- Also for the first part of `InterruptFollowsCompletion` and the third part of `HostErrorExactlyOnIllegalAccess`. -/
theorem witness_CommandKeepsHostState : ∃ t, exec .nop State.reset = .next t := ⟨_, rfl⟩

/-- `NOP` is none of the commands the statement excepts; `CRC.SETPOLY` is excepted from the first clause alone. -/
theorem witness_CommandWritesOnlyWhatItNames :
    (∃ t, exec .nop State.reset = .next t) ∧ Instr.nop ≠ .crcSetpoly ∧ Instr.nop ≠ .bcdDeca ∧
    (∀ d, Instr.nop ≠ .bcdEnca d) ∧ (∀ n, Instr.nop ≠ .crcGen n) ∧ Instr.nop ≠ .hdrSt ∧
    (∀ b x, Instr.nop ≠ .qDec b x) ∧ (∀ b x, Instr.nop ≠ .qEnc b x) ∧ Instr.nop ≠ .hdrLd ∧
    (∀ f, Instr.nop ≠ .hdrWrf f) ∧ Instr.nop ≠ .hdrCrcupd ∧ Instr.nop ≠ .hdrSett ∧ (∀ n, Instr.nop ≠ .crcChk n) ∧
    (∀ n, Instr.nop ≠ .crcChkr n) ∧ Instr.nop ≠ .hdrVal ∧ Instr.nop ≠ .hdrGett ∧ Instr.nop ≠ .hdrEpoch ∧
    (∀ n, Instr.nop ≠ .crcGenr n) ∧ (∀ k, Instr.nop ≠ .hdrSize k) := by
  refine ⟨⟨_, rfl⟩, ?_⟩
  simp

/-- The first address past the end, and the last place that fits, for each size of array. -/
theorem witness_MisplacedArrayIsReported :
    (¬ Placed (args 0xFFF8 2 0 0).arg0.toNat (args 0xFFF8 2 0 0).arg1.toNat 8 ∧
      Placed (args 0xFFF0 2 0xFFF8 0).arg0.toNat 2 8 ∧ ¬ Placed (args 0xFFF0 2 0xFFF8 0).arg2.toNat 2 8) ∧
    (HasCheckLength State.reset.poly 16 ∧ 16 ≤ (args 1 16 0 0).arg1.toNat ∧ ¬ Placed (args 1 16 0 0).arg0.toNat 16 8 ∧
      Placed (args 0 16 0xFF88 0).arg0.toNat 16 8 ∧ ¬ Placed (args 0 16 0xFF88 0).arg2.toNat 16 8) ∧
    (¬ Placed (args 0xFFF4 0 0 0).arg0.toNat 4 4 ∧ Placed (args 0xFFF0 0 0 0).arg0.toNat 4 4) ∧
    (GeometryOk 0x0000000400000002 2 ∧ levelsOf 0x0000000400000002 * 2 / 8 ≤ 2 ∧
      ¬ Placed 0xFFFF 2 1 ∧ Placed 0xFFFE 2 1 ∧ ¬ Placed 0x402 8 4 ∧ ¬ Placed 0xFFE4 8 4 ∧ Placed 0xFFE0 8 4) := by
  unfold Placed HasCheckLength GeometryOk
  decide +kernel

theorem witness_HostWindowsAreDecoded :
    (255 < 256 ∧ Config.regBase + 255 = Config.regBase + 255) ∧
    (65535 < 65536 ∧ Config.dmemBase + 65535 = Config.dmemBase + 65535) ∧
    (Config.regBase + 256 ≤ Config.regBase + 256 ∧ Config.regBase + 256 < Config.dmemBase) ∧
    Config.dmemBase + 65536 ≤ Config.dmemBase + 65536 := by
  have : Config.dmemBase = Config.regBase + 65536 := rfl
  omega

/-- An illegal access of each kind, at the last offsets; a legal one on a state where `HERR` is set. -/
theorem witness_HostErrorExactlyOnIllegalAccess :
    IllegalAccess (regAccessAt 0x0FE .b4 .read) ∧ IllegalAccess (regAccessAt 0x0F8 .b8 (.write 0)) ∧
    IllegalAccess (regAccessAt 0x000 .b4 (.write 0)) ∧ IllegalAccess (dmemAccessAt 0xFFFC .b8 .read) ∧
    ¬ IllegalAccess (regAccessAt 0x0F8 .b8 .read) ∧
    (hostAccess (regAccessAt 0x0F8 .b8 .read) { State.reset with herr := true }).herr = true := by
  refine ⟨.inl ⟨0x0FE, by decide, rfl, .inl (by unfold RegShape; decide)⟩,
    .inl ⟨0x0F8, by decide, rfl, .inr ⟨⟨0, rfl⟩, by decide⟩⟩,
    .inl ⟨0x000, by decide, rfl, .inr ⟨⟨0, rfl⟩, by decide⟩⟩,
    .inr ⟨0xFFFC, by decide, rfl, by decide⟩, ?_, by decide +kernel⟩
  rintro (⟨o, -, e, h⟩ | ⟨a, -, e, -⟩)
  · obtain rfl : 0x0F8 = o := Int.ofNat_inj.1 e
    rcases h with h | ⟨⟨d, h⟩, -⟩
    · exact h (.inr ⟨rfl, by decide⟩)
    · cases h
  · simp only [regAccessAt] at e
    omega

/-- A busy engine; the first and last offsets of each clause; a refused write. -/
theorem witness_WritesWhileBusyAreDropped :
    (pending 0x121).busy = true ∧ RegShape 0x040 .b8 ∧ RegShape 0x05C .b4 ∧ RegShape 0x090 .b8 ∧ RegShape 0x0AC .b4 ∧
    RegShape 0x030 .b4 ∧ (0xFFF8 % HostWidth.b8.bytes = 0 ∧ 0xFFF8 + HostWidth.b8.bytes ≤ 65536) ∧
    (HostWidth.b4 = .b4 ∨ HostWidth.b4 = .b8) ∧
    (regAccessAt 0x018 .b8 (.write 1)).op = .write 1 ∧ IllegalAccess (regAccessAt 0x018 .b8 (.write 1)) := by
  refine ⟨rfl, .inr (by decide), .inl (by decide), .inr (by decide), .inl (by decide), .inl (by decide), by decide,
    .inl rfl, rfl, .inl ⟨0x018, by decide, rfl, .inr ⟨⟨1, rfl⟩, by decide⟩⟩⟩

/-- An access for each part: the last slot that has a register, an idle and a busy engine, the check length at reset. -/
theorem witness_ReadsHaveNoSideEffect :
    ((regAccessAt 0x0B8 .b8 .read).op = .read ∧ State.reset.busy = false ∧
      ¬ IllegalAccess (regAccessAt 0x0F8 .b8 .read)) ∧
    ((0x070, 0) ∈ readRows State.reset ∧ (0x010, 1) ∈ readRows (pending 0x121) ∧ (pending 0x121).busy = true ∧
      0x010 ∉ unconstrainedOffsets) ∧
    HasCheckLength State.reset.poly 16 := by
  refine ⟨⟨rfl, rfl, witness_HostErrorExactlyOnIllegalAccess.2.2.2.2.1⟩, by decide +kernel, ?_⟩
  unfold HasCheckLength
  decide +kernel

/-- A word without and a word with `SRST`, of each width; an idle engine. -/
theorem witness_InterruptFollowsCompletion :
    (HostWidth.b4 = .b4 ∨ HostWidth.b4 = .b8) ∧ (HostWidth.b8 = .b4 ∨ HostWidth.b8 = .b8) ∧
    (6 : Word64).getLsbD 0 = false ∧ (7 : Word64).getLsbD 0 = true ∧ State.reset.busy = false := by decide

/-- The first and the last code. -/
theorem witness_CommandCompletesPrecisely :
    (CmdError.illegalCmd, (0x01 : BitVec 8)) ∈ codeRows ∧ (CmdError.address, (0x0C : BitVec 8)) ∈ codeRows := by decide

theorem witness_SoftResetRestoresRegisters :
    (HostWidth.b4 = .b4 ∨ HostWidth.b4 = .b8) ∧ (7 : Word64).getLsbD 0 = true ∧ (pending 0x121).busy = true := by
  decide

theorem witness_CommandWriteIsAccepted : (HostWidth.b8 = .b4 ∨ HostWidth.b8 = .b8) ∧ State.reset.busy = false := by
  decide

/-- The first and the last register of each group. -/
theorem witness_WrittenRegistersReadBack :
    State.reset.busy = false ∧ (∃ r ∈ argRows, r.1 = 0x040) ∧ (∃ r ∈ argRows, r.1 = 0x058) ∧
    (0x090, 0) ∈ headerRows ∧ (0x0A8, 3) ∈ headerRows ∧ (HostWidth.b4 = .b4 ∨ HostWidth.b4 = .b8) ∧
    (2 : Fin 4) ≠ 3 := by
  refine ⟨rfl, ⟨_, .head _, rfl⟩, ⟨_, .tail _ (.tail _ (.tail _ (.head _))), rfl⟩, by decide, by decide, by decide,
    by decide⟩

/-- The last eight bytes written, the last byte read. -/
theorem witness_DmemWidthsMix :
    State.reset.busy = false ∧ 0xFFF8 % HostWidth.b8.bytes = 0 ∧ 0xFFF8 + HostWidth.b8.bytes ≤ 65536 ∧
    0xFFFF % HostWidth.b1.bytes = 0 ∧ 0xFFFF + HostWidth.b1.bytes ≤ 65536 := by decide

/-- Sixteen nines; and bad nibbles at the first and the last place. -/
theorem witness_BcdDecodeResult :
    DigitsOk (args 0x9999999999999999 0 0 0).arg0.toNat 16 ∧
    (0 < 16 ∧ 9 < nibble (args 0xA 0 0 0).arg0.toNat 0 ∧ DigitsOk (args 0xA 0 0 0).arg0.toNat 0) ∧
    (15 < 16 ∧ 9 < nibble (args 0xA000000000000000 0 0 0).arg0.toNat 15 ∧
      DigitsOk (args 0xA000000000000000 0 0 0).arg0.toNat 15) := by
  unfold DigitsOk
  decide +kernel

/-- The largest integer of sixteen digits, and the next one. -/
theorem witness_BcdEncodeResult :
    digitsOk 16 = true ∧ (args 9999999999999999 0 0 0).arg0.toNat < 10 ^ 16 ∧
    10 ^ 16 ≤ (args 10000000000000000 0 0 0).arg0.toNat := by decide +kernel

theorem witness_BcdEncodeDecodeInverse :
    (digitsOk 5 = true ∧ (args 21367 0 0 0).arg0.toNat < 10 ^ 5 ∧
      ∃ t, exec (.bcdEnc 5) (args 21367 0 0 0) = .next t ∧ t.err = false) ∧
    (DigitsOk (args 0x21367 0 0 0).arg0.toNat 16 ∧
      (∀ k, 5 ≤ k → k < 16 → nibble (args 0x21367 0 0 0).arg0.toNat k = 0) ∧
      ∃ t, exec .bcdDec (args 0x21367 0 0 0) = .next t ∧ t.err = false) := by
  refine ⟨⟨by decide, by decide, exists_next (by decide +kernel)⟩, ⟨by unfold DigitsOk; decide +kernel, ?_,
    exists_next (by decide +kernel)⟩⟩
  have : ∀ k < 16, 5 ≤ k → nibble (args 0x21367 0 0 0).arg0.toNat k = 0 := by decide +kernel
  exact fun k h1 h2 => this k h2 h1

/-- B19, with a bad last element (B13) for the second part. -/
theorem witness_BcdArrayDecodeResult :
    (Placed 0x100 2 8 ∧
      ∀ i < 2, DigitsOk (memRead (stored 0x100 8 [0x42, 0x99] (args 0x100 2 0x100 0)).dmem (0x100 + 8 * i) 8) 16) ∧
    (Placed 0x100 3 8 ∧ Placed 0x200 3 8 ∧
      ¬ DigitsOk (memRead (stored 0x100 8 [0x1234, 0x0999, 0xA1] (args 0x100 3 0x200 0)).dmem (0x100 + 8 * 2) 8) 16 ∧
      ∀ j < 2, DigitsOk
        (memRead (stored 0x100 8 [0x1234, 0x0999, 0xA1] (args 0x100 3 0x200 0)).dmem (0x100 + 8 * j) 8) 16) := by
  unfold Placed DigitsOk
  decide +kernel

/-- B14 and B18. -/
theorem witness_BcdArrayEncodeResult :
    digitsOk 5 = true ∧ (Placed 0x100 2 8 ∧ Placed 0x200 2 8 ∧
      ∀ i < 2, memRead (stored 0x100 8 [0, 86399] (args 0x100 2 0x200 0)).dmem (0x100 + 8 * i) 8 < 10 ^ 5) ∧
    (10 ^ 5 ≤ memRead (stored 0x100 8 [5, 123456] (args 0x100 2 0x200 0)).dmem (0x100 + 8 * 1) 8 ∧
      ∀ j < 1, memRead (stored 0x100 8 [5, 123456] (args 0x100 2 0x200 0)).dmem (0x100 + 8 * j) 8 < 10 ^ 5) := by
  unfold Placed
  decide +kernel

/-- The shortest and the longest polynomial, and the largest refused value. -/
theorem witness_SetPolynomialResult :
    HasCheckLength (args 2 0 0 0).arg0 1 ∧ HasCheckLength (args 0x8000000000000000 0 0 0).arg0 63 ∧
    2 ≤ (args 2 0 0 0).arg0.toNat ∧ (args 1 0 0 0).arg0.toNat < 2 := by
  unfold HasCheckLength
  decide +kernel

theorem witness_RegisterRemainderIsPolynomial :
    lengthOk 1 = true ∧ lengthOk 64 = true ∧ HasCheckLength State.reset.poly 16 := by
  unfold HasCheckLength
  decide +kernel

theorem witness_RegisterCheckIsPolynomial :
    lengthOk 16 = true ∧ HasCheckLength State.reset.poly 16 ∧ 16 ≤ (16 : BitVec 7).toNat ∧
    lengthOk 15 = true ∧ (15 : BitVec 7).toNat < 16 := by
  unfold HasCheckLength
  decide +kernel

theorem witness_StreamRemainderIsPolynomial :
    lanesOk 64 = true ∧ HasCheckLength (args 0 4 0xFF80 0).poly 16 ∧ Placed (args 0 4 0xFF80 0).arg0.toNat 4 8 ∧
    Placed (args 0 4 0xFF80 0).arg2.toNat 16 8 := by
  unfold HasCheckLength Placed
  decide +kernel

theorem witness_StreamCheckIsPolynomial :
    lanesOk 1 = true ∧ HasCheckLength (args 0 16 0 0).poly 16 ∧ 16 ≤ (args 0 16 0 0).arg1.toNat ∧
    Placed (args 0 16 0 0).arg0.toNat 16 8 ∧ (args 1 15 0 0).arg1.toNat < 16 := by
  unfold HasCheckLength Placed
  decide +kernel

/-- A message of four elements, its remainder to be stored behind it. -/
def message : State := { stored 0 8 [1, 1, 0, 1] (args 0 4 32 0) with poly := 0xB }

theorem witness_GeneratedStreamPassesCheck :
    lanesOk 1 = true ∧ HasCheckLength message.poly 3 ∧ message.arg0.toNat % 8 = 0 ∧
    message.arg0.toNat + 8 * (message.arg1.toNat + 3) ≤ 65536 ∧
    message.arg2.toNat = message.arg0.toNat + 8 * message.arg1.toNat ∧
    ∃ t, exec (.crcGen 1) message = .next t ∧ t.err = false := by
  unfold HasCheckLength
  refine ⟨by decide, by decide +kernel, by decide, by decide, by decide, exists_next (by decide +kernel)⟩

/-- CR13 and CR14: a polynomial of several set bits, and one of a single set bit. -/
theorem witness_SingleBitErrorIsDetected :
    (lanesOk 1 = true ∧ HasCheckLength cr13.poly 3 ∧ 3 ≤ cr13.arg1.toNat ∧
      Placed cr13.arg0.toNat cr13.arg1.toNat 8 ∧ 16 < cr13.arg1.toNat ∧ 0 < (1 : BitVec 7).toNat ∧
      cr13.poly.toNat ≠ 2 ^ 3 ∧ ∃ t, exec (.crcChk 1) cr13 = .next t ∧ t.res0 = 1) ∧
    (HasCheckLength (0x10 : Word64) 4 ∧ (0x10 : Word64).toNat = 2 ^ 4 ∧ 0 < 5 - 4 ∧
      ∃ t, exec (.crcChk 1) { stored 0 8 [1, 0, 0, 0, 0] (args 0 5 0 0) with poly := 0x10 } = .next t ∧ t.res0 = 1) := by
  unfold HasCheckLength Placed
  refine ⟨⟨by decide, by decide +kernel, by decide +kernel, by decide +kernel, by decide +kernel, by decide,
    by decide +kernel, exists_next (by decide +kernel)⟩, ⟨by decide +kernel, by decide, by decide,
    exists_next (by decide +kernel)⟩⟩

theorem witness_RegisterAndStreamFormsAgree :
    lengthOk 4 = true ∧ HasCheckLength message.poly 3 ∧ message.arg1.toNat = (4 : BitVec 7).toNat ∧
    Placed message.arg0.toNat message.arg1.toNat 8 ∧ Placed message.arg2.toNat 3 8 ∧
    (∀ i < 4, memRead message.dmem (message.arg0.toNat + 8 * i) 8 =
      if (0b1101 : Word64).getLsbD (4 - 1 - i) then 1 else 0) ∧
    (∃ t, exec (.crcGen 1) message = .next t ∧ t.err = false) ∧
    ∃ t, exec (.crcGenr 4) { message with arg0 := 0b1101 } = .next t ∧ t.err = false := by
  unfold HasCheckLength Placed
  refine ⟨by decide, by decide +kernel, by decide, by decide +kernel, by decide +kernel, by decide +kernel,
    exists_next (by decide +kernel), exists_next (by decide +kernel)⟩

theorem witness_AppendedRegisterCrcPasses :
    lengthOk 48 = true ∧ HasCheckLength (args 0x34EC 0 0 0).poly 16 ∧ (48 : BitVec 7).toNat + 16 ≤ 64 ∧
    ∃ t, exec (.crcGenr 48) (args 0x34EC 0 0 0) = .next t ∧ t.err = false := by
  unfold HasCheckLength
  refine ⟨by decide, by decide +kernel, by decide, exists_next (by decide +kernel)⟩

/-- Also for `HeaderStoreResult`: the last place that fits. -/
theorem witness_HeaderLoadResult : Placed (args 0xFFF0 0 0 0).arg0.toNat 4 4 := by
  unfold Placed
  decide

theorem witness_HeaderRoundTrip :
    (∃ t, exec .hdrSt { h1 with arg0 := 0x40 } = .next t ∧
      ∃ u, exec .hdrLd t = .next u ∧ u.err = false) ∧
    ∃ t, exec .hdrLd (stored 0x40 1 h1Bytes (args 0x40 0 0 0)) = .next t ∧
      ∃ u, exec .hdrSt t = .next u ∧ u.err = false := by
  refine ⟨⟨_, rfl, exists_next (f := fun u => u.err) (by decide +kernel)⟩,
    ⟨_, rfl, exists_next (f := fun u => u.err) (by decide +kernel)⟩⟩

/-- H12: equal words, and words of which one differs. -/
theorem witness_HeaderEqualityResult :
    Placed ({ h1 with arg0 := 0x40 } : State).arg0.toNat 4 4 ∧
    (∀ w : Fin 4, memRead (stored 0x40 1 h1Bytes h1).dmem (0x40 + 4 * w.val) 4 = (h1.hdr.word w).toNat) ∧
    (∃ w : Fin 4, memRead (stored 0x4C 1 [0x92] (stored 0x40 1 h1Bytes h1)).dmem (0x40 + 4 * w.val) 4 ≠
      (h1.hdr.word w).toNat) := by
  unfold Placed
  decide +kernel

theorem witness_FieldReadResult :
    ((3, 1, 0, 15) ∈ fieldRows ∧ (3 : BitVec 4).toNat = 3) ∧ 8 ≤ (8 : BitVec 4).toNat := by decide

/-- The largest value that fits a field, and the next. -/
theorem witness_FieldWriteResult :
    ((3, 1, 0, 15) ∈ fieldRows ∧ (3 : BitVec 4).toNat = 3 ∧ (args 0x7FFF 0 0 0).arg0.toNat < 2 ^ 15 ∧
      2 ^ 15 ≤ (args 0x8000 0 0 0).arg0.toNat) ∧ 8 ≤ (8 : BitVec 4).toNat ∧
    ((6, 3, 16, 16) ∈ fieldRows ∧ 4 ≤ 6 ∧ 6 ≤ 6) := by decide +kernel

theorem witness_HeaderCrcAgreesWithEngine :
    (∃ t, exec .hdrVal h1 = .next t ∧ t.err = false) ∧
    ∃ u, exec (.crcChkr 64) { h1 with poly := 0x18005, arg0 := h1.hdr.word 2 ++ h1.hdr.word 3 } = .next u ∧ u.err = false :=
  ⟨exists_next (by decide +kernel), exists_next (by decide +kernel)⟩

/-- The second update of `CrcUpdateResult`. -/
theorem witness_CrcUpdateResult : ∃ t, exec .hdrCrcupd h1 = .next t ∧ ∃ u, exec .hdrCrcupd t = .next u :=
  ⟨_, rfl, _, rfl⟩

/-- A header for each clause: all valid (H17), and the first invalid field each of the three. Also for
`EpochIsNearestCandidate`. -/
theorem witness_GetTimeResult :
    (DigitsOk (bitsAt 0x82421367 20 12) 3 ∧ DigitsOk (bitsAt 0x82421367 0 20) 5 ∧
      DigitsOk (bitsAt 0x1234F92A 16 16) 4) ∧
    ¬ DigitsOk (bitsAt 0x8A42136A 20 12) 3 ∧
    (DigitsOk (bitsAt 0x8242136A 20 12) 3 ∧ ¬ DigitsOk (bitsAt 0x8242136A 0 20) 5) ∧
    ¬ DigitsOk (bitsAt 0x000A1591 16 16) 4 := by
  unfold DigitsOk
  decide +kernel

/-- The last second and tick, and the first refused ones. -/
theorem witness_SetTimeResult :
    ((args 0 86399 9999 0).arg1.toNat < 86400 ∧ (args 0 86399 9999 0).arg2.toNat < 10000) ∧
    86400 ≤ (args 0 86400 10000 0).arg1.toNat ∧
    ((args 0 86399 10000 0).arg1.toNat < 86400 ∧ 10000 ≤ (args 0 86399 10000 0).arg2.toNat) := by decide

/-- The two answers of `EpochIsNearestCandidate`: a day that fits (E11) and one that does not (E12). -/
theorem witness_EpochIsNearestCandidate :
    after .hdrEpoch { headed 0 0 0x61500000 0 with arg0 := 18446744073709551615 } (·.res0) =
      some 18446744073709551615 ∧
    after .hdrEpoch { headed 0 0 0x99900000 0 with arg0 := 18446744073709551615 } (·.errCode) = some 0x09 ∧
    DigitsOk (bitsAt 0x61500000 20 12) 3 ∧ DigitsOk (bitsAt 0x61500000 0 20) 5 ∧ DigitsOk (bitsAt 0 16 16) 4 ∧
    decimal (bitsAt 0x61500000 20 12) 3 + 18446744073709551 * 1000 < 2 ^ 64 ∧
    2 ^ 64 ≤ decimal (bitsAt 0x99900000 20 12) 3 + 18446744073709551 * 1000 := by
  unfold DigitsOk decimal
  decide +kernel

/-- E6: one tick before the midpoint between candidates 55 and 56; and E4, the midpoint itself. -/
theorem witness_EpochIgnoresSmallReferenceChange :
    DigitsOk (bitsAt 0x82400000 20 12) 3 ∧ DigitsOk (bitsAt 0x82400000 0 20) 5 ∧ DigitsOk (bitsAt 0 16 16) 4 ∧
    decimal (bitsAt 0x82400000 20 12) 3 + (55 + 1) * 1000 < 2 ^ 64 ∧
    2 * ((candidate (decimal (bitsAt 0x82400000 20 12) 3) (decimal (bitsAt 0x82400000 0 20) 5)
      (decimal (bitsAt 0 16 16) 4) 55 - (56323 * 864000000 + 86399 * 10000 + 9999 : Nat)).natAbs) <
        1000 * 864000000 ∧
    ((0 : Word64).toNat + 1 < 2 ^ 64 ∧ ((56324 * 864000000 + 0 * 10000 + (0 : Word64).toNat : Nat) : Int) =
      candidate (decimal (bitsAt 0x82400000 20 12) 3) (decimal (bitsAt 0x82400000 0 20) 5)
        (decimal (bitsAt 0 16 16) 4) 55 + 500 * 864000000) := by
  unfold DigitsOk decimal candidate
  decide +kernel

/-- A request for each clause, at the edges of the frame's header. -/
theorem witness_SizeRequestResult :
    (args 10000 0 0 0).arg0.toNat = 10000 ∧ (args 10016 0 0 0).arg0.toNat = 10016 ∧
    (args 10001 0 0 0).arg0.toNat % 4 ≠ 0 ∧
    ((args 10004 0 0 0).arg0.toNat % 4 = 0 ∧ (args 10004 0 0 0).arg0.toNat ≠ 10000) ∧
    (args 15 0 0 0).arg0.toNat < 16 ∧ (16 ≤ (args 17 0 0 0).arg0.toNat ∧ (args 17 0 0 0).arg0.toNat % 4 ≠ 0) ∧
    (16 ≤ (args 16 0 0 0).arg0.toNat ∧ (args 16 0 0 0).arg0.toNat % 4 = 0 ∧
      (args 16 0 0 0).arg0.toNat ≠ 10016) := by decide +kernel

/-- The geometry of Q3 with the arrays at the end of DMEM; also for `SampleEncodeResult`, with the arrays exchanged. -/
theorem witness_SampleDecodeResult :
    ((2 : BitVec 2) = 1 ∨ (2 : BitVec 2) = 2) ∧ GeometryOk (args 0xFFFE 2 0xFFE0 0x400000002).arg3.toNat 2 ∧
    levelsOf (args 0xFFFE 2 0xFFE0 0x400000002).arg3.toNat * 2 / 8 ≤ (args 0xFFFE 2 0xFFE0 0x400000002).arg1.toNat ∧
    Placed (args 0xFFFE 2 0xFFE0 0x400000002).arg0.toNat
      (levelsOf (args 0xFFFE 2 0xFFE0 0x400000002).arg3.toNat * 2 / 8) 1 ∧
    Placed (args 0xFFFE 2 0xFFE0 0x400000002).arg2.toNat (levelsOf (args 0xFFFE 2 0xFFE0 0x400000002).arg3.toNat) 4 := by
  unfold GeometryOk Placed
  decide +kernel

theorem witness_SampleEncodeResult :
    ((1 : BitVec 2) = 1 ∨ (1 : BitVec 2) = 2) ∧ GeometryOk (args 0xFFE0 0 0xFFFF 0x100000008).arg3.toNat 1 ∧
    Placed (args 0xFFE0 0 0xFFFF 0x100000008).arg0.toNat (levelsOf (args 0xFFE0 0 0xFFFF 0x100000008).arg3.toNat) 4 ∧
    Placed (args 0xFFE0 0 0xFFFF 0x100000008).arg2.toNat
      (levelsOf (args 0xFFE0 0 0xFFFF 0x100000008).arg3.toNat * 1 / 8) 1 := by
  unfold GeometryOk Placed
  decide +kernel

/-- The operands of Q8, one for each clause. -/
theorem witness_SampleRequestRefusals :
    (args 0 0 0 0x0001000100000004).arg3.toNat / 2 ^ 48 ≠ 0 ∧
    ((args 0 0 0 5).arg3.toNat / 2 ^ 48 = 0 ∧ (args 0 0 0 5).arg3.toNat / 2 ^ 32 % 2 ^ 16 = 0) ∧
    ((args 0 0 0 0x100000001).arg3.toNat / 2 ^ 48 = 0 ∧ (args 0 0 0 0x100000001).arg3.toNat / 2 ^ 32 % 2 ^ 16 ≠ 0 ∧
      (levelsOf (args 0 0 0 0x100000001).arg3.toNat * 2) % 8 ≠ 0) ∧
    (GeometryOk (args 0 1 0 0x400000002).arg3.toNat 2 ∧
      (args 0 1 0 0x400000002).arg1.toNat < levelsOf (args 0 1 0 0x400000002).arg3.toNat * 2 / 8) := by
  unfold GeometryOk
  decide +kernel

/-- The four levels of the 2-bit alphabet at 0x400, to be packed at 0x500 and unpacked at 0x600 (Q10). -/
def alphabet : State :=
  stored 0x400 4 [0x4054419E, 0xBF800000, 0x3F800000, 0xC054419E] (args 0x400 0 0x500 0x0000000400000001)

theorem witness_SampleRoundTrip :
    ((∀ i < levelsOf alphabet.arg3.toNat, ∃ c < 2 ^ (2 : BitVec 2).toNat,
        memRead alphabet.dmem (alphabet.arg0.toNat + 4 * i) 4 = levelOf 2 c) ∧
      ∃ t, exec (.qEnc 2 false) alphabet = .next t ∧ t.err = false ∧
        ∃ u, exec (.qDec 2 false) { t with arg0 := alphabet.arg2, arg1 := t.res1, arg2 := 0x600 } = .next u ∧
          u.err = false) ∧
    ∃ t, exec (.qDec 2 false) (stored 0x300 1 [0x1B] (args 0x300 1 0x400 0x0000000400000001)) = .next t ∧
      t.err = false ∧ ∃ u, exec (.qEnc 2 false) { t with arg0 := 0x400, arg2 := 0x500 } = .next u ∧ u.err = false := by
  refine ⟨⟨?_, ?_⟩, ?_⟩
  · decide +kernel
  · exact ⟨_, rfl, rfl, exists_next (f := fun u => u.err) (by decide +kernel)⟩
  · exact ⟨_, rfl, rfl, exists_next (f := fun u => u.err) (by decide +kernel)⟩

/-- A sample on the threshold. -/
theorem witness_EncodedLevelIsNearest : ((0x400A20CF : Word32).extractLsb' 23 8).toNat ≠ 255 := by decide

end Sys2Proof.Tests
end

/-! Legal DMEM accesses on an idle engine (20_memory.md R105, R110), and the statement O24 about them. -/

namespace Sys2Proof.Machine

/-! ## Bytes of a written value -/

/-- Byte `i` of a value stored little-endian is its bits from `8 i` up (20_memory.md R102). -/
theorem ofNat_div_pow_eq_extractLsb' {w : Nat} (d : BitVec w) (i : Nat) :
    BitVec.ofNat 8 (d.toNat / 256 ^ i) = d.extractLsb' (8 * i) 8 := by
  rw [BitVec.extractLsb', Nat.shiftRight_eq_div_pow, pow_mul, show 2 ^ 8 = 256 from rfl]

/-- Every byte after a write of a word: little-endian inside the write, as before outside it. -/
theorem memByte_memWrite_toNat {w : Nat} (m : Memory) (a n : Nat) (d : BitVec w) (b : Nat) :
    memByte (memWrite m a n d.toNat) b =
      if a ≤ b ∧ b < a + n then d.extractLsb' (8 * (b - a)) 8 else memByte m b := by
  split
  case isTrue inside =>
    obtain ⟨i, rfl⟩ := Nat.exists_eq_add_of_le inside.1
    rw [memByte_memWrite_inside m _ (by omega), ofNat_div_pow_eq_extractLsb', Nat.add_sub_cancel_left]
  case isFalse outside => exact memByte_memWrite_outside m _ (by omega)

/-! ## Legal accesses on an idle engine -/

/-- A legal access starts inside the DMEM window. -/
theorem lt_of_dmemLegal {a : Nat} {n : HostWidth} (h : dmemLegal a n = true) : a < 65536 := by
  have hend := ((dmemLegal_iff a n).1 h).2
  have := n.bytes_pos
  omega

/-- A legal host write stores the low bytes of its data and changes nothing else (20_memory.md R105). -/
theorem hostAccess_dmem_write {a : Nat} {n : HostWidth} {s : State} (h : dmemLegal a n = true)
    (idle : s.busy = false) (d : Word64) :
    hostAccess (Safety.dmemAccessAt a n (.write d)) s =
      { s with dmem := memWrite s.dmem a n.bytes d.toNat, response := none } := by
  rw [hostAccess_dmem (lt_of_dmemLegal h), dmemAccess_write h, if_neg (by simp [idle])]
  rfl

/-- A legal host read answers the bytes it covers, little-endian (20_memory.md R102, R105). -/
theorem response_hostAccess_dmem_read {a : Nat} {n : HostWidth} {s : State} (h : dmemLegal a n = true)
    (idle : s.busy = false) :
    (hostAccess (Safety.dmemAccessAt a n .read) s).response =
      some (BitVec.ofNat 64 (∑ i ∈ Finset.range n.bytes, (memByte s.dmem (a + i)).toNat * 256 ^ i)) := by
  rw [hostAccess_dmem (lt_of_dmemLegal h), dmemAccess_read h, if_neg (by simp [idle]), respond_response,
    memRead_eq_sum]

/-- Settles O24: the memory after the write is `memWrite`'s, whose every byte is known, and the later read is a sum over
such bytes. -/
theorem dmemWidthsMix : Obligations.DmemWidthsMix := by
  intro s a a' n n' d idle aligned fits aligned' fits'
  have legal : dmemLegal a n = true := (dmemLegal_iff a n).2 ⟨aligned, fits⟩
  have legal' : dmemLegal a' n' = true := (dmemLegal_iff a' n').2 ⟨aligned', fits'⟩
  exact ⟨memWrite s.dmem a n.bytes d.toNat, hostAccess_dmem_write legal idle d,
    memByte_memWrite_toNat s.dmem a n.bytes d, response_hostAccess_dmem_read legal' idle⟩

end Sys2Proof.Machine

/-! Illegal command words (30_encoding.md R146), and the statement O4 about them. -/

namespace Sys2Proof

open Safety

/-! ## A word as its three fields (30_encoding.md R141) -/

theorem append_fields (w : Word32) : (rsvField w ++ modField w) ++ opcField w = w := by
  simp only [rsvField, modField, opcField]
  rw [BitVec.extractLsb'_append_extractLsb'_eq_extractLsb' (by rfl),
    BitVec.extractLsb'_append_extractLsb'_eq_extractLsb' (by rfl)]
  exact BitVec.extractLsb'_eq_self

theorem eq_iff_fields_eq {w v : Word32} :
    w = v ↔ rsvField w = rsvField v ∧ modField w = modField v ∧ opcField w = opcField v := by
  constructor
  case mp => rintro rfl; exact ⟨rfl, rfl, rfl⟩
  case mpr =>
    rintro ⟨hrsv, hmod, hopc⟩
    rw [← append_fields w, ← append_fields v, hrsv, hmod, hopc]

@[simp] theorem rsvField_and (w v : Word32) : rsvField (w &&& v) = rsvField w &&& rsvField v :=
  BitVec.extractLsb'_and

@[simp] theorem modField_and (w v : Word32) : modField (w &&& v) = modField w &&& modField v :=
  BitVec.extractLsb'_and

@[simp] theorem opcField_and (w v : Word32) : opcField (w &&& v) = opcField w &&& opcField v :=
  BitVec.extractLsb'_and

/-- The low byte of a word is how the statements read its opcode. -/
theorem and_0xFF_eq_iff {w v : Word32} (hrsv : rsvField v = 0) (hmod : modField v = 0) :
    w &&& 0xFF = v ↔ opcField w = opcField v := by
  have opc : opcField w &&& opcField 0xFF = opcField w := BitVec.and_allOnes
  rw [eq_iff_fields_eq, rsvField_and, modField_and, opcField_and, opc, hrsv, hmod]
  simp [rsvField, modField]

/-! ## Rows of the opcode map (30_encoding.md R145) -/

/-- A row's match has only an opcode, and its mask covers `RSV` and `OPC` whole. -/
theorem opcodeRows_fields : ∀ r ∈ opcodeRows,
    rsvField r.1 = 0 ∧ modField r.1 = 0 ∧ rsvField r.2 = BitVec.allOnes 16 ∧ opcField r.2 = BitVec.allOnes 8 := by
  intro r row
  have rows : opcodeRows.map (fun r => (rsvField r.1, modField r.1, rsvField r.2, opcField r.2)) =
      opcodeRows.map (fun _ => (0, 0, BitVec.allOnes 16, BitVec.allOnes 8)) := rfl
  simpa only [Prod.mk.injEq] using List.map_inj_left.1 rows r row

theorem and_0xFF_eq_row_iff {r : Word32 × Word32} (row : r ∈ opcodeRows) (w : Word32) :
    w &&& 0xFF = r.1 ↔ opcField w = opcField r.1 := by
  obtain ⟨hrsv, hmod, -, -⟩ := opcodeRows_fields r row
  exact and_0xFF_eq_iff hrsv hmod

/-- A word matches a row when its opcode is the row's and no reserved bit is 1. -/
theorem matches_row_iff {r : Word32 × Word32} (row : r ∈ opcodeRows) (w : Word32) :
    w &&& r.2 = r.1 ↔ rsvField w = 0 ∧ modField w &&& modField r.2 = 0 ∧ opcField w = opcField r.1 := by
  obtain ⟨hrsv, hmod, mrsv, mopc⟩ := opcodeRows_fields r row
  rw [eq_iff_fields_eq, rsvField_and, modField_and, opcField_and, hrsv, hmod, mrsv, mopc, BitVec.and_allOnes,
    BitVec.and_allOnes]

/-- The decoder's map holds each row: the row's mask covers exactly the reserved `MOD` bits. -/
theorem opcodeMap_row {r : Word32 × Word32} (row : r ∈ opcodeRows) (m : BitVec 8) :
    ∃ i, opcodeMap (opcField r.1) m = some (modField r.2, i) := by
  have rows : opcodeRows.map (fun r => (opcodeMap (opcField r.1) m).map Prod.fst) =
      opcodeRows.map (fun r => some (modField r.2)) := rfl
  obtain ⟨⟨reserved, i⟩, named, same⟩ := Option.map_eq_some_iff.1 (List.map_inj_left.1 rows r row)
  exact ⟨i, by rw [named, ← same]⟩

/-- An opcode of no row is not in the decoder's map. -/
theorem opcodeMap_eq_none {opc : BitVec 8} (m : BitVec 8) (h : opc ∉ opcodeRows.map fun r => opcField r.1) :
    opcodeMap opc m = none := by
  unfold opcodeMap
  split
  case h_24 => rfl
  all_goals exact absurd (by decide) h

/-! ## The value constraints (30_encoding.md R142) -/

/-- Format `FD`. -/
theorem digitsOk_iff (d : BitVec 5) : digitsOk d = true ↔ 1 ≤ d.toNat ∧ d.toNat ≤ 16 := by
  rw [digitsOk, Bool.and_eq_true, decide_eq_true_eq, decide_eq_true_eq]

/-- Format `FQ`: the two values of `B` that are legal are all but the two that reason 3 names. -/
theorem bpsOk_iff (b : BitVec 2) : bpsOk b = true ↔ b.toNat ≠ 0 ∧ b.toNat ≠ 3 := by
  revert b
  decide

/-- The low bits of `MOD` are the bits of the word from bit 8 up. -/
theorem extractLsb'_modField (w : Word32) {n : Nat} (h : n ≤ 8) :
    (modField w).extractLsb' 0 n = w.extractLsb' 8 n := by
  ext k hk
  have inside : k < 8 := by omega
  simp [modField, inside]

/-- Reason 3 over the fields the decoder reads: each format's own test of the modifier fails. -/
theorem modifierOutOfRange_iff (w : Word32) :
    ModifierOutOfRange w ↔
      (opcField w ∈ [0x21#8, 0x22#8, 0x23#8, 0x24#8] ∧ ¬ lengthOk (lengthField (modField w))) ∨
      (opcField w ∈ [0x11#8, 0x13#8] ∧ ¬ digitsOk (digitsField (modField w))) ∨
      (opcField w ∈ [0x40#8, 0x41#8] ∧ ¬ bpsOk (bpsField (modField w))) := by
  have length : ¬ lengthOk (lengthField (modField w)) ↔
      (w.extractLsb' 8 7).toNat = 0 ∨ 64 < (w.extractLsb' 8 7).toNat := by
    rw [Machine.lengthOk_iff, lengthField, extractLsb'_modField w (by decide)]
    omega
  have digits : ¬ digitsOk (digitsField (modField w)) ↔
      (w.extractLsb' 8 5).toNat = 0 ∨ 16 < (w.extractLsb' 8 5).toNat := by
    rw [digitsOk_iff, digitsField, extractLsb'_modField w (by decide)]
    omega
  have bps : ¬ bpsOk (bpsField (modField w)) ↔ (w.extractLsb' 8 2).toNat = 0 ∨ (w.extractLsb' 8 2).toNat = 3 := by
    rw [bpsOk_iff, bpsField, extractLsb'_modField w (by decide)]
    omega
  rw [length, digits, bps, ModifierOutOfRange]
  simp only [List.mem_cons, List.not_mem_nil, or_false]
  -- The eight opcodes of formats FL, FD and FQ.
  iterate 8 rw [and_0xFF_eq_iff (by rfl) (by rfl)]
  rfl

/-- The command a word names is well-formed unless reason 3 holds. -/
theorem wellFormed_iff_not_modifierOutOfRange {w : Word32} {reserved : BitVec 8} {i : Instr}
    (named : opcodeMap (opcField w) (modField w) = some (reserved, i)) :
    i.wellFormed = true ↔ ¬ ModifierOutOfRange w := by
  rw [modifierOutOfRange_iff]
  generalize opcField w = opc at named ⊢
  unfold opcodeMap at named
  -- `LANES_MAX` is 64, so format `FL` has one bound for lanes and for message bits.
  have lanes : lanesOk = lengthOk := rfl
  split at named <;> cases named <;> simp [Instr.wellFormed, lanes]

/-! ## What the decoder answers (30_encoding.md R146) -/

theorem decode_of_no_row {w : Word32} (h : ∀ r ∈ opcodeRows, w &&& 0xFF ≠ r.1) :
    decode w = .error .unknownOpcode := by
  have noRow : opcField w ∉ opcodeRows.map fun r => opcField r.1 := by
    intro mem
    obtain ⟨r, row, same⟩ := List.mem_map.1 mem
    exact h r row ((and_0xFF_eq_row_iff row w).2 same.symm)
  have unnamed := opcodeMap_eq_none (modField w) noRow
  simp only [decode, unnamed]

/-- On an opcode of the map, the first of reasons 2 and 3 that holds, else the command. -/
theorem decode_of_row {r : Word32 × Word32} (row : r ∈ opcodeRows) {w : Word32} (opc : w &&& 0xFF = r.1) :
    ∃ i : Instr, (i.wellFormed = true ↔ ¬ ModifierOutOfRange w) ∧
      decode w = if w &&& r.2 ≠ r.1 then .error .reservedBit
        else if i.wellFormed then .ok i else .error .modifierRange := by
  have opc := (and_0xFF_eq_row_iff row w).1 opc
  obtain ⟨i, named⟩ := opcodeMap_row row (modField w)
  rw [← opc] at named
  have reserved : w &&& r.2 ≠ r.1 ↔ rsvField w ≠ 0 ∨ modField w &&& modField r.2 ≠ 0 := by
    rw [ne_eq, matches_row_iff row]
    tauto
  refine ⟨i, wellFormed_iff_not_modifierOutOfRange named, ?_⟩
  simp only [decode, named, reserved]

/-! ## The engine's step on the word -/

/-- Settles O4: a word of no row is not in the decoder's map; on a row, the decoder's two tests are the row's mask and
the value constraint. -/
theorem illegalWordIsReported : Obligations.IllegalWordIsReported := by
  intro s
  refine ⟨fun noRow => Machine.engineStep_illegal (decode_of_no_row noRow), fun r row opc => ?_⟩
  obtain ⟨i, wf, decoded⟩ := decode_of_row row opc
  refine ⟨fun reservedBit => ?_, fun rowMatch => ⟨fun outOfRange => ?_, fun inRange => ⟨i, ?_⟩⟩⟩
  · exact Machine.engineStep_illegal (decoded.trans (if_pos reservedBit))
  · have illFormed : ¬ i.wellFormed = true := fun ok => wf.1 ok outOfRange
    exact Machine.engineStep_illegal (by rw [decoded, if_neg (not_not.2 rowMatch), if_neg illFormed])
  · rw [decoded, if_neg (not_not.2 rowMatch), if_pos (wf.2 inRange)]

end Sys2Proof

/-! The BCD commands on valid operands (40_bcd.md R201, R203), and the statement O28 that they are inverse. -/

namespace Sys2Proof.Machine

open Safety

/-! ## Registers that hold digits -/

/-- A value whose nibbles from `d` up are 0 has at most `d` digits. -/
theorem lt_of_high_zero {v d e : Nat} (hde : d ≤ e) (hv : v < 16 ^ e)
    (h : ∀ k, d ≤ k → k < e → nibble v k = 0) : v < 16 ^ d := by
  induction e, hde using Nat.le_induction with
  | base => exact hv
  | succ e hde ih =>
    have top : v / 16 ^ e % 16 = 0 := h e hde e.lt_succ_self
    have small : v / 16 ^ e < 16 := Nat.div_lt_of_lt_mul (by rwa [← pow_succ])
    rw [Nat.mod_eq_of_lt small, Nat.div_eq_zero_iff_lt (by positivity)] at top
    exact ih top fun k hdk hke => h k hdk (by omega)

/-- An encoding's nibbles are decimal digits. -/
theorem digitsOk_bcdEncode (n d e : Nat) : DigitsOk (bcdEncode n d) e := by
  intro k _
  rw [nibble, nibble_bcdEncode]
  split <;> omega

/-- Decoding more nibbles than were encoded changes nothing: those from `d` up are 0. -/
theorem bcdDecode_bcdEncode_of_le {n d e : Nat} (hde : d ≤ e) (h : n < 10 ^ d) :
    bcdDecode (bcdEncode n d) e = n := by
  rw [bcdDecode_of_high_zero hde, bcdDecode_bcdEncode h]
  intro k hdk _
  rw [nibble_bcdEncode, if_neg (by omega)]

/-- A sixteen digit number fits the register it is decoded to. -/
theorem toNat_ofNat_bcdDecode {v : Nat} (h : DigitsOk v 16) :
    (BitVec.ofNat 64 (bcdDecode v 16)).toNat = bcdDecode v 16 :=
  (BitVec.toNat_ofNat _ _).trans (Nat.mod_eq_of_lt ((bcdDecode_lt h).trans (by norm_num)))

/-- Sixteen nibbles fit the register they are encoded to. -/
theorem toNat_ofNat_bcdEncode (n : Nat) {d : Nat} (h : d ≤ 16) :
    (BitVec.ofNat 64 (bcdEncode n d)).toNat = bcdEncode n d :=
  (BitVec.toNat_ofNat _ _).trans
    (Nat.mod_eq_of_lt ((bcdEncode_lt n d).trans_le (Nat.pow_le_pow_right (by norm_num) h)))

/-! ## The commands on operands they accept -/

theorem exec_bcdDec_of_digitsOk (s : State) (h : DigitsOk s.arg0.toNat 16) :
    ∃ r : Word64, r.toNat = bcdDecode s.arg0.toNat 16 ∧ exec .bcdDec s = .next (completed { s with res0 := r }) := by
  have noBad : firstBadNibble s.arg0.toNat 16 = none := (firstBadNibble_eq_none_iff _ _).2 h
  refine ⟨_, toNat_ofNat_bcdDecode h, ?_⟩
  simp only [exec, execBcdDec, noBad, succeed]

theorem exec_bcdEnc_of_lt {d : BitVec 5} (s : State) (hd : digitsOk d = true) (h : s.arg0.toNat < 10 ^ d.toNat) :
    ∃ r : Word64, r.toNat = bcdEncode s.arg0.toNat d.toNat ∧
      exec (.bcdEnc d) s = .next (completed { s with res0 := r }) := by
  refine ⟨_, toNat_ofNat_bcdEncode s.arg0.toNat ((digitsOk_iff d).1 hd).2, ?_⟩
  simp only [exec, execBcdEnc, if_neg (Nat.not_le.2 h), succeed]

/-! ## The inverse laws (40_bcd.md R209) -/

/-- Settles O28: each command accepts what the other gave, and their functions are inverse on digits. -/
theorem bcdEncodeDecodeInverse : Obligations.BcdEncodeDecodeInverse := by
  constructor
  case left =>
    intro d s t hd fits run
    obtain ⟨bcd, encoded, ran⟩ := exec_bcdEnc_of_lt s hd fits
    obtain rfl := Host.Outcome.next.inj (ran.symm.trans run)
    have valid : DigitsOk bcd.toNat 16 := encoded ▸ digitsOk_bcdEncode s.arg0.toNat d.toNat 16
    obtain ⟨n, decoded, ran'⟩ :=
      exec_bcdDec_of_digitsOk { completed { s with res0 := bcd } with arg0 := bcd } valid
    refine ⟨_, ran', rfl, BitVec.eq_of_toNat_eq ?_⟩
    calc n.toNat = bcdDecode (bcdEncode s.arg0.toNat d.toNat) 16 := by rw [decoded, ← encoded]
      _ = s.arg0.toNat := bcdDecode_bcdEncode_of_le ((digitsOk_iff d).1 hd).2 fits
  case right =>
    intro d s t hd valid high run
    have hd16 := ((digitsOk_iff d).1 hd).2
    have validD : DigitsOk s.arg0.toNat d.toNat := fun k hk => valid k (by omega)
    have sameDecoding := bcdDecode_of_high_zero hd16 high
    obtain ⟨n, decoded, ran⟩ := exec_bcdDec_of_digitsOk s valid
    obtain rfl := Host.Outcome.next.inj (ran.symm.trans run)
    have fits : n.toNat < 10 ^ d.toNat := by
      rw [decoded, sameDecoding]
      exact bcdDecode_lt validD
    obtain ⟨bcd, encoded, ran'⟩ :=
      exec_bcdEnc_of_lt { completed { s with res0 := n } with arg0 := n } hd fits
    refine ⟨_, ran', rfl, BitVec.eq_of_toNat_eq ?_⟩
    calc bcd.toNat = bcdEncode (bcdDecode s.arg0.toNat d.toNat) d.toNat := by
          rw [encoded, ← sameDecoding, ← decoded]
      _ = s.arg0.toNat := bcdEncode_bcdDecode (lt_of_high_zero hd16 s.arg0.isLt high) validD

end Sys2Proof.Machine

/-! The streams of the CRC engine as lists: arrays in DMEM, registers, and the lanes of their elements (41_crc.md R233,
R240, R245), and the statement O36 that each lane is divided on its own. -/

namespace Sys2Proof.Machine

/-! ## Arrays one behind the other (20_memory.md R103) -/

theorem readArray_append (m : Memory) (a w n k : Nat) :
    readArray m a w (n + k) = readArray m a w n ++ readArray m (a + w * n) w k := by
  simp only [readArray_eq_map, List.range_add, List.map_append, List.map_map]
  congr 1
  refine List.map_congr_left fun i _ => ?_
  simp only [Function.comp_apply, Nat.mul_add, Nat.add_assoc]

/-- The array just stored reads back, for values that fit their width. -/
theorem readArray_writeArray_same (m : Memory) (a w : Nat) (vs : List Nat) (fits : ∀ v ∈ vs, v < 256 ^ w) :
    readArray (writeArray m a w vs) a w vs.length = vs := by
  rw [readArray_eq_map]
  refine List.ext_getElem (by simp) fun i _ hi => ?_
  rw [List.getElem_map, List.getElem_range, memRead_writeArray_of_lt _ _ _ _ _ hi (fits _ (List.getElem_mem hi))]

/-- An array that ends where a store begins reads as before it. -/
theorem readArray_writeArray_before (m : Memory) {a b w n : Nat} (vs : List Nat) (h : b + w * n ≤ a) :
    readArray (writeArray m a w vs) b w n = readArray m b w n := by
  simp only [readArray_eq_map]
  refine List.map_congr_left fun i hi => memRead_writeArray_before _ _ ?_
  have last : w * (i + 1) ≤ w * n := Nat.mul_le_mul_left w (List.mem_range.1 hi)
  rw [Nat.mul_succ] at last
  omega

/-! ## Streams in DMEM (41_crc.md R240) -/

theorem readStream_getElem (m : Memory) (a n l i : Nat) (h : i < (readStream m a n l).length) :
    (readStream m a n l)[i] = BitVec.ofNat 64 (memRead m (a + 8 * i) 8) &&& laneMask l := by
  simp [readStream, readArray_eq_map]

theorem readStream_append (m : Memory) (a n k l : Nat) :
    readStream m a (n + k) l = readStream m a n l ++ readStream m (a + 8 * n) k l := by
  rw [readStream, readArray_append, List.map_append]
  rfl

theorem readStream_writeArray_before (m : Memory) {a b n : Nat} (l : Nat) (vs : List Nat) (h : b + 8 * n ≤ a) :
    readStream (writeArray m a 8 vs) b n l = readStream m b n l := by
  rw [readStream, readArray_writeArray_before m vs h, readStream]

/-- A stored list of elements reads back as its lanes below `L`. -/
theorem readStream_writeArray_same (m : Memory) (a l : Nat) (r : List Word64) :
    readStream (writeArray m a 8 (r.map BitVec.toNat)) a r.length l = r.map (· &&& laneMask l) := by
  have fits : ∀ v ∈ r.map BitVec.toNat, v < 256 ^ 8 := by
    rintro v hv
    obtain ⟨e, -, rfl⟩ := List.mem_map.1 hv
    exact e.isLt
  have same := readArray_writeArray_same m a 8 _ fits
  rw [List.length_map] at same
  rw [readStream, same, List.map_map]
  exact List.map_congr_left fun e _ => by simp

/-- Writing element `i` of a stream's array changes that element alone. -/
theorem readStream_memWrite_element (m : Memory) (a n i l v : Nat) :
    readStream (memWrite m (a + 8 * i) 8 v) a n l =
      (readStream m a n l).set i (BitVec.ofNat 64 v &&& laneMask l) := by
  refine List.ext_getElem (by simp) fun k hk _ => ?_
  rw [readStream_getElem, List.getElem_set]
  split
  case isTrue here =>
    subst here
    have cut : BitVec.ofNat 64 (v % 256 ^ 8) = BitVec.ofNat 64 v := BitVec.eq_of_toNat_eq (by simp)
    rw [memRead_memWrite_same, cut]
  case isFalse elsewhere => rw [readStream_getElem, memRead_memWrite_outside _ _ (by omega)]

/-- Elements that are the bits of a register, from bit `m-1` down, are the register's stream (R247). -/
theorem readStream_eq_bitsOf {m : Memory} {a n : Nat} {v : Word64}
    (bits : ∀ i < n, memRead m (a + 8 * i) 8 = if v.getLsbD (n - 1 - i) then 1 else 0) :
    readStream m a n 1 = bitsOf v n := by
  refine List.ext_getElem (by simp) fun i hi _ => ?_
  rw [readStream_length] at hi
  rw [readStream_getElem, bitsOf_getElem, bits i hi]
  split <;> rfl

/-! ## Lanes (41_crc.md R233, R237) -/

theorem xor_and_laneMask (a b : Word64) (l : Nat) :
    (a ^^^ b) &&& laneMask l = (a &&& laneMask l) ^^^ (b &&& laneMask l) :=
  BitVec.eq_of_toNat_eq (by simp only [BitVec.toNat_and, BitVec.toNat_xor, Nat.and_xor_distrib_right])

theorem twoPow_and_laneMask {j l : Nat} (hj : j < l) (hl : l ≤ 64) :
    BitVec.twoPow 64 j &&& laneMask l = BitVec.twoPow 64 j := by
  refine BitVec.eq_of_getLsbD_eq fun k _ => ?_
  rw [BitVec.getLsbD_and, getLsbD_laneMask l k hl, BitVec.getLsbD_twoPow]
  by_cases hk : j = k
  · subst hk
    simp [hj]
  · simp [hk]

/-- Flipping bit `j` of element `i` in DMEM flips lane `j` of that element of the stream (R242). -/
theorem readStream_of_flip {m m' : Memory} {a n i j l : Nat}
    (flipped : m' = memWrite m (a + 8 * i) 8 (memRead m (a + 8 * i) 8 ^^^ 2 ^ j))
    (hi : i < (readStream m a n l).length) (hj : j < l) (hl : l ≤ 64) :
    readStream m' a n l = (readStream m a n l).set i ((readStream m a n l)[i] ^^^ BitVec.twoPow 64 j) := by
  have power : BitVec.ofNat 64 (2 ^ j) = BitVec.twoPow 64 j := BitVec.eq_of_toNat_eq (by simp)
  rw [flipped, readStream_memWrite_element, readStream_getElem, BitVec.ofNat_xor, xor_and_laneMask, power,
    twoPow_and_laneMask hj hl]

/-- A stream of `L` lanes has no bit above them, nor has its remainder. -/
theorem crcRem_readStream_and_laneMask (p : Word64) (m : Memory) (a n l : Nat) :
    (crcRem p (readStream m a n l)).map (· &&& laneMask l) = crcRem p (readStream m a n l) := by
  have masked : (readStream m a n l).map (· &&& laneMask l) = readStream m a n l := by
    rw [readStream, List.map_map]
    exact List.map_congr_left fun e _ => by rw [Function.comp_apply, BitVec.and_assoc, BitVec.and_self]
  rw [crcRem_map _ fun a b => xor_and_laneMask a b l, masked]

/-- Element by element, lane `l` of an XOR is the XOR of the lanes. -/
theorem lane_xor (l : Nat) (a b : Word64) :
    (if (a ^^^ b).getLsbD l then 1 else 0 : Word64) =
      (if a.getLsbD l then 1 else 0) ^^^ (if b.getLsbD l then 1 else 0) := by
  rw [BitVec.getLsbD_xor]
  cases a.getLsbD l <;> cases b.getLsbD l <;> rfl

/-- Settles O36: the division only XORs elements, and taking a lane commutes with XOR. -/
theorem lanesAreIndependent : Obligations.LanesAreIndependent := by
  intro p s l
  exact ⟨crcRem_map _ (lane_xor l) p s, crcDiv_map _ (lane_xor l) p s⟩

/-! ## Streams in a register (41_crc.md R245) -/

/-- A stream of bits depends on the register's `m` low bits alone. -/
theorem bitsOf_congr {v w : Word64} {m : Nat} (h : ∀ k < m, v.getLsbD k = w.getLsbD k) : bitsOf v m = bitsOf w m := by
  refine List.ext_getElem (by simp) fun i hi _ => ?_
  rw [bitsOf_length] at hi
  rw [bitsOf_getElem, bitsOf_getElem, h _ (by omega)]

/-- The high bits come first. -/
theorem bitsOf_add (v : Word64) (m c : Nat) : bitsOf v (m + c) = bitsOf (v >>> c) m ++ bitsOf v c := by
  induction m with
  | zero => simp [bitsOf]
  | succ m ih =>
    rw [Nat.add_right_comm, bitsOf, ih, bitsOf, BitVec.getLsbD_ushiftRight, Nat.add_comm c, List.cons_append]

/-- `PACK0` of a one-lane stream is the register whose bits are the stream (R239, R245). -/
theorem bitsOf_pack0 {r : List Word64} (oneLane : ∀ e ∈ r, e = 0 ∨ e = 1) (hr : r.length ≤ 64) :
    bitsOf (BitVec.ofNat 64 (pack0 r)) r.length = r := by
  refine List.ext_getElem (by simp) fun i _ hi => ?_
  have inWord : decide (r.length - 1 - i < 64) = true := by
    rw [decide_eq_true_eq]
    omega
  rw [bitsOf_getElem, BitVec.getLsbD_ofNat, testBit_pack0 r i hi, inWord, Bool.true_and,
    List.getD_eq_getElem _ _ hi]
  rcases oneLane _ (List.getElem_mem hi) with e | e <;> simp [e]

/-- A register with a remainder appended below it is the message's stream followed by the remainder (R249). -/
theorem bitsOf_shiftLeft_or_pack0 (v : Word64) {m : Nat} {r : List Word64} (oneLane : ∀ e ∈ r, e = 0 ∨ e = 1)
    (fits : m + r.length ≤ 64) :
    bitsOf (v <<< r.length ||| BitVec.ofNat 64 (pack0 r)) (m + r.length) = bitsOf v m ++ r := by
  have high : ∀ k < m, ((v <<< r.length ||| BitVec.ofNat 64 (pack0 r)) >>> r.length).getLsbD k = v.getLsbD k := by
    intro k hk
    have above : (pack0 r).testBit (r.length + k) = false :=
      Nat.testBit_lt_two_pow ((pack0_lt r).trans_le (Nat.pow_le_pow_right (by omega) (by omega)))
    have inWord : r.length + k < 64 := by omega
    rw [BitVec.getLsbD_ushiftRight, BitVec.getLsbD_or, BitVec.getLsbD_shiftLeft, BitVec.getLsbD_ofNat, above]
    simp [inWord]
  have low : ∀ k < r.length, (v <<< r.length ||| BitVec.ofNat 64 (pack0 r)).getLsbD k =
      (BitVec.ofNat 64 (pack0 r)).getLsbD k := by
    intro k hk
    simp [hk]
  rw [bitsOf_add, bitsOf_congr high, bitsOf_congr low, bitsOf_pack0 oneLane (by omega)]

end Sys2Proof.Machine

/-! What a division says of a whole stream, and the CRC commands on operands they accept (41_crc.md R240 to R249), with
the statements O37 to O40. -/

namespace Sys2Proof.Machine

open Polynomial Safety

/-! ## Zero streams and failing lanes (41_crc.md R239) -/

/-- A stream is zero when it is zero in every lane. -/
theorem forall_eq_zero_iff_lanePoly (w : List Word64) : (∀ e ∈ w, e = 0) ↔ ∀ j, lanePoly j w = 0 := by
  simp only [lanePoly_eq_zero_iff]
  constructor
  case mp =>
    intro zero j e he
    rw [zero e he]
    exact BitVec.getLsbD_zero
  case mpr =>
    intro zero e he
    refine BitVec.eq_of_getLsbD_eq fun j _ => ?_
    rw [zero j e he]
    exact BitVec.getLsbD_zero.symm

/-- `NZ` has exactly the bits of the lanes that are not zero. -/
theorem getLsbD_nonzeroLanes_iff_lanePoly (w : List Word64) (j : Nat) :
    (nonzeroLanes w).getLsbD j = true ↔ lanePoly j w ≠ 0 := by
  rw [getLsbD_nonzeroLanes, ne_eq, lanePoly_eq_zero_iff, List.forall_mem_iff_getElem]
  push Not
  refine exists_congr fun k => ?_
  rw [← exists_prop]
  refine exists_congr fun hk => ?_
  rw [List.getD_eq_getElem _ _ hk, ne_eq, Bool.not_eq_false]

theorem pack0_eq_zero {r : List Word64} (zero : ∀ e ∈ r, e = 0) : pack0 r = 0 := by
  induction r with
  | nil => rfl
  | cons e r ih =>
    rw [List.forall_mem_cons] at zero
    rw [pack0, zero.1, ih zero.2]
    simp

/-- A stream followed by its remainder divides to zero, in every lane (R241). -/
theorem crcDiv_append_crcRem {p : Word64} {c : Nat} (h : HasCheckLength p c) (s : List Word64) :
    ∀ e ∈ crcDiv p (s ++ crcRem p s), e = 0 :=
  (forall_eq_zero_iff_lanePoly _).2 fun j => lanePoly_crcDiv_append_crcRem h j s

/-! ## Powers of `x` modulo the polynomial (41_crc.md R242) -/

theorem coeff_wordPoly (p : Word64) {k : Nat} (hk : k < 64) : (wordPoly p).coeff k = if p.getLsbD k then 1 else 0 := by
  rw [wordPoly, finsetSum_coeff, Finset.sum_eq_single_of_mem k (Finset.mem_range.2 hk)]
  · split <;> simp
  · intro b _ hb
    split <;> simp [coeff_X_pow, hb.symm]

theorem wordPoly_twoPow {c : Nat} (hc : c < 64) : wordPoly (BitVec.twoPow 64 c) = X ^ c := by
  rw [wordPoly, Finset.sum_eq_single_of_mem c (Finset.mem_range.2 hc)]
  · simp [hc]
  · intro b _ hb
    simp [hb.symm]

theorem getLsbD_iff_coeff_wordPoly (p : Word64) {k : Nat} (hk : k < 64) :
    p.getLsbD k = true ↔ (wordPoly p).coeff k = 1 := by
  rw [coeff_wordPoly p hk]
  cases p.getLsbD k <;> simp

theorem wordPoly_injective : Function.Injective wordPoly := fun p q same =>
  BitVec.eq_of_getLsbD_eq fun k hk => by
    rw [Bool.eq_iff_iff, getLsbD_iff_coeff_wordPoly p hk, getLsbD_iff_coeff_wordPoly q hk, same]

/-- `POLY` has a single set bit exactly when its polynomial is `x^C`. -/
theorem wordPoly_eq_X_pow_iff {p : Word64} {c : Nat} (hc : c < 64) : wordPoly p = X ^ c ↔ p.toNat = 2 ^ c := by
  rw [← wordPoly_twoPow hc, wordPoly_injective.eq_iff, ← BitVec.toNat_inj, BitVec.toNat_twoPow_of_lt hc]

/-- A power of `x` is no multiple of the polynomial, unless the polynomial is `x^C` and the power is at least that. -/
theorem X_pow_modByMonic_wordPoly_eq_zero_iff {p : Word64} {c : Nat} (h : HasCheckLength p c) (k : Nat) :
    (X ^ k : (ZMod 2)[X]) %ₘ wordPoly p = 0 ↔ p.toNat = 2 ^ c ∧ c ≤ k := by
  have hc := hasCheckLength_lt h
  obtain ⟨monic, degree⟩ := wordPoly_monic h
  rw [modByMonic_eq_zero_iff_dvd monic]
  constructor
  case mp =>
    intro dvd
    obtain ⟨i, hik, assoc⟩ := (dvd_prime_pow prime_X k).1 dvd
    have power : wordPoly p = X ^ i := eq_of_monic_of_associated monic (monic_X_pow i) assoc
    have hic : i = c := by
      rw [power, degree_X_pow] at degree
      exact_mod_cast degree
    subst hic
    exact ⟨(wordPoly_eq_X_pow_iff (by omega)).1 power, hik⟩
  case mpr =>
    rintro ⟨monomial, hck⟩
    rw [(wordPoly_eq_X_pow_iff (by omega)).2 monomial]
    exact pow_dvd_pow X hck

/-! ## One flipped bit of a passing stream (41_crc.md R242) -/

section

variable {p : Word64} {c : Nat} (h : HasCheckLength p c) {s : List Word64} (hs : c ≤ s.length)
  (passes : ∀ e ∈ crcDiv p s, e = 0) {i j : Nat} (hi : i < s.length) (hj : j < 64)
include h hs passes hj

/-- With bit `j` of element `i` flipped, lane `j` leaves the residue of that place's power of `x`, and no other lane
leaves any. -/
theorem lanePoly_crcDiv_flip (k : Nat) :
    lanePoly k (crcDiv p (s.set i (s[i] ^^^ BitVec.twoPow 64 j))) =
      if k = j then X ^ (s.length - 1 - i) %ₘ wordPoly p else 0 := by
  have residue : lanePoly k s %ₘ wordPoly p = 0 := by
    rw [← lanePoly_crcDiv h k s hs, (forall_eq_zero_iff_lanePoly _).1 passes k]
  rw [lanePoly_crcDiv h k _ (by rwa [List.length_set])]
  split
  case isTrue here =>
    rw [lanePoly_set_xor k s i hi _ (by simp [here, hj]), add_modByMonic, residue, zero_add]
  case isFalse elsewhere =>
    rw [lanePoly_set_xor_other k s i hi _ (by simp [Ne.symm elsewhere]), residue]

theorem getLsbD_nonzeroLanes_crcDiv_flip (several : p.toNat ≠ 2 ^ c) :
    (nonzeroLanes (crcDiv p (s.set i (s[i] ^^^ BitVec.twoPow 64 j)))).getLsbD j = true := by
  rw [getLsbD_nonzeroLanes_iff_lanePoly, lanePoly_crcDiv_flip h hs passes hi hj, if_pos rfl, ne_eq,
    X_pow_modByMonic_wordPoly_eq_zero_iff h]
  exact fun single => several single.1

theorem nonzeroLanes_crcDiv_flip_eq_zero (single : p.toNat = 2 ^ c) (early : i < s.length - c) :
    nonzeroLanes (crcDiv p (s.set i (s[i] ^^^ BitVec.twoPow 64 j))) = 0 := by
  rw [nonzeroLanes_eq_zero, forall_eq_zero_iff_lanePoly]
  intro k
  have residue := (X_pow_modByMonic_wordPoly_eq_zero_iff h (s.length - 1 - i)).2 ⟨single, by omega⟩
  rw [lanePoly_crcDiv_flip h hs passes hi hj, residue, ite_self]

end

/-! ## Pass flags (R243, R248) -/

theorem flagValue_eq_one_iff (b : Bool) : flagValue b = 1 ↔ b = true := by cases b <;> decide

theorem flagValue_eq_zero_iff (b : Bool) : flagValue b = 0 ↔ ¬ b = true := by cases b <;> decide

theorem all_eq_zero_iff (r : List Word64) : r.all (· == 0) = true ↔ nonzeroLanes r = 0 := by
  rw [nonzeroLanes_eq_zero, List.all_eq_true]
  simp only [beq_iff_eq]

/-! ## The commands on operands they accept -/

theorem arrayOk_of_placed {a k w : Nat} (h : Placed a k w) : arrayOk a k w = true := (arrayOk_iff a k w).2 h

theorem exec_crcGen_of_placed {l : BitVec 7} {s : State} {c : Nat} (h : HasCheckLength s.poly c)
    (source : Placed s.arg0.toNat s.arg1.toNat 8) (destination : Placed s.arg2.toNat c 8) :
    exec (.crcGen l) s = .next (completed
      (genWrites (crcRem s.poly (readStream s.dmem s.arg0.toNat s.arg1.toNat l.toNat)) s)) := by
  have destination : arrayOk s.arg2.toNat (checkLength s.poly) 8 = true :=
    arrayOk_of_placed ((checkLength_of h).symm ▸ destination)
  simp [exec, execCrcGen, arrayOk_of_placed source, destination, succeed]

/-- `CRC.CHK` answers the mask of the lanes with a residue, and passes when there is none (R243). -/
theorem exec_crcChk_of_placed {l : BitVec 7} {s : State} {c n : Nat} (h : HasCheckLength s.poly c)
    (count : s.arg1.toNat = n) (long : c ≤ n) (source : Placed s.arg0.toNat n 8) :
    ∃ u, exec (.crcChk l) s = .next u ∧ u.err = false ∧
      u.res1 = nonzeroLanes (crcDiv s.poly (readStream s.dmem s.arg0.toNat n l.toNat)) ∧
      (u.res0 = 1 ↔ u.res1 = 0) ∧ (u.res0 = 0 ↔ u.res1 ≠ 0) := by
  subst count
  have long : ¬ s.arg1.toNat < checkLength s.poly := (checkLength_of h).symm ▸ Nat.not_lt.2 long
  have run : exec (.crcChk l) s = .next (completed
      (checkWrites (crcDiv s.poly (readStream s.dmem s.arg0.toNat s.arg1.toNat l.toNat)) s)) := by
    simp [exec, execCrcChk, long, arrayOk_of_placed source, succeed]
  refine ⟨_, run, rfl, rfl, ?_⟩
  rw [completed_res0, completed_res1, checkWrites_res0, checkWrites_res1, flagValue_eq_one_iff, flagValue_eq_zero_iff,
    ne_eq, all_eq_zero_iff]
  exact ⟨Iff.rfl, Iff.rfl⟩

theorem exec_crcGenr (m : BitVec 7) (s : State) :
    exec (.crcGenr m) s = .next (completed (genrWrites (crcRem s.poly (bitsOf s.arg0 m.toNat)) s)) := rfl

theorem exec_crcChkr_of_le {m : BitVec 7} {s : State} {c n : Nat} (h : HasCheckLength s.poly c)
    (count : m.toNat = n) (long : c ≤ n) :
    exec (.crcChkr m) s = .next (completed (chkrWrites (crcDiv s.poly (bitsOf s.arg0 n)) s)) := by
  subst count
  have long : ¬ m.toNat < checkLength s.poly := (checkLength_of h).symm ▸ Nat.not_lt.2 long
  simp only [exec, execCrcChkr, if_neg long, succeed]

/-! ## Generate, then check (41_crc.md R241) -/

/-- A remainder stored behind its message makes one stream with it. -/
theorem readStream_genWrites {s : State} {n l : Nat} {r : List Word64} (masked : r.map (· &&& laneMask l) = r)
    (behind : s.arg2.toNat = s.arg0.toNat + 8 * n) :
    readStream (genWrites r s).dmem s.arg0.toNat (n + r.length) l = readStream s.dmem s.arg0.toNat n l ++ r := by
  rw [genWrites_dmem, readStream_append, readStream_writeArray_before _ _ _ behind.ge, ← behind,
    readStream_writeArray_same, masked]

/-- Settles O37: the second command reads the message followed by its remainder. -/
theorem generatedStreamPassesCheck : Obligations.GeneratedStreamPassesCheck := by
  refine ⟨fun p s c h => crcDiv_append_crcRem h s, ?_⟩
  intro l s t c _ h aligned fits behind run
  -- From here on only four facts about the remainder `r` count.
  have generated := exec_crcGen_of_placed (l := l) h (.inr ⟨aligned, by omega⟩) (.inr ⟨by omega, by omega⟩)
  have masked := crcRem_readStream_and_laneMask s.poly s.dmem s.arg0.toNat s.arg1.toNat l.toNat
  have size := crcRem_length s.poly (readStream s.dmem s.arg0.toNat s.arg1.toNat l.toNat)
  have zero := crcDiv_append_crcRem h (readStream s.dmem s.arg0.toNat s.arg1.toNat l.toNat)
  generalize crcRem s.poly _ = r at generated masked size zero
  rw [checkLength_of h] at size
  rw [← readStream_genWrites masked behind, size, ← nonzeroLanes_eq_zero] at zero
  obtain rfl := Host.Outcome.next.inj (generated.symm.trans run)
  have count : (BitVec.ofNat 64 (s.arg1.toNat + c)).toNat = s.arg1.toNat + c := by
    rw [BitVec.toNat_ofNat, Nat.mod_eq_of_lt (by omega)]
  obtain ⟨u, ran, noError, lanes, pass, -⟩ := exec_crcChk_of_placed (l := l)
    (s := { completed (genWrites r s) with arg1 := BitVec.ofNat 64 (s.arg1.toNat + c) }) h count (Nat.le_add_left c _)
    (.inr ⟨aligned, Nat.mul_comm 8 _ ▸ fits⟩)
  have passed : u.res1 = 0 := lanes.trans zero
  exact ⟨u, ran, noError, pass.2 passed, passed⟩

/-! ## Single-bit errors (41_crc.md R242) -/

/-- Settles O38: the flipped bit leaves the residue of a power of `x`, in its own lane. -/
theorem singleBitErrorIsDetected : Obligations.SingleBitErrorIsDetected := by
  intro l s t c i j hl h long source hi hj run passed m flipped
  have hl64 := ((lanesOk_iff l).1 hl).2
  have hj64 := hj.trans_le hl64
  obtain ⟨_, ran, -, lanes, pass, -⟩ := exec_crcChk_of_placed (l := l) h rfl long source
  obtain rfl := Host.Outcome.next.inj (ran.symm.trans run)
  have zero := (nonzeroLanes_eq_zero _).1 (lanes.symm.trans (pass.1 passed))
  obtain ⟨u, ran', -, lanes', pass', fail'⟩ :=
    exec_crcChk_of_placed (l := l) (s := { s with dmem := m }) h rfl long source
  have length := readStream_length s.dmem s.arg0.toNat s.arg1.toNat l.toNat
  rw [← length] at long hi
  rw [readStream_of_flip flipped hi hj hl64] at lanes'
  refine ⟨u, ran', fun several => ?several, fun single early => ?single⟩
  case several =>
    have failing := getLsbD_nonzeroLanes_crcDiv_flip h long zero hi hj64 several
    rw [← lanes'] at failing
    exact ⟨fail'.2 fun none => absurd (none ▸ failing) (by simp), failing⟩
  case single =>
    rw [← length] at early
    exact pass'.2 (lanes'.trans (nonzeroLanes_crcDiv_flip_eq_zero h long zero hi hj64 single early))

/-! ## The register forms (41_crc.md R247, R249) -/

/-- Settles O39: the two commands divide the same stream. -/
theorem registerAndStreamFormsAgree : Obligations.RegisterAndStreamFormsAgree := by
  intro m s t t' v c _ h count source destination bits run run'
  obtain rfl := Host.Outcome.next.inj ((exec_crcGen_of_placed h source destination).symm.trans run)
  obtain rfl := Host.Outcome.next.inj ((exec_crcGenr m { s with arg0 := v }).symm.trans run')
  have same : readStream s.dmem s.arg0.toNat s.arg1.toNat 1 = bitsOf v m.toNat := by
    rw [count]
    exact readStream_eq_bitsOf bits
  exact congrArg (fun stream => BitVec.ofNat 64 (pack0 (crcRem s.poly stream))) same

/-- Settles O40: the register that is checked holds the message's stream followed by its remainder. -/
theorem appendedRegisterCrcPasses : Obligations.AppendedRegisterCrcPasses := by
  intro m s t c _ h fits run
  obtain rfl := Host.Outcome.next.inj ((exec_crcGenr m s).symm.trans run)
  have count : (BitVec.ofNat 7 (m.toNat + c)).toNat = m.toNat + c := by
    rw [BitVec.toNat_ofNat, Nat.mod_eq_of_lt (by omega)]
  have length : (crcRem s.poly (bitsOf s.arg0 m.toNat)).length = c := by rw [crcRem_length, checkLength_of h]
  have appended := bitsOf_shiftLeft_or_pack0 s.arg0 (crcRem_oneLane s.poly (bitsOf_oneLane s.arg0 m.toNat))
    (length.symm ▸ fits)
  have zero := pack0_eq_zero (crcDiv_append_crcRem h (bitsOf s.arg0 m.toNat))
  rw [← appended, length] at zero
  refine ⟨_, exec_crcChkr_of_le h count (Nat.le_add_left c _), rfl, ?_⟩
  exact (flagValue_eq_one_iff _).2 (beq_iff_eq.2 zero)

end Sys2Proof.Machine

/-! Header images in DMEM (42_header.md R270, R280, R281), and the statement O43 that a store and a load undo each
other. -/

namespace Sys2Proof.Machine

/-! ## Images -/

/-- Storing an array as it was read changes no byte. -/
theorem memByte_writeArray_readArray (m : Memory) {m' : Memory} (a w k b : Nat)
    (same : ∀ c, memByte m' c = memByte m c) : memByte (writeArray m' a w (readArray m a w k)) b = memByte m b := by
  induction k generalizing m' a with
  | zero => exact same b
  | succ k ih => exact ih (a + w) fun c => memByte_memWrite_memRead m m' a w c same

/-- The words of a header image are the array of 4-byte elements at its address. -/
theorem words_readHeader (m : Memory) (a : Nat) :
    (readHeader m a).words = readArray m a 4 Config.hdrWords := by
  refine List.ext_getElem (by simp [Header.words, readArray_length]) fun w _ _ => ?_
  have fits : memRead m (a + 4 * w) 4 % 2 ^ 32 = memRead m (a + 4 * w) 4 := Nat.mod_eq_of_lt (memRead_lt m _ 4)
  simpa [Header.words, readHeader, readArray_eq_map] using fits

/-- A stored header reads back. -/
theorem readHeader_writeArray_words (m : Memory) (a : Nat) (h : Header) :
    readHeader (writeArray m a 4 h.words) a = h := by
  refine Header.ext_words fun w => ?_
  have inside : w.val < h.words.length := by simp [Header.words]
  have word : h.words[w.val] = (h.word w).toNat := by simp [Header.words, Header.word]
  rw [word_readHeader, memRead_writeArray_of_lt _ _ _ _ _ inside (word ▸ (h.word w).isLt), word, BitVec.ofNat_toNat,
    BitVec.setWidth_eq]

/-! ## The two commands -/

theorem exec_hdrLd_of_arrayOk {s : State} (placed : arrayOk s.arg0.toNat Config.hdrWords 4 = true) :
    exec .hdrLd s = .next (completed { s with hdr := readHeader s.dmem s.arg0.toNat }) := by
  simp [exec, execHdrLd, placed, succeed]

theorem exec_hdrLd_of_not_arrayOk {s : State} (misplaced : arrayOk s.arg0.toNat Config.hdrWords 4 = false) :
    exec .hdrLd s = .next (errored s .address 0 s.arg0) := by
  simp [exec, execHdrLd, misplaced, raise]

theorem exec_hdrSt_of_arrayOk {s : State} (placed : arrayOk s.arg0.toNat Config.hdrWords 4 = true) :
    exec .hdrSt s = .next (completed { s with dmem := writeArray s.dmem s.arg0.toNat 4 s.hdr.words }) := by
  simp [exec, execHdrSt, placed, succeed]

theorem exec_hdrSt_of_not_arrayOk {s : State} (misplaced : arrayOk s.arg0.toNat Config.hdrWords 4 = false) :
    exec .hdrSt s = .next (errored s .address 0 s.arg0) := by
  simp [exec, execHdrSt, misplaced, raise]

/-! ## The round trips (42_header.md R282) -/

/-- A misplaced store and the load after it both fail, and an error keeps the header. -/
theorem hdr_of_hdrSt_hdrLd {s t u : State} (store : exec .hdrSt s = .next t) (load : exec .hdrLd t = .next u) :
    u.hdr = s.hdr := by
  cases check : arrayOk s.arg0.toNat Config.hdrWords 4 with
  | true =>
    obtain rfl := Host.Outcome.next.inj (store.symm.trans (exec_hdrSt_of_arrayOk check))
    obtain rfl := Host.Outcome.next.inj (load.symm.trans (exec_hdrLd_of_arrayOk check))
    exact readHeader_writeArray_words s.dmem s.arg0.toNat s.hdr
  | false =>
    obtain rfl := Host.Outcome.next.inj (store.symm.trans (exec_hdrSt_of_not_arrayOk check))
    obtain rfl := Host.Outcome.next.inj (load.symm.trans (exec_hdrLd_of_not_arrayOk check))
    rfl

/-- A misplaced load and the store after it both fail, and an error keeps DMEM. -/
theorem memByte_of_hdrLd_hdrSt {s t u : State} (load : exec .hdrLd s = .next t) (store : exec .hdrSt t = .next u)
    (a : Nat) : memByte u.dmem a = memByte s.dmem a := by
  cases check : arrayOk s.arg0.toNat Config.hdrWords 4 with
  | true =>
    obtain rfl := Host.Outcome.next.inj (load.symm.trans (exec_hdrLd_of_arrayOk check))
    obtain rfl := Host.Outcome.next.inj (store.symm.trans (exec_hdrSt_of_arrayOk check))
    have stored := memByte_writeArray_readArray s.dmem s.arg0.toNat 4 Config.hdrWords a fun _ => rfl
    rwa [← words_readHeader] at stored
  | false =>
    obtain rfl := Host.Outcome.next.inj (load.symm.trans (exec_hdrLd_of_not_arrayOk check))
    obtain rfl := Host.Outcome.next.inj (store.symm.trans (exec_hdrSt_of_not_arrayOk check))
    rfl

/-- Settles O43. -/
theorem headerRoundTrip : Obligations.HeaderRoundTrip :=
  ⟨fun _ _ _ => hdr_of_hdrSt_hdrLd, fun _ _ _ => memByte_of_hdrLd_hdrSt⟩

end Sys2Proof.Machine

/-! What a field write leaves in the header, the CRC field included (42_header.md R271, R276, R278), and the statement
O46 about `HDR.WRF`. -/

namespace Sys2Proof.Machine

open Safety

/-! ## Storing the header CRC (42_header.md R276, R285) -/

/-- Every bit of a header whose CRC field was recomputed. -/
theorem getLsbD_updateCrc (h : Header) (w : Fin Config.hdrWords) (b : Nat) :
    ((updateCrc Config.profile h).word w).getLsbD b =
      if w = 3 ∧ b < 16 then (headerCrc Config.profile h).testBit b else (h.word w).getLsbD b := by
  have bits := getLsbD_fwrite h (f := Config.profile.crc) (by decide) (headerCrc_lt h) w b
  simpa [updateCrc, Config.profile] using bits

/-- The CRC field is not among the bits that the header CRC protects. -/
theorem headerCrc_updateCrc (h : Header) :
    headerCrc Config.profile (updateCrc Config.profile h) = headerCrc Config.profile h := by
  refine headerCrc_congr (BitVec.eq_of_getLsbD_eq fun b _ => ?_) (BitVec.eq_of_getLsbD_eq fun b _ => ?_)
  · rw [getLsbD_updateCrc, if_neg (by simp)]
  · rw [BitVec.getLsbD_ushiftRight, BitVec.getLsbD_ushiftRight, getLsbD_updateCrc, if_neg (by omega)]

theorem fread_crc_updateCrc (h : Header) :
    fread (updateCrc Config.profile h) Config.profile.crc = headerCrc Config.profile (updateCrc Config.profile h) := by
  rw [headerCrc_updateCrc]
  exact fread_fwrite_same h (by decide) (headerCrc_lt h)

/-! ## The header that `HDR.WRF` leaves (42_header.md R285, R287) -/

section

variable {f : Config.Field} {v : Nat} (inWord : f.off + f.width ≤ 32) (fits : v < 2 ^ f.width) (h : Header)

include inWord fits

/-- The recomputed CRC does not fall on the field that was written. -/
theorem fread_writeField_same
    (apart : crcCovered Config.profile f = true → disjointFields Config.profile.crc f = true) :
    fread (writeField Config.profile f v h) f = v := by
  rw [writeField]
  split
  case isTrue covered =>
    exact (fread_fwrite_other _ (by decide) inWord (headerCrc_lt _) (apart covered)).trans
      (fread_fwrite_same h inWord fits)
  case isFalse => exact fread_fwrite_same h inWord fits

/-- The sibling law (R287). -/
theorem getLsbD_writeField_other {w : Fin Config.hdrWords} {b : Nat}
    (notCrc : crcCovered Config.profile f = true → ¬ (w = 3 ∧ b < 16))
    (notField : ¬ (w = f.word ∧ f.off ≤ b ∧ b < f.off + f.width)) :
    ((writeField Config.profile f v h).word w).getLsbD b = (h.word w).getLsbD b := by
  have kept : ((fwrite h f v).word w).getLsbD b = (h.word w).getLsbD b := by
    rw [getLsbD_fwrite h inWord fits, if_neg notField]
  rw [writeField]
  split
  case isTrue covered => rw [getLsbD_updateCrc, if_neg (notCrc covered), kept]
  case isFalse => exact kept

end

theorem fread_crc_writeField {f : Config.Field} (covered : crcCovered Config.profile f = true) (v : Nat) (h : Header) :
    fread (writeField Config.profile f v h) Config.profile.crc =
      headerCrc Config.profile (writeField Config.profile f v h) := by
  rw [writeField, if_pos covered, fread_crc_updateCrc]

/-! ## Rows of the field table (42_header.md R272, R278) -/

/-- The field that a row of the table describes. -/
def rowField (r : Nat × Fin 4 × Nat × Nat) : Config.Field := ⟨r.2.1, r.2.2.1, r.2.2.2⟩

theorem fieldTable_of_row {r : Nat × Fin 4 × Nat × Nat} (row : r ∈ fieldRows) {fid : BitVec 4}
    (atRow : fid.toNat = r.1) :
    fieldTable Config.profile fid.toNat = some (rowField r) := by
  rw [atRow]
  clear atRow
  revert r
  decide

theorem fieldTable_eq_none {fid : BitVec 4} (absent : 8 ≤ fid.toNat) :
    fieldTable Config.profile fid.toNat = none := by
  revert fid
  decide

theorem rowField_inWord {r : Nat × Fin 4 × Nat × Nat} (row : r ∈ fieldRows) :
    (rowField r).off + (rowField r).width ≤ 32 := by
  revert r
  decide

/-- The CRC-covered fields are the three BCD fields (R278). -/
theorem crcCovered_rowField {r : Nat × Fin 4 × Nat × Nat} (row : r ∈ fieldRows) :
    crcCovered Config.profile (rowField r) = decide (4 ≤ r.1 ∧ r.1 ≤ 6) := by
  revert r
  decide

theorem disjointFields_crc_rowField {r : Nat × Fin 4 × Nat × Nat} (row : r ∈ fieldRows)
    (covered : crcCovered Config.profile (rowField r) = true) :
    disjointFields Config.profile.crc (rowField r) = true := by
  revert r
  decide

/-! ## The three outcomes of `HDR.WRF` (42_header.md R285, R273) -/

theorem exec_hdrWrf_of_fits {fid : BitVec 4} {s : State} {f : Config.Field}
    (present : fieldTable Config.profile fid.toNat = some f) (fits : s.arg0.toNat < 2 ^ f.width) :
    exec (.hdrWrf fid) s = .next (completed { s with
      hdr := writeField Config.profile f s.arg0.toNat s.hdr
      res0 := BitVec.ofNat 64 (fread (writeField Config.profile f s.arg0.toNat s.hdr) Config.profile.crc)
      res1 := flagValue (crcCovered Config.profile f) }) := by
  simp only [exec, execHdrWrf, writeFieldCommand, present, if_neg (Nat.not_le.2 fits), succeed]

theorem exec_hdrWrf_of_le {fid : BitVec 4} {s : State} {f : Config.Field}
    (present : fieldTable Config.profile fid.toNat = some f) (large : 2 ^ f.width ≤ s.arg0.toNat) :
    exec (.hdrWrf fid) s = .next (errored s .range (fid.setWidth 64) s.arg0) := by
  simp only [exec, execHdrWrf, writeFieldCommand, present, if_pos large, raise]

theorem exec_hdrWrf_of_absent {fid : BitVec 4} {s : State} (absent : fieldTable Config.profile fid.toNat = none) :
    exec (.hdrWrf fid) s = .next (errored s .badField (fid.setWidth 64) 0) := by
  simp only [exec, execHdrWrf, writeFieldCommand, absent, raise]

/-- Settles O46: each row of the table is a field in its word, CRC-covered exactly when it is one of the three BCD
fields, and then apart from the CRC field. -/
theorem fieldWriteResult : Obligations.FieldWriteResult := by
  refine fun fid s => ⟨fun r row atRow fits => ?fits, fun r row atRow large => ?large, fun absent => ?absent⟩
  case fits =>
    have inWord := rowField_inWord row
    have covered := crcCovered_rowField row
    have run := exec_hdrWrf_of_fits (fieldTable_of_row row atRow) fits
    have crc_eq (h : Header) : fread h Config.profile.crc = bitsAt (h.word 3) 0 16 := fread_eq h (by decide)
    rw [crc_eq, covered] at run
    refine ⟨_, by simpa only [flagValue, decide_eq_true_eq] using run, ?field, fun bcd => ?crc,
      fun w b notCrc notField => ?other⟩
    case field =>
      exact (fread_eq _ (f := rowField r) (by omega)).symm.trans
        (fread_writeField_same inWord fits s.hdr (disjointFields_crc_rowField row))
    case crc =>
      rw [← crc_eq]
      exact fread_crc_writeField (covered.trans (decide_eq_true bcd)) _ _
    case other =>
      refine getLsbD_writeField_other inWord fits s.hdr (fun bcd => ?_)
        fun ⟨sameWord, inside⟩ => notField sameWord inside
      rw [covered, decide_eq_true_eq] at bcd
      exact fun ⟨isCrcWord, low⟩ => notCrc isCrcWord low bcd
  case large => exact exec_hdrWrf_of_le (fieldTable_of_row row atRow) large
  case absent => exact exec_hdrWrf_of_absent (fieldTable_eq_none absent)

end Sys2Proof.Machine

/-! The samples that `Q.DEC` stores and the bytes that `Q.ENC` stores, in terms of the packed codes (43_quant.md R337,
R340, R344), and the statement O59 that the two commands undo each other. -/

namespace Sys2Proof.Machine

open Safety

/-! ## Commands that did not fail -/

theorem raise_ne_next_of_not_err {s t : State} (ok : t.err = false) (e : CmdError) (info val : Word64) :
    raise s e info val ≠ .next t := by
  intro run
  obtain rfl := Host.Outcome.next.inj run
  exact Bool.noConfusion ok

/-- The geometry of `k` levels of `bps` bits. -/
def sampleGeometry (k bps : Nat) : Geometry := ⟨k, k * bps / 8, 8 / bps⟩

theorem geometry_eq_ok {g : Word64} {b : Nat} {q : Geometry} (h : geometry g b = .ok q) :
    GeometryOk g.toNat b ∧ q = sampleGeometry (levelsOf g.toNat) b := by
  rcases geometry_cases g b with ⟨-, bad⟩ | ⟨-, -, bad⟩ | ⟨-, -, -, bad⟩ | ⟨legal, good⟩
  · cases bad.symm.trans h
  · cases bad.symm.trans h
  · cases bad.symm.trans h
  · exact ⟨legal, (Except.ok.inj (good.symm.trans h)).symm⟩

section

variable {b : BitVec 2} {s t : State}

theorem exec_qDec_of_not_err (run : exec (.qDec b false) s = .next t) (ok : t.err = false) :
    GeometryOk s.arg3.toNat b.toNat ∧ t.arg3 = s.arg3 ∧
      t.dmem = writeArray s.dmem s.arg2.toNat 4
        (decodeLevels s.dmem s.arg0.toNat b.toNat (sampleGeometry (levelsOf s.arg3.toNat) b.toNat)) := by
  have failed := raise_ne_next_of_not_err (s := s) ok
  simp only [exec, execQDec, Bool.false_and, Bool.false_eq_true, if_false] at run
  split at run
  case h_1 => exact absurd run (failed _ _ _)
  case h_2 q checked =>
    obtain ⟨legal, rfl⟩ := geometry_eq_ok checked
    split_ifs at run
    · exact absurd run (failed _ _ _)
    · exact absurd run (failed _ _ _)
    · exact absurd run (failed _ _ _)
    · obtain rfl := Host.Outcome.next.inj run
      exact ⟨legal, rfl, rfl⟩

theorem exec_qEnc_of_not_err (run : exec (.qEnc b false) s = .next t) (ok : t.err = false) :
    GeometryOk s.arg3.toNat b.toNat ∧ t.arg3 = s.arg3 ∧
      t.dmem = writeArray s.dmem s.arg2.toNat 1
        (encodeLevels s.dmem s.arg0.toNat b.toNat (sampleGeometry (levelsOf s.arg3.toNat) b.toNat)) := by
  have failed := raise_ne_next_of_not_err (s := s) ok
  simp only [exec, execQEnc, Bool.false_and, Bool.false_eq_true, if_false] at run
  split at run
  case h_1 => exact absurd run (failed _ _ _)
  case h_2 q checked =>
    obtain ⟨legal, rfl⟩ := geometry_eq_ok checked
    split_ifs at run
    · exact absurd run (failed _ _ _)
    · exact absurd run (failed _ _ _)
    · obtain rfl := Host.Outcome.next.inj run
      exact ⟨legal, rfl, rfl⟩

end

/-! ## Bytes as lists of codes (R337, R344) -/

/-- Packing the fields of a value, from the lowest up, gives the value back. -/
theorem packCodes_fields (bps v n : Nat) :
    packCodes bps ((List.range n).map fun i => v / 2 ^ (bps * i) % 2 ^ bps) = v % 2 ^ (bps * n) := by
  induction n generalizing v with
  | zero => simp [packCodes, Nat.mod_one]
  | succ n ih =>
    have tail : ((List.range n).map Nat.succ).map (fun i => v / 2 ^ (bps * i) % 2 ^ bps) =
        (List.range n).map fun i => v / 2 ^ bps / 2 ^ (bps * i) % 2 ^ bps := by
      rw [List.map_map]
      refine List.map_congr_left fun i _ => ?_
      rw [Function.comp_apply, Nat.mul_succ, Nat.add_comm, pow_add, Nat.div_div_eq_div_mul]
    rw [List.range_succ_eq_map, List.map_cons, packCodes, tail, ih, Nat.mul_zero, pow_zero, Nat.div_one,
      Nat.mul_succ, Nat.add_comm (bps * n), pow_add, Nat.mod_mul]

theorem packedCode_lt (m : Memory) (a bps i : Nat) : packedCode m a bps i < 2 ^ bps :=
  Nat.mod_lt _ (Nat.two_pow_pos bps)

/-- An element of an array of bytes. -/
theorem memByte_writeArray_bytes (m : Memory) (a : Nat) (vs : List Nat) (i : Nat) (h : i < vs.length) :
    memByte (writeArray m a 1 vs) (a + i) = BitVec.ofNat 8 vs[i] := by
  have element := memRead_writeArray m a 1 vs i h
  rw [memRead, memRead, Nat.mul_zero, Nat.add_zero, Nat.one_mul] at element
  exact BitVec.eq_of_toNat_eq element

section

variable {bps : Nat} (h : bps = 1 ∨ bps = 2)

include h

/-- The fields of a byte fill it. -/
theorem mul_perByte : bps * (8 / bps) = 8 := by rcases h with rfl | rfl <;> rfl

/-- The levels of whole bytes. -/
theorem need_mul_perByte {k : Nat} (whole : 8 * (k * bps / 8) = k * bps) : k * bps / 8 * (8 / bps) = k := by
  rcases h with rfl | rfl <;> omega

/-- The levels of a byte that is asked for are asked for. -/
theorem level_lt {k i j : Nat} (whole : 8 * (k * bps / 8) = k * bps) (hj : j < k * bps / 8) (hi : i < 8 / bps) :
    j * (8 / bps) + i < k := calc
  j * (8 / bps) + i < (j + 1) * (8 / bps) := (Nat.add_lt_add_left hi _).trans_eq (Nat.succ_mul ..).symm
  _ ≤ k * bps / 8 * (8 / bps) := Nat.mul_le_mul_right _ hj
  _ = k := need_mul_perByte h whole

/-- Level `i` is field `i mod lpb` of byte `i / lpb` (R337). -/
theorem packedCode_eq (m : Memory) (a i : Nat) :
    packedCode m a bps i = (memByte m (a + i / (8 / bps))).toNat / 2 ^ (bps * (i % (8 / bps))) % 2 ^ bps := by
  have byte : i * bps / 8 = i / (8 / bps) := by rcases h with rfl | rfl <;> omega
  have field : i * bps % 8 = bps * (i % (8 / bps)) := by rcases h with rfl | rfl <;> omega
  rw [packedCode, byte, field]

theorem packedCode_of_byte (m : Memory) (a j : Nat) {i : Nat} (hi : i < 8 / bps) :
    packedCode m a bps (j * (8 / bps) + i) = (memByte m (a + j)).toNat / 2 ^ (bps * i) % 2 ^ bps := by
  rw [packedCode_eq h, Nat.mul_add_mod_self_right, Nat.mod_eq_of_lt hi, Nat.add_comm (j * _),
    Nat.add_mul_div_right _ _ (Nat.zero_lt_of_lt hi), Nat.div_eq_of_lt hi, Nat.zero_add]

/-- A byte is the packing of its own codes. -/
theorem packCodes_packedCode (m : Memory) (a j : Nat) :
    packCodes bps ((List.range (8 / bps)).map fun i => packedCode m a bps (j * (8 / bps) + i)) =
      (memByte m (a + j)).toNat := by
  rw [List.map_congr_left fun i hi => packedCode_of_byte h m a j (List.mem_range.1 hi), packCodes_fields,
    mul_perByte h, Nat.mod_eq_of_lt (memByte m (a + j)).isLt]

/-! ## Levels and codes (R331 to R334, R342, R343) -/

/-- The table gives the level of the field it looks at. -/
theorem lut_toNat (v : Byte) (i : Nat) :
    (lut bps v i).toNat = levelOf bps (v.toNat / 2 ^ (bps * i) % 2 ^ bps) := by
  rcases h with rfl | rfl
  case inl =>
    have bit : v.getLsbD i = decide (v.toNat / 2 ^ i % 2 = 1) := Nat.testBit_eq_decide_div_mod_eq
    rw [lut, if_pos rfl, lut1, levelField_bitOrder, bit, levelOf, if_pos rfl, Nat.one_mul, pow_one]
    by_cases set : v.toNat / 2 ^ i % 2 = 1 <;> simp [set, levelPlusOne, levelMinusOne]
  case inr =>
    rw [lut, if_neg (by decide), lut2, levelField_bitOrder, level4_toNat _ (BitVec.isLt _), levelOf,
      if_neg (by decide), BitVec.extractLsb'_toNat, Nat.shiftRight_eq_div_pow]

/-- Coding a level of the alphabet gives its code back (R345). -/
theorem code_levelOf {c : Nat} (hc : c < 2 ^ bps) : code bps (BitVec.ofNat 32 (levelOf bps c)) = c := by
  rcases h with rfl | rfl
  case inl =>
    have bit : c = 0 ∨ c = 1 := by omega
    rcases bit with rfl | rfl
    · exact code1_level false
    · exact code1_level true
  case inr =>
    rw [code, levelOf, if_neg (by decide), if_neg (by decide), ← level4_toNat c hc, BitVec.ofNat_toNat,
      BitVec.setWidth_eq, code2_level4 c hc]

/-! ## The arrays that the commands store -/

/-- Sample `i` of a decoded array (R340). -/
theorem memRead_writeArray_decodeLevels (m m' : Memory) (a p : Nat) {k i : Nat} (hi : i < k) :
    memRead (writeArray m' p 4 (decodeLevels m a bps (sampleGeometry k bps))) (p + 4 * i) 4 =
      levelOf bps (packedCode m a bps i) := by
  have inside : i < (decodeLevels m a bps (sampleGeometry k bps)).length := by simpa [sampleGeometry] using hi
  have level := decodeLevels_getElem m a bps (sampleGeometry k bps) i inside
  rw [memRead_writeArray_of_lt _ _ _ _ _ inside (level ▸ BitVec.isLt _), level, lut_toNat h, packedCode_eq h]
  rfl

/-- Byte `j` of an encoded array (R344). -/
theorem memByte_writeArray_encodeLevels (m m' : Memory) (a p : Nat) {k j : Nat} (hj : j < k * bps / 8) :
    (memByte (writeArray m' p 1 (encodeLevels m a bps (sampleGeometry k bps))) (p + j)).toNat =
      packCodes bps ((List.range (8 / bps)).map fun i =>
        code bps (BitVec.ofNat 32 (memRead m (a + 4 * (j * (8 / bps) + i)) 4))) := by
  have inside : j < (encodeLevels m a bps (sampleGeometry k bps)).length := by simpa [sampleGeometry] using hj
  rw [memByte_writeArray_bytes _ _ _ _ inside, encodeLevels_getElem, BitVec.toNat_ofNat]
  refine Nat.mod_eq_of_lt ((packCodes_lt bps _ (List.forall_mem_map.2 fun _ _ => code_lt h _)).trans_eq ?_)
  rw [List.length_map, List.length_range, sampleGeometry, mul_perByte h]

/-- Code `i` of an encoded array is the code of sample `i` (R344). -/
theorem packedCode_writeArray_encodeLevels (m m' : Memory) (a p : Nat) {k i : Nat}
    (whole : 8 * (k * bps / 8) = k * bps) (hi : i < k) :
    packedCode (writeArray m' p 1 (encodeLevels m a bps (sampleGeometry k bps))) p bps i =
      code bps (BitVec.ofNat 32 (memRead m (a + 4 * i) 4)) := by
  have perByte_pos : 0 < 8 / bps := by rcases h with rfl | rfl <;> decide
  have byte : i / (8 / bps) < k * bps / 8 := by
    rwa [Nat.div_lt_iff_lt_mul perByte_pos, need_mul_perByte h whole]
  have field : i % (8 / bps) < 8 / bps := Nat.mod_lt i perByte_pos
  rw [packedCode_eq h, memByte_writeArray_encodeLevels h m m' a p byte,
    packCodes_field bps _ (List.forall_mem_map.2 fun _ _ => code_lt h _) _ (by simpa using field), List.getElem_map,
    List.getElem_range, Nat.div_add_mod']

end

/-! ## The round trips (R346) -/

/-- Settles O59: encoding keeps the code of each sample, decoding the level of each code, and on the alphabet levels and
codes determine each other. -/
theorem sampleRoundTrip : Obligations.SampleRoundTrip := by
  intro b s t u dst hb k need
  have h : b.toNat = 1 ∨ b.toNat = 2 := by rcases hb with rfl | rfl <;> decide
  constructor
  case left =>
    intro alphabet enc encOk dec decOk i hi
    obtain ⟨legal, sameGeometry, encoded⟩ := exec_qEnc_of_not_err enc encOk
    obtain ⟨-, -, decoded⟩ := exec_qDec_of_not_err dec decOk
    obtain ⟨c, hc, sample⟩ := alphabet i hi
    simp only [sameGeometry, encoded] at decoded
    rw [decoded, memRead_writeArray_decodeLevels h _ _ _ _ hi,
      packedCode_writeArray_encodeLevels h _ _ _ _ (levels_mul_eq legal) hi, sample, code_levelOf h hc]
  case right =>
    intro dec decOk enc encOk j hj
    obtain ⟨legal, sameGeometry, decoded⟩ := exec_qDec_of_not_err dec decOk
    obtain ⟨-, -, encoded⟩ := exec_qEnc_of_not_err enc encOk
    simp only [sameGeometry, decoded] at encoded
    refine BitVec.eq_of_toNat_eq ?_
    rw [encoded, memByte_writeArray_encodeLevels h _ _ _ _ hj, ← packCodes_packedCode h]
    congr 1
    refine List.map_congr_left fun i hi => ?_
    have inside := level_lt h (levels_mul_eq legal) hj (List.mem_range.1 hi)
    rw [memRead_writeArray_decodeLevels h _ _ _ _ inside, code_levelOf h (packedCode_lt _ _ _ _)]

end Sys2Proof.Machine

/-! The encoder against the decoder (30_encoding.md R141 to R149), and the statements O1 to O3 about them. -/

namespace Sys2Proof

/-! ## The three fields of an encoding (30_encoding.md R141) -/

@[simp] theorem opcField_encode (i : Instr) : opcField (encode i) = i.fields.1 :=
  BitVec.extractLsb'_append_eq_right

@[simp] theorem modField_encode (i : Instr) : modField (encode i) = i.fields.2 :=
  (BitVec.extractLsb'_append_eq_of_le (Nat.le_refl 8)).trans BitVec.extractLsb'_append_eq_right

@[simp] theorem rsvField_encode (i : Instr) : rsvField (encode i) = 0 :=
  (BitVec.extractLsb'_append_eq_of_le (by decide : 8 ≤ 16)).trans BitVec.extractLsb'_append_eq_left

/-- A word with no reserved bit set is the encoding of the command with its opcode and modifier. -/
theorem encode_eq_of_fields {w : Word32} {i : Instr} (rsv : rsvField w = 0)
    (fields : i.fields = (opcField w, modField w)) : encode i = w := by
  rw [eq_iff_fields_eq, rsvField_encode, modField_encode, opcField_encode, rsv, fields]
  exact ⟨rfl, rfl, rfl⟩

/-! ## A modifier field in the low bits of `MOD` (30_encoding.md R142) -/

theorem extractLsb'_setWidth_eq_self {n : Nat} (x : BitVec n) (h : n ≤ 8) : (x.setWidth 8).extractLsb' 0 n = x :=
  (BitVec.extractLsb'_setWidth_of_le (by omega)).trans BitVec.extractLsb'_eq_self

theorem setWidth_and_eq_zero {n : Nat} (x : BitVec n) {reserved : BitVec 8} (low : reserved.setWidth n = 0) :
    x.setWidth 8 &&& reserved = 0 := by
  refine BitVec.eq_of_getLsbD_eq fun b hb => ?_
  by_cases field : b < n
  · have clear := congrArg (fun v => v.getLsbD b) low
    simp only [BitVec.getLsbD_setWidth, field, decide_true, Bool.true_and] at clear
    simp [clear]
  · simp [BitVec.getLsbD_of_ge x b (by omega)]

theorem setWidth_extractLsb'_eq_self {n : Nat} {m reserved : BitVec 8}
    (high : ∀ b, n ≤ b → b < 8 → reserved.getLsbD b = true) (clear : m &&& reserved = 0) :
    (m.extractLsb' 0 n).setWidth 8 = m := by
  refine BitVec.eq_of_getLsbD_eq fun b hb => ?_
  by_cases field : b < n
  · simp [field, hb]
  · have bit := congrArg (fun v => v.getLsbD b) clear
    simp only [BitVec.getLsbD_and, high b (by omega) hb, Bool.and_true] at bit
    simp [field, bit]

theorem bit_kindField {m : BitVec 8} (clear : m &&& reservedFS = 0) : (kindField m).bit = m := by
  revert m
  decide +kernel

theorem fqModifier_fields {m : BitVec 8} (clear : m &&& reservedFQ = 0) : fqModifier (bpsField m) (cplxField m) = m := by
  revert m
  decide +kernel

/-! ## The opcode map both ways (30_encoding.md R145) -/

/-- The map names a command by its own fields, none of whose reserved bits is set. -/
theorem opcodeMap_fields (i : Instr) :
    ∃ reserved, opcodeMap i.fields.1 i.fields.2 = some (reserved, i) ∧ i.fields.2 &&& reserved = 0 := by
  have digits (d : BitVec 5) : digitsField (d.setWidth 8) = d := extractLsb'_setWidth_eq_self d (by decide)
  have length (n : BitVec 7) : lengthField (n.setWidth 8) = n := extractLsb'_setWidth_eq_self n (by decide)
  have fid (f : BitVec 4) : fidField (f.setWidth 8) = f := extractLsb'_setWidth_eq_self f (by decide)
  have fq (b : BitVec 2) (x : Bool) : bpsField (fqModifier b x) = b ∧ cplxField (fqModifier b x) = x ∧
      fqModifier b x &&& reservedFQ = 0 := by
    revert b x
    decide
  cases i with
  | nop | bcdDec | bcdDeca | crcSetpoly | hdrLd | hdrSt | hdrVal | hdrCrcupd | hdrGett | hdrSett | hdrEpoch | hdrEq =>
    exact ⟨reservedF0, rfl, rfl⟩
  | bcdEnc d | bcdEnca d =>
    exact ⟨reservedFD, by simp [Instr.fields, opcodeMap, digits], setWidth_and_eq_zero d rfl⟩
  | crcGen n | crcChk n | crcGenr n | crcChkr n =>
    exact ⟨reservedFL, by simp [Instr.fields, opcodeMap, length], setWidth_and_eq_zero n rfl⟩
  | hdrRdf f | hdrWrf f =>
    exact ⟨reservedFF, by simp [Instr.fields, opcodeMap, fid], setWidth_and_eq_zero f rfl⟩
  | hdrSize k => cases k <;> exact ⟨reservedFS, rfl, rfl⟩
  | qDec b x | qEnc b x =>
    obtain ⟨bps, cplx, clear⟩ := fq b x
    exact ⟨reservedFQ, by simp [Instr.fields, opcodeMap, bps, cplx], clear⟩

/-- A command the map names has the fields it was named by, when no reserved bit is set. -/
theorem fields_of_opcodeMap {opc m reserved : BitVec 8} {i : Instr} (named : opcodeMap opc m = some (reserved, i))
    (clear : m &&& reserved = 0) : i.fields = (opc, m) := by
  have plain (h : m &&& reservedF0 = 0) : m = 0 := BitVec.and_allOnes.symm.trans h
  have digits (h : m &&& reservedFD = 0) : (digitsField m).setWidth 8 = m :=
    setWidth_extractLsb'_eq_self (by decide) h
  have length (h : m &&& reservedFL = 0) : (lengthField m).setWidth 8 = m :=
    setWidth_extractLsb'_eq_self (by decide) h
  have fid (h : m &&& reservedFF = 0) : (fidField m).setWidth 8 = m :=
    setWidth_extractLsb'_eq_self (by decide) h
  unfold opcodeMap at named
  split at named <;> cases named
  case h_1 | h_2 | h_4 | h_6 | h_11 | h_12 | h_15 | h_16 | h_17 | h_18 | h_19 | h_21 => exact congrArg (Prod.mk _) (plain clear).symm
  case h_3 | h_5 => exact congrArg (Prod.mk _) (digits clear)
  case h_7 | h_8 | h_9 | h_10 => exact congrArg (Prod.mk _) (length clear)
  case h_13 | h_14 => exact congrArg (Prod.mk _) (fid clear)
  case h_20 => exact congrArg (Prod.mk _) (bit_kindField clear)
  case h_22 | h_23 => exact congrArg (Prod.mk _) (fqModifier_fields clear)

/-! ## Decoding and encoding (30_encoding.md R146) -/

/-- Settles O1: the decoder finds the command at its own opcode, with no reserved bit in the way. -/
theorem decodeOfEncode : Obligations.DecodeOfEncode := by
  intro i wf
  obtain ⟨reserved, named, clear⟩ := opcodeMap_fields i
  simp [decode, named, clear, wf]

theorem decode_eq_ok {w : Word32} {i : Instr} (h : decode w = .ok i) :
    ∃ reserved, opcodeMap (opcField w) (modField w) = some (reserved, i) ∧ rsvField w = 0 ∧
      modField w &&& reserved = 0 ∧ i.wellFormed = true := by
  unfold decode at h
  split at h
  case h_1 => cases h
  case h_2 reserved j named =>
    split_ifs at h with illegal wf
    cases h
    rw [not_or, not_not, not_not] at illegal
    exact ⟨reserved, named, illegal.1, illegal.2, wf⟩

/-- Settles O2: a word's reserved bits are 0 and its other fields are its command's. -/
theorem encodeOfDecode : Obligations.EncodeOfDecode := by
  intro w i h
  obtain ⟨reserved, named, rsv, clear, wf⟩ := decode_eq_ok h
  exact ⟨wf, encode_eq_of_fields rsv (fields_of_opcodeMap named clear)⟩

/-- Settles O3: each word is a command's encoding, or decodes by evaluation. -/
theorem exampleWordsDecode : Obligations.ExampleWordsDecode :=
  ⟨rfl, rfl, rfl, rfl, rfl, rfl, rfl, rfl⟩

end Sys2Proof

/-! The order of events (20_memory.md R113), and the statements O5 to O7 and O25 about a single step. -/

namespace Sys2Proof.Machine

/-- Settles O5. -/
theorem stepRunsDecodedCommand : Obligations.StepRunsDecodedCommand := by
  intro s i busy decoded
  refine ⟨fun last => ?_, fun es next => ?_⟩
  · rw [step_last last, engineTurn_busy busy, engineStep_command decoded]
  · exact (step_engine next).trans
      ((engineTurn_busy (s := { s with events := es }) busy).trans (engineStep_command decoded))

/-- Settles O6. -/
theorem stepPerformsHostAccess : Obligations.StepPerformsHostAccess := by
  refine fun s => ⟨fun x es next => step_host next, fun idle last => ?_, fun idle es next => ?_⟩
  · rw [step_last last, engineTurn_idle idle]
  · exact (step_engine next).trans (engineTurn_idle (s := { s with events := es }) idle)

/-- A placed command is run by the next step, the events behind it left as they were. -/
theorem step_placeCommand (w : Word32) (s : State) : step (placeCommand w s) = engineStep (acceptCommand w s) := by
  cases next : s.events with
  | nil =>
    have last : (placeCommand w s).events = [] := by simp [placeCommand, engineFirst, next]
    have same : placeCommand w s = acceptCommand w s := by simp [placeCommand, acceptCommand, engineFirst, next]
    rw [step_last last, same, engineTurn_busy (acceptCommand_busy w s)]
  | cons e es =>
    have engine : (placeCommand w s).events = .engine :: e :: es := by simp [placeCommand, engineFirst, next]
    have same : { placeCommand w s with events := e :: es } = acceptCommand w s := by
      simp [placeCommand, acceptCommand, next]
    rw [step_engine engine, same, engineTurn_busy (acceptCommand_busy w s)]

/-- Settles O7. -/
theorem placedWordRunsNext : Obligations.PlacedWordRunsNext := by
  intro s nbits w i named
  unfold decodeTableWord at named
  split at named
  case h_1 j decoded =>
    cases named
    rw [State.withFetchWord, step_placeCommand]
    exact engineStep_command decoded
  case h_2 => cases named

/-- Settles O25. -/
theorem nopOnlyCompletes : Obligations.NopOnlyCompletes := ⟨rfl, fun _ => rfl⟩

end Sys2Proof.Machine

/-! What every command can do (60_exceptions.md R410): an error report, or the writes its rules name, and the statements
O12 to O14 about every command. -/

namespace Sys2Proof.Machine

/-! ## The writes a command commits -/

/-- The registers and memories that a command's rules name beside `RES0` (44_system.md R376, R377). -/
structure Footprint where
  poly : Bool := false
  hdr : Bool := false
  dmem : Bool := false
  res1 : Bool := false
  res2 : Bool := false

/-- The footprint of each command. -/
def footprint : Instr → Footprint
  | .nop | .bcdDec | .bcdEnc _ | .hdrRdf _ | .hdrEq => {}
  | .bcdDeca | .bcdEnca _ | .hdrSt => { dmem := true }
  | .crcSetpoly => { poly := true }
  | .crcGen _ | .qDec _ _ | .qEnc _ _ => { dmem := true, res1 := true }
  | .crcChk _ | .crcChkr _ | .hdrVal | .hdrGett | .hdrEpoch => { res1 := true, res2 := true }
  | .crcGenr _ | .hdrSize _ => { res1 := true }
  | .hdrLd | .hdrCrcupd | .hdrSett => { hdr := true }
  | .hdrWrf _ => { hdr := true, res1 := true }

/-- `w` is `s` with the writes of a command of footprint `f`: `POLY` stays legal, and what is stored in DMEM is an
array that passed its check. -/
structure Commits (f : Footprint) (s w : State) : Prop where
  frame : w = { s with
    res0 := w.res0, res1 := w.res1, res2 := w.res2, poly := w.poly, hdr := w.hdr, dmem := w.dmem }
  poly_kept : f.poly = false → w.poly = s.poly
  hdr_kept : f.hdr = false → w.hdr = s.hdr
  dmem_kept : f.dmem = false → w.dmem = s.dmem
  res1_kept : f.res1 = false → w.res1 = s.res1
  res2_kept : f.res2 = false → w.res2 = s.res2
  poly_legal : w.poly = s.poly ∨ 2 ≤ w.poly.toNat
  dmem_stored : w.dmem = s.dmem ∨
    ∃ a k n vs, arrayOk a k n = true ∧ vs.length = k ∧ w.dmem = writeArray s.dmem a n vs

/-- A command of footprint `f` ends in an error of R401's table, `END_OF_STREAM` apart, or commits its writes. -/
def Completes (f : Footprint) (s : State) (r : Result) : Prop :=
  (∃ e info val, e ≠ .endOfStream ∧ r = raise s e info val) ∨ ∃ w, Commits f s w ∧ r = succeed w

section

variable {f : Footprint} {s : State}

theorem completes_raise {e : CmdError} (h : e ≠ .endOfStream) (info val : Word64) :
    Completes f s (raise s e info val) := .inl ⟨e, info, val, h, rfl⟩

theorem completes_succeed {w : State} (h : Commits f s w) : Completes f s (succeed w) := .inr ⟨w, h, rfl⟩

/-- A check, with what it reports and what it guards. -/
theorem completes_ite {p : Prop} [Decidable p] {r q : Result} (hr : p → Completes f s r)
    (hq : ¬ p → Completes f s q) : Completes f s (if p then r else q) := by
  split
  case isTrue h => exact hr h
  case isFalse h => exact hq h

theorem commits_registers (r0 r1 r2 : Word64) (hdr : Header) (h1 : f.res1 = false → r1 = s.res1)
    (h2 : f.res2 = false → r2 = s.res2) (hh : f.hdr = false → hdr = s.hdr) :
    Commits f s { s with res0 := r0, res1 := r1, res2 := r2, hdr := hdr } :=
  ⟨rfl, fun _ => rfl, hh, fun _ => rfl, h1, h2, .inl rfl, .inl rfl⟩

theorem commits_res0 (r0 : Word64) : Commits f s { s with res0 := r0 } :=
  commits_registers r0 s.res1 s.res2 s.hdr (fun _ => rfl) (fun _ => rfl) fun _ => rfl

theorem commits_stored {a k n : Nat} {vs : List Nat} (checked : arrayOk a k n = true) (size : vs.length = k)
    (names : f.dmem = true) (r0 r1 : Word64) (h1 : f.res1 = false → r1 = s.res1) :
    Commits f s { s with dmem := writeArray s.dmem a n vs, res0 := r0, res1 := r1 } :=
  ⟨rfl, fun _ => rfl, fun _ => rfl, fun h => Bool.noConfusion (names.symm.trans h), h1, fun _ => rfl, .inl rfl,
    .inr ⟨a, k, n, vs, checked, size, rfl⟩⟩

theorem commits_setPolynomial {p : Config.PolyWord} (legal : 2 ≤ p.toNat) (names : f.poly = true) :
    Commits f s (setPolynomial p s) :=
  ⟨rfl, fun h => Bool.noConfusion (names.symm.trans h), fun _ => rfl, fun _ => rfl, fun _ => rfl, fun _ => rfl,
    .inr legal, .inl rfl⟩

/-! ## What the units' shared commands complete with -/

/-- A check of an array that was passed. -/
theorem arrayOk_of_not {a k n : Nat} (h : ¬ (!arrayOk a k n) = true) : arrayOk a k n = true := by simpa using h

theorem bcdArray_completes (names : f.dmem = true) (bad : Nat → Bool) {e : CmdError} (he : e ≠ .endOfStream)
    (convert : Nat → Nat) : Completes f s (bcdArray bad e convert s) := by
  rcases bcdArray_cases bad e convert s with ⟨-, run⟩ | ⟨-, -, run⟩ | ⟨-, checked, ⟨i, v, -, run⟩ | ⟨-, run⟩⟩
  all_goals rw [run]
  · exact completes_raise (by decide) _ _
  · exact completes_raise (by decide) _ _
  · exact completes_raise he _ _
  · exact completes_succeed
      (commits_stored checked (by simp [readArray_length]) names s.arg1 s.res1 fun _ => rfl)

theorem readFieldCommand_completes (p : Config.Profile) (fid : BitVec 4) :
    Completes f s (readFieldCommand p fid s) := by
  rcases readFieldCommand_cases p fid s with ⟨-, run⟩ | ⟨g, -, run⟩
  all_goals rw [run]
  · exact completes_raise (by decide) _ _
  · exact completes_succeed (commits_res0 _)

theorem writeFieldCommand_completes (p : Config.Profile) (fid : BitVec 4) (names : f.hdr = true ∧ f.res1 = true) :
    Completes f s (writeFieldCommand p fid s) := by
  rcases writeFieldCommand_cases p fid s with ⟨-, run⟩ | ⟨g, -, ⟨-, run⟩ | ⟨-, run⟩⟩
  all_goals rw [run]
  · exact completes_raise (by decide) _ _
  · exact completes_raise (by decide) _ _
  · exact completes_succeed (commits_registers _ _ s.res2 _ (by simp [names]) (fun _ => rfl) (by simp [names]))

section

variable (names : f.res1 = true ∧ f.res2 = true)
include names

theorem commits_results (r0 r1 r2 : Word64) : Commits f s { s with res0 := r0, res1 := r1, res2 := r2 } :=
  commits_registers r0 r1 r2 s.hdr (by simp [names]) (by simp [names]) fun _ => rfl

theorem getTimeCommand_completes (p : Config.Profile) : Completes f s (getTimeCommand p s) := by
  rw [getTimeCommand]
  cases headerTime p s.hdr with
  | error bad => exact completes_raise (by decide) _ _
  | ok t => exact completes_succeed (commits_results names _ _ _)

theorem epochCommand_completes (p : Config.Profile) : Completes f s (epochCommand p s) := by
  rw [epochCommand]
  cases headerTime p s.hdr with
  | error bad => exact completes_raise (by decide) _ _
  | ok t =>
    exact completes_ite (fun _ => completes_raise (by decide) _ _)
      fun _ => completes_succeed (commits_results names _ _ _)

end

theorem setTimeCommand_completes (p : Config.Profile) (names : f.hdr = true) :
    Completes f s (setTimeCommand p s) :=
  completes_ite (fun _ => completes_raise (by decide) _ _) fun _ =>
    completes_ite (fun _ => completes_raise (by decide) _ _) fun _ =>
      completes_succeed (commits_registers _ s.res1 s.res2 _ (fun _ => rfl) (fun _ => rfl) (by simp [names]))

/-- In this hardware's `FIXED` mode no request changes the header (42_header.md R311). -/
theorem sizeHeader_profile (b : Nat) (h : Header) :
    sizeHeader Config.profile.sizeMode b h = if b ≠ 10000 then .error 3 else .ok h := rfl

theorem sizeCommand_completes (k : SizeKind) (names : f.res1 = true) :
    Completes f s (sizeCommand Config.profile k s) := by
  rw [sizeCommand]
  cases payloadOf k s.arg0.toNat with
  | error reason => exact completes_raise (by decide) _ _
  | ok b =>
    dsimp only
    rw [sizeHeader_profile]
    split_ifs
    · exact completes_raise (by decide) _ _
    · exact completes_succeed (commits_registers _ _ s.res2 s.hdr (by simp [names]) (fun _ => rfl) fun _ => rfl)

section

variable (names : f.dmem = true ∧ f.res1 = true) (b : BitVec 2) (x : Bool)
include names

theorem execQDec_completes : Completes f s (execQDec b x s) := by
  refine completes_ite (fun _ => completes_raise (by decide) _ _) fun _ => ?_
  cases geometry s.arg3 b.toNat with
  | error reason => exact completes_raise (by decide) _ _
  | ok g =>
    refine completes_ite (fun _ => completes_raise (by decide) _ _) fun _ => ?_
    refine completes_ite (fun _ => completes_raise (by decide) _ _) fun _ => ?_
    refine completes_ite (fun _ => completes_raise (by decide) _ _) fun checked => ?_
    exact completes_succeed (commits_stored (arrayOk_of_not checked) (by simp) names.1 _ _ (by simp [names]))

theorem execQEnc_completes : Completes f s (execQEnc b x s) := by
  refine completes_ite (fun _ => completes_raise (by decide) _ _) fun _ => ?_
  cases geometry s.arg3 b.toNat with
  | error reason => exact completes_raise (by decide) _ _
  | ok g =>
    refine completes_ite (fun _ => completes_raise (by decide) _ _) fun _ => ?_
    refine completes_ite (fun _ => completes_raise (by decide) _ _) fun checked => ?_
    exact completes_succeed (commits_stored (arrayOk_of_not checked) (by simp) names.1 _ _ (by simp [names]))

end

end

/-! ## Every command -/

/-- Every command completes, and writes no more than its footprint. -/
theorem exec_completes (i : Instr) (s : State) : Completes (footprint i) s (exec i s) := by
  have failed {e : CmdError} {info val : Word64} (h : e ≠ .endOfStream) :
      Completes (footprint i) s (raise s e info val) := completes_raise h info val
  cases i with
  | nop => exact completes_succeed (commits_res0 s.res0)
  | bcdDec =>
    rw [exec, execBcdDec]
    split
    · exact failed (by decide)
    · exact completes_succeed (commits_res0 _)
  | bcdEnc d => exact completes_ite (fun _ => failed (by decide)) fun _ => completes_succeed (commits_res0 _)
  | bcdDeca => exact bcdArray_completes rfl _ (by decide) _
  | bcdEnca d => exact bcdArray_completes rfl _ (by decide) _
  | crcSetpoly =>
    refine completes_ite (fun _ => failed (by decide)) fun legal => ?_
    rw [bitLength_lt_two_iff, Nat.not_lt] at legal
    exact completes_succeed (commits_setPolynomial (by simpa using legal) rfl)
  | crcGen l =>
    refine completes_ite (fun _ => failed (by decide)) fun _ => ?_
    refine completes_ite (fun _ => failed (by decide)) fun checked => ?_
    exact completes_succeed (commits_stored (arrayOk_of_not checked) (by simp) rfl _ _ nofun)
  | crcChk l =>
    refine completes_ite (fun _ => failed (by decide)) fun _ => ?_
    refine completes_ite (fun _ => failed (by decide)) fun _ => ?_
    exact completes_succeed (commits_results ⟨rfl, rfl⟩ _ _ _)
  | crcGenr m => exact completes_succeed (commits_registers _ _ s.res2 s.hdr nofun (fun _ => rfl) fun _ => rfl)
  | crcChkr m =>
    exact completes_ite (fun _ => failed (by decide)) fun _ => completes_succeed (commits_results ⟨rfl, rfl⟩ _ _ _)
  | hdrLd =>
    refine completes_ite (fun _ => failed (by decide)) fun _ => ?_
    exact completes_succeed (commits_registers s.res0 s.res1 s.res2 _ (fun _ => rfl) (fun _ => rfl) nofun)
  | hdrSt =>
    refine completes_ite (fun _ => failed (by decide)) fun checked => ?_
    exact completes_succeed
      (commits_stored (arrayOk_of_not checked) (by simp [Header.words]) rfl s.res0 s.res1 fun _ => rfl)
  | hdrRdf fid => exact readFieldCommand_completes _ _
  | hdrWrf fid => exact writeFieldCommand_completes _ _ ⟨rfl, rfl⟩
  | hdrVal => exact completes_succeed (commits_results ⟨rfl, rfl⟩ _ _ _)
  | hdrCrcupd =>
    exact completes_succeed (commits_registers _ s.res1 s.res2 _ (fun _ => rfl) (fun _ => rfl) nofun)
  | hdrGett => exact getTimeCommand_completes ⟨rfl, rfl⟩ _
  | hdrSett => exact setTimeCommand_completes _ rfl
  | hdrEpoch => exact epochCommand_completes ⟨rfl, rfl⟩ _
  | hdrSize k => exact sizeCommand_completes k rfl
  | hdrEq => exact completes_ite (fun _ => failed (by decide)) fun _ => completes_succeed (commits_res0 _)
  | qDec b x => exact execQDec_completes ⟨rfl, rfl⟩ b x
  | qEnc b x => exact execQEnc_completes ⟨rfl, rfl⟩ b x

/-- All a command can do: report an error over the state before it, or complete over its committed writes. -/
theorem exec_cases {i : Instr} {s t : State} (run : exec i s = .next t) :
    (∃ e info val, e ≠ .endOfStream ∧ t = errored s e info val) ∨ ∃ w, Commits (footprint i) s w ∧ t = completed w := by
  rcases exec_completes i s with ⟨e, info, val, he, failed⟩ | ⟨w, commits, ok⟩
  · exact .inl ⟨e, info, val, he, Host.Outcome.next.inj (run.symm.trans failed)⟩
  · exact .inr ⟨w, commits, Host.Outcome.next.inj (run.symm.trans ok)⟩

theorem mem_codeRows (e : CmdError) : (e, errorCode e) ∈ Safety.codeRows := by cases e <;> decide

theorem errorCode_of_mem_codeRows : ∀ r ∈ Safety.codeRows, errorCode r.1 = r.2 := by decide

/-- Settles O12. -/
theorem commandCompletesPrecisely : Obligations.CommandCompletesPrecisely := by
  refine ⟨errorCode_of_mem_codeRows, fun s info val r row => ?_, fun _ => rfl, fun i s => ?_⟩
  · rw [← errorCode_of_mem_codeRows r row]
    rfl
  · rcases exec_completes i s with ⟨e, info, val, he, failed⟩ | ⟨w, -, ok⟩
    · exact .inl ⟨e, errorCode e, info, val, mem_codeRows e, he, failed⟩
    · exact .inr ⟨completed w, ok, rfl, rfl, rfl, rfl, rfl, rfl⟩

/-- Settles O13: an error report and the writes of a command leave all that a host sets. -/
theorem commandKeepsHostState : Obligations.CommandKeepsHostState := by
  intro i s t run
  rcases exec_cases run with ⟨e, info, val, -, rfl⟩ | ⟨w, commits, rfl⟩
  · exact ⟨rfl, rfl, rfl, rfl, rfl, rfl, rfl, rfl, rfl, rfl, rfl, rfl⟩
  · rw [commits.frame]
    exact ⟨rfl, rfl, rfl, rfl, rfl, rfl, rfl, rfl, rfl, rfl, rfl, rfl⟩

/-- What a footprint does not name is kept, by an error too. -/
theorem exec_keeps {i : Instr} {s t : State} (run : exec i s = .next t) :
    ((footprint i).poly = false → t.poly = s.poly) ∧ ((footprint i).dmem = false → t.dmem = s.dmem) ∧
    ((footprint i).hdr = false → t.hdr = s.hdr) ∧ ((footprint i).res2 = false → t.res2 = s.res2) ∧
    ((footprint i).res1 = false → t.res1 = s.res1) := by
  rcases exec_cases run with ⟨e, info, val, -, rfl⟩ | ⟨w, commits, rfl⟩
  · exact ⟨fun _ => rfl, fun _ => rfl, fun _ => rfl, fun _ => rfl, fun _ => rfl⟩
  · exact ⟨commits.poly_kept, commits.dmem_kept, commits.hdr_kept, commits.res2_kept, commits.res1_kept⟩

/-! ### What the footprints name -/

theorem footprint_poly {i : Instr} : (footprint i).poly = true ↔ i = .crcSetpoly := by
  cases i <;> simp [footprint]

theorem footprint_dmem {i : Instr} : (footprint i).dmem = true ↔ i = .bcdDeca ∨ (∃ d, i = .bcdEnca d) ∨
    (∃ n, i = .crcGen n) ∨ i = .hdrSt ∨ (∃ b x, i = .qDec b x) ∨ ∃ b x, i = .qEnc b x := by
  cases i <;> simp [footprint]

theorem footprint_hdr {i : Instr} : (footprint i).hdr = true ↔
    i = .hdrLd ∨ (∃ f, i = .hdrWrf f) ∨ i = .hdrCrcupd ∨ i = .hdrSett := by
  cases i <;> simp [footprint]

theorem footprint_res2 {i : Instr} : (footprint i).res2 = true ↔
    (∃ n, i = .crcChk n) ∨ (∃ n, i = .crcChkr n) ∨ i = .hdrVal ∨ i = .hdrGett ∨ i = .hdrEpoch := by
  cases i <;> simp [footprint]

theorem footprint_res1 {i : Instr} : (footprint i).res1 = true ↔ (∃ n, i = .crcGen n) ∨ (∃ n, i = .crcChk n) ∨
    (∃ n, i = .crcGenr n) ∨ (∃ n, i = .crcChkr n) ∨ (∃ f, i = .hdrWrf f) ∨ i = .hdrVal ∨ i = .hdrGett ∨
    i = .hdrEpoch ∨ (∃ k, i = .hdrSize k) ∨ (∃ b x, i = .qDec b x) ∨ ∃ b x, i = .qEnc b x := by
  cases i <;> simp [footprint]

/-- Settles O14: a command apart from those listed has a footprint that does not name the register. -/
theorem commandWritesOnlyWhatItNames : Obligations.CommandWritesOnlyWhatItNames := by
  intro i s t run
  obtain ⟨poly, dmem, hdr, res2, res1⟩ := exec_keeps run
  rw [← Bool.not_eq_true, footprint_poly] at poly
  rw [← Bool.not_eq_true, footprint_dmem] at dmem
  rw [← Bool.not_eq_true, footprint_hdr] at hdr
  rw [← Bool.not_eq_true, footprint_res2] at res2
  rw [← Bool.not_eq_true, footprint_res1] at res1
  push Not at dmem hdr res2 res1
  exact ⟨poly, fun h1 h2 h3 h4 h5 h6 => dmem ⟨h1, h2, h3, h4, h5, h6⟩, fun h1 h2 h3 h4 => hdr ⟨h1, h2, h3, h4⟩,
    fun h1 h2 h3 h4 h5 => res2 ⟨h1, h2, h3, h4, h5⟩,
    fun h1 h2 h3 h4 h5 h6 h7 h8 h9 h10 h11 => res1 ⟨h1, h2, h3, h4, h5, h6, h7, h8, h9, h10, h11⟩⟩

end Sys2Proof.Machine

/-! All that a host access can do (20_memory.md R104 to R109, 70_reset_and_hazards.md R461, R462), and the statements O17
and O18 about where an access goes and which accesses are refused. -/

namespace Sys2Proof.Machine

open Safety

/-! ## The two windows (20_memory.md R104, R111) -/

/-- Settles O17: relative to `REG_BASE`, the register space starts at 0 and DMEM at 0x10000. -/
theorem hostWindowsAreDecoded : Obligations.HostWindowsAreDecoded := by
  intro addr n op s
  have dmemBase : Config.dmemBase = Config.regBase + 65536 := rfl
  have reg (o : Nat) : accessAt (Config.regBase + o) n op = regAccessAt o n op := by
    simp [accessAt, regAccessAt]
  have dmem (a : Nat) : accessAt (Config.dmemBase + a) n op = dmemAccessAt a n op := by
    simp only [accessAt, dmemAccessAt, HostAccess.mk.injEq, and_true]
    omega
  refine ⟨?_, ?_, fun outside => ?_⟩
  · intro o ho e
    rw [e, reg, hostAccess_reg ho]
  · intro a ha e
    rw [e, dmem, hostAccess_dmem ha]
  · have nowhere : target (accessAt addr n op).rel = .undecoded := by
      simp only [target_eq, accessAt]
      rw [if_neg (by omega), if_neg (by omega)]
    simp only [hostAccess, nowhere]
    rfl

/-! ## Illegal accesses (20_memory.md R105 to R107) -/

/-- An illegal access sets `HERR` and does nothing else; an illegal read answers 0. -/
theorem hostAccess_of_illegal {x : HostAccess} (illegal : IllegalAccess x) (s : State) :
    hostAccess x s = { s with herr := true, response := if x.op = .read then some 0 else none } := by
  have refused (op : HostOp) :
      illegalAccess op s = { s with herr := true, response := if op = .read then some 0 else none } := by
    cases op <;> rfl
  rcases access_cases x with ⟨o, ho, e⟩ | ⟨a, ha, e⟩ | ⟨-, legal⟩
  · generalize x.width = n, x.op = op at e ⊢
    subst e
    rw [hostAccess_reg ho]
    rcases (illegalAccess_reg ho n op).1 illegal with shape | ⟨⟨d, rfl⟩, readOnly⟩
    · rw [regAccess_illegal shape, refused]
    · cases shape : regLegal o n with
      | false => rw [regAccess_illegal shape, refused]
      | true =>
        rw [regAccess_write shape, regWrite_readOnly readOnly]
        rfl
  · generalize x.width = n, x.op = op at e ⊢
    subst e
    rw [hostAccess_dmem ha, dmemAccess_illegal ((illegalAccess_dmem ha n op).1 illegal), refused]
  · exact absurd illegal legal

/-! ## Legal accesses -/

/-- What a legal access can leave of the state `s`: an answer, or the effect of a write. -/
inductive LegalEffect (s : State) : HostOp → State → Prop where
  /-- A read of a present value, or of an address BBCE does not decode. -/
  | answered (r : Option Word64) : LegalEffect s .read { s with response := r }
  /-- A read that R462 leaves unconstrained. -/
  | drawn (n : HostWidth) : s.busy = true → LegalEffect s .read (respondAny n s)
  /-- A write without effect. -/
  | ignored (d : Word64) : LegalEffect s (.write d) (noResponse s)
  /-- A write that R461 drops. -/
  | dropped (d : Word64) : s.busy = true → LegalEffect s (.write d) (dropWrite (noResponse s))
  | ctrl (d : Word64) (v : Word32) : LegalEffect s (.write d) (writeCtrl v (noResponse s))
  | status (d : Word64) (v : Word32) : LegalEffect s (.write d) (writeStatus v (noResponse s))
  | accepted (d : Word64) (w : Word32) : s.busy = false → LegalEffect s (.write d) (acceptCommand w (noResponse s))
  /-- A write of an argument or header register. -/
  | written (d a0 a1 a2 a3 : Word64) (hdr : Header) : s.busy = false →
    LegalEffect s (.write d) { noResponse s with arg0 := a0, arg1 := a1, arg2 := a2, arg3 := a3, hdr := hdr }
  | stored (d : Word64) {a : Nat} {n : HostWidth} : s.busy = false → dmemLegal a n = true →
    LegalEffect s (.write d) { noResponse s with dmem := memWrite s.dmem a n.bytes d.toNat }

/-- All that a legal access can do. -/
theorem hostAccess_of_legal {x : HostAccess} (legal : ¬ IllegalAccess x) (s : State) :
    LegalEffect s x.op (hostAccess x s) := by
  rcases access_cases x with ⟨o, ho, e⟩ | ⟨a, ha, e⟩ | ⟨nowhere, -⟩
  · generalize x.width = n, x.op = op at e ⊢
    subst e
    rw [hostAccess_reg ho]
    rw [illegalAccess_reg ho, not_or, Bool.not_eq_false] at legal
    obtain ⟨shape, writable⟩ := legal
    cases op with
    | read =>
      rw [regAccess_read shape, regRead]
      split
      case isTrue busy => exact .drawn n (Bool.and_eq_true_iff.1 busy).1
      case isFalse => exact .answered _
    | write d =>
      have writable : readOnly (regAt (o / 8)) = false := by simpa using writable
      rw [regAccess_write shape]
      rcases regWrite_cases writable (halfOf o n) d (noResponse s) with
        e | ⟨e, busy⟩ | ⟨v, -, -, e⟩ | ⟨v, -, -, e⟩ | ⟨w, -, -, idle, e⟩ | ⟨idle, a0, a1, a2, a3, hdr, e⟩
      all_goals rw [e]
      · exact .ignored d
      · exact .dropped d busy
      · exact .ctrl d v
      · exact .status d v
      · exact .accepted d w idle
      · exact .written d a0 a1 a2 a3 hdr idle
  · generalize x.width = n, x.op = op at e ⊢
    subst e
    rw [hostAccess_dmem ha]
    rw [illegalAccess_dmem ha, Bool.not_eq_false] at legal
    cases op with
    | read =>
      rw [dmemAccess_read legal]
      split
      case isTrue busy => exact .drawn n busy
      case isFalse => exact .answered _
    | write d =>
      rw [dmemAccess_write legal]
      split
      case isTrue busy => exact .dropped d busy
      case isFalse idle => exact .stored d (Bool.not_eq_true _ ▸ idle) legal
  · simp only [hostAccess, nowhere]
    cases x.op with
    | read => exact .answered none
    | write d => exact .ignored d

/-- No legal access sets `HERR`. -/
theorem herr_of_legalEffect {s t : State} {op : HostOp} (effect : LegalEffect s op t) (set : t.herr = true) :
    s.herr = true := by
  cases effect with
  | ctrl d v =>
    rw [writeCtrl] at set
    split at set
    · exact Bool.noConfusion set
    · exact set
  | status d v => exact (Bool.and_eq_true_iff.1 set).1
  | answered | drawn | ignored | dropped | accepted | written | stored => exact set

/-- Settles O18. -/
theorem hostErrorExactlyOnIllegalAccess : Obligations.HostErrorExactlyOnIllegalAccess := by
  refine ⟨fun x s illegal => hostAccess_of_illegal illegal s,
    fun x s legal => herr_of_legalEffect (hostAccess_of_legal legal s), fun i s t run => ?_⟩
  obtain ⟨-, -, -, -, -, -, -, -, herr, -⟩ := commandKeepsHostState i s t run
  exact herr

end Sys2Proof.Machine

/-! Accesses slot by slot (10_state.md R44, 20_memory.md R106), and the statements O10, O15 and O19 to O23 about the
registers a host reads and writes. -/

namespace Sys2Proof.Machine

open Safety

/-! ## The three accesses to a slot (20_memory.md R106) -/

section

variable {k : Nat} (slot : k < 32)
include slot

theorem hostAccess_read_whole (s : State) :
    hostAccess (regAccessAt (8 * k) .b8 .read) s = regRead (regAt k) .b8 .whole s := by
  rw [hostAccess_reg (by omega), regAccess_read (by simp [regLegal]), Nat.mul_div_cancel_left _ (by decide)]
  rfl

theorem hostAccess_read_low (s : State) :
    hostAccess (regAccessAt (8 * k) .b4 .read) s = regRead (regAt k) .b4 .low s := by
  rw [hostAccess_reg (by omega), regAccess_read (by simp [regLegal]; omega), Nat.mul_div_cancel_left _ (by decide),
    halfOf, if_pos (by simp)]
  nofun

theorem hostAccess_read_high (s : State) :
    hostAccess (regAccessAt (8 * k + 4) .b4 .read) s = regRead (regAt k) .b4 .high s := by
  rw [hostAccess_reg (by omega), regAccess_read (by simp [regLegal]; omega), show (8 * k + 4) / 8 = k by omega,
    halfOf, if_neg (by simp)]
  nofun

theorem hostAccess_write_whole (d : Word64) (s : State) :
    hostAccess (regAccessAt (8 * k) .b8 (.write d)) s = regWrite (regAt k) .whole d (noResponse s) := by
  rw [hostAccess_reg (by omega), regAccess_write (by simp [regLegal]), Nat.mul_div_cancel_left _ (by decide)]
  rfl

theorem hostAccess_write_low (d : Word64) (s : State) :
    hostAccess (regAccessAt (8 * k) .b4 (.write d)) s = regWrite (regAt k) .low d (noResponse s) := by
  rw [hostAccess_reg (by omega), regAccess_write (by simp [regLegal]; omega), Nat.mul_div_cancel_left _ (by decide),
    halfOf, if_pos (by simp)]
  nofun

theorem hostAccess_write_high (d : Word64) (s : State) :
    hostAccess (regAccessAt (8 * k + 4) .b4 (.write d)) s = regWrite (regAt k) .high d (noResponse s) := by
  rw [hostAccess_reg (by omega), regAccess_write (by simp [regLegal]; omega), show (8 * k + 4) / 8 = k by omega,
    halfOf, if_neg (by simp)]
  nofun

end

/-! ## Reads (10_state.md R44, 70_reset_and_hazards.md R462) -/

/-- A read of a register whose value R462 does not leave open. -/
theorem regRead_of_stable {r : Reg} {s : State} (stable : s.busy = false ∨ volatileWhileBusy r = false)
    (n : HostWidth) (h : Half) : regRead r n h s = { s with response := some (readHalf h (regValue r s)) } := by
  have fixed : ¬ (s.busy && volatileWhileBusy r) = true := by
    rcases stable with e | e <;> simp [e]
  rw [regRead, if_neg fixed]
  rfl

theorem response_read_whole {k : Nat} (slot : k < 32) {s : State}
    (stable : s.busy = false ∨ volatileWhileBusy (regAt k) = false) :
    (hostAccess (regAccessAt (8 * k) .b8 .read) s).response = some (regValue (regAt k) s) := by
  rw [hostAccess_read_whole slot, regRead_of_stable stable]
  rfl

/-- `STATUS` by the place of each bit (R48). -/
theorem statusWord_eq (s : State) : statusWord s = BitVec.ofNat 64
    (s.busy.toNat + 2 * s.done.toNat + 4 * s.err.toNat + 8 * s.ovr.toNat + 16 * s.herr.toNat) := by
  rw [statusWord]
  generalize s.busy = b0, s.done = b1, s.err = b2, s.ovr = b3, s.herr = b4
  revert b0 b1 b2 b3 b4
  decide

/-- `CTRL` by the place of each bit (R47). -/
theorem ctrlWord_eq (s : State) : ctrlWord s = BitVec.ofNat 64 (2 * s.ieDone.toNat + 4 * s.ieErr.toNat) := by
  rw [ctrlWord]
  generalize s.ieDone = b1, s.ieErr = b2
  revert b1 b2
  decide

/-- The slots that `readRows` lists, in its order: the registers but `CLEN`, then the reserved slots. -/
def readSlots : List Nat :=
  [0, 1, 2, 3, 4, 5, 6, 8, 9, 10, 11, 12, 13, 14, 16, 18, 19, 20, 21, 22, 23] ++ reservedOffsets.map (· / 8)

/-- Each row of the statements' map is a slot with its register's value. -/
theorem readRows_eq (s : State) : readRows s = readSlots.map fun k => (8 * k, regValue (regAt k) s) := by
  rw [readRows, ← statusWord_eq, ← ctrlWord_eq]
  rfl

theorem readSlots_lt : ∀ k ∈ readSlots, k < 32 := by decide

theorem volatileWhileBusy_regAt {k : Nat} (h : k < 32) :
    volatileWhileBusy (regAt k) = true ↔ 8 * k ∈ unconstrainedOffsets := by
  revert k
  decide

/-- What a read can leave. -/
theorem hostAccess_of_read {x : HostAccess} (read : x.op = .read) (s : State) :
    (IllegalAccess x ∧ hostAccess x s = { s with herr := true, response := some 0 }) ∨
    (¬ IllegalAccess x ∧ ((∃ r, hostAccess x s = { s with response := r }) ∨
      s.busy = true ∧ ∃ n, hostAccess x s = respondAny n s)) := by
  by_cases illegal : IllegalAccess x
  · refine .inl ⟨illegal, ?_⟩
    rw [hostAccess_of_illegal illegal, if_pos read]
  · have effect := hostAccess_of_legal illegal s
    rw [read] at effect
    refine .inr ⟨illegal, ?_⟩
    generalize hostAccess x s = t at effect
    cases effect with
    | answered r => exact .inl ⟨r, rfl⟩
    | drawn n busy => exact .inr ⟨busy, n, rfl⟩

/-- `CLEN` reads the check length (10_state.md R56). -/
theorem regValue_clen {s : State} {c : Nat} (h : HasCheckLength s.poly c) :
    regValue .clen s = BitVec.ofNat 64 c := by
  rw [regValue, checkLength_of h]

/-- Settles O20. -/
theorem readsHaveNoSideEffect : Obligations.ReadsHaveNoSideEffect := by
  refine ⟨fun x s read => ?_, fun s r row stable => ?_, fun s c idle h => ?_⟩
  · rcases hostAccess_of_read read s with ⟨illegal, e⟩ | ⟨legal, ⟨r, e⟩ | ⟨busy, n, e⟩⟩
    all_goals rw [e]
    · exact ⟨⟨_, _, rfl⟩, fun legal => absurd illegal legal, fun _ => rfl⟩
    · exact ⟨⟨_, _, rfl⟩, fun _ => rfl, fun _ => rfl⟩
    · exact ⟨⟨_, _, rfl⟩, fun _ => rfl, fun idle => by simp [busy] at idle⟩
  · rw [readRows_eq] at row
    obtain ⟨k, listed, rfl⟩ := List.mem_map.1 row
    have slot := readSlots_lt k listed
    have stable : s.busy = false ∨ volatileWhileBusy (regAt k) = false :=
      stable.imp_right fun h => Bool.eq_false_iff.2 fun v => h ((volatileWhileBusy_regAt slot).1 v)
    rw [hostAccess_read_whole slot, hostAccess_read_low slot, hostAccess_read_high slot]
    exact ⟨regRead_of_stable stable .b8 .whole, regRead_of_stable stable .b4 .low, regRead_of_stable stable .b4 .high⟩
  · have value : regValue (regAt 17) s = BitVec.ofNat 64 c := regValue_clen h
    have small := hasCheckLength_lt h
    have low : ((BitVec.ofNat 64 c).extractLsb' 0 32).setWidth 64 = BitVec.ofNat 64 c :=
      BitVec.eq_of_toNat_eq (by simp; omega)
    have high : ((BitVec.ofNat 64 c).extractLsb' 32 32).setWidth 64 = 0 :=
      BitVec.eq_of_toNat_eq (by simp [Nat.shiftRight_eq_div_pow]; omega)
    have whole8 := hostAccess_read_whole (k := 17) (by decide) s
    have low4 := hostAccess_read_low (k := 17) (by decide) s
    have high4 := hostAccess_read_high (k := 17) (by decide) s
    rw [regRead_of_stable (.inl idle), value] at whole8 low4 high4
    exact ⟨whole8, low4.trans (by rw [readHalf, low]), high4.trans (by rw [readHalf, high])⟩

/-- Settles O10: an idle machine answers each slot's register. -/
theorem resetRegisterValues : Obligations.ResetRegisterValues := by
  have answer {k : Nat} (slot : k < 32) :
      (hostAccess (regAccessAt (8 * k) .b8 .read) State.reset).response = some (regValue (regAt k) State.reset) :=
    response_read_whole slot (.inl rfl)
  have values : ∀ r ∈ resetRows ++ reservedOffsets.map fun o => (o, 0),
      r.1 / 8 < 32 ∧ 8 * (r.1 / 8) = r.1 ∧ regValue (regAt (r.1 / 8)) State.reset = r.2 := by decide
  have row {r : Nat × Word64} (listed : r ∈ resetRows ++ reservedOffsets.map fun o => (o, 0)) :
      (hostAccess (regAccessAt r.1 .b8 .read) State.reset).response = some r.2 := by
    obtain ⟨slot, offset, value⟩ := values r listed
    rw [← value, ← answer slot, offset]
  refine ⟨fun r listed => row (List.mem_append_left _ listed), fun o listed => ?_, rfl, fun _ => rfl⟩
  exact row (r := (o, 0)) (List.mem_append_right _ (List.mem_map_of_mem listed))

/-! ## Writes of `CTRL`, `STATUS` and `CMD` (10_state.md R47, R48, R52) -/

/-- Bits 31..0 of the write data. -/
theorem getLsbD_extractLsb'_low (d : Word64) {j : Nat} (hj : j < 32) : (d.extractLsb' 0 32).getLsbD j = d.getLsbD j := by
  simp [hj]

section

variable {n : HostWidth} (width : n = .b4 ∨ n = .b8) (d : Word64) (s : State)
include width

/-- A write of width 8 or of the low half reaches bits 31..0 of its slot. -/
theorem hostAccess_write_lowData {k : Nat} (slot : k < 32) :
    ∃ h, lowData h d = some (d.extractLsb' 0 32) ∧
      hostAccess (regAccessAt (8 * k) n (.write d)) s = regWrite (regAt k) h d (noResponse s) := by
  rcases width with rfl | rfl
  · exact ⟨.low, rfl, hostAccess_write_low slot d s⟩
  · exact ⟨.whole, rfl, hostAccess_write_whole slot d s⟩

theorem hostAccess_write_ctrl :
    hostAccess (regAccessAt 0x008 n (.write d)) s = writeCtrl (d.extractLsb' 0 32) (noResponse s) := by
  obtain ⟨h, data, e⟩ := hostAccess_write_lowData width d s (k := 1) (by decide)
  exact e.trans (by simp [regAt, regWrite, data])

theorem hostAccess_write_status :
    hostAccess (regAccessAt 0x010 n (.write d)) s = writeStatus (d.extractLsb' 0 32) (noResponse s) := by
  obtain ⟨h, data, e⟩ := hostAccess_write_lowData width d s (k := 2) (by decide)
  exact e.trans (by simp [regAt, regWrite, data])

theorem hostAccess_write_cmd :
    hostAccess (regAccessAt 0x030 n (.write d)) s =
      if s.busy then dropWrite (noResponse s) else acceptCommand (d.extractLsb' 0 32) (noResponse s) := by
  obtain ⟨h, data, e⟩ := hostAccess_write_lowData width d s (k := 6) (by decide)
  refine e.trans ?_
  simp only [regAt, regWrite, writeCmd, data]
  rfl

/-- A write of `CTRL` resets, or sets the two enables. -/
theorem hostAccess_write_ctrl_eq :
    hostAccess (regAccessAt 0x008 n (.write d)) s = if d.getLsbD 0
      then { State.reset with dmem := s.dmem, events := s.events, draws := s.draws }
      else { s with ieDone := d.getLsbD 1, ieErr := d.getLsbD 2, response := none } := by
  rw [hostAccess_write_ctrl width, writeCtrl]
  simp only [getLsbD_extractLsb'_low d (show 0 < 32 by decide),
    getLsbD_extractLsb'_low d (show 1 < 32 by decide), getLsbD_extractLsb'_low d (show 2 < 32 by decide)]
  rfl

/-- A write of `STATUS` clears the bits that are written 1. -/
theorem hostAccess_write_status_eq :
    hostAccess (regAccessAt 0x010 n (.write d)) s = { s with
      done := s.done && !d.getLsbD 1, err := s.err && !d.getLsbD 2, ovr := s.ovr && !d.getLsbD 3,
      herr := s.herr && !d.getLsbD 4, response := none } := by
  rw [hostAccess_write_status width, writeStatus]
  simp only [getLsbD_extractLsb'_low d (show 1 < 32 by decide),
    getLsbD_extractLsb'_low d (show 2 < 32 by decide), getLsbD_extractLsb'_low d (show 3 < 32 by decide),
    getLsbD_extractLsb'_low d (show 4 < 32 by decide)]
  rfl

end

/-- The high halves of the three hold nothing to write. -/
theorem hostAccess_write_high_control (d : Word64) (s : State) {k : Nat} (control : k = 1 ∨ k = 2 ∨ k = 6) :
    hostAccess (regAccessAt (8 * k + 4) .b4 (.write d)) s = { s with response := none } := by
  rw [hostAccess_write_high (by omega)]
  rcases control with rfl | rfl | rfl <;> rfl

/-- Settles O21. -/
theorem softResetRestoresRegisters : Obligations.SoftResetRestoresRegisters := by
  intro s n d width reset
  rw [hostAccess_write_ctrl_eq width, if_pos reset]

/-- Settles O22. -/
theorem commandWriteIsAccepted : Obligations.CommandWriteIsAccepted := by
  refine fun s d => ⟨fun n width idle => ?_, hostAccess_write_high_control d s (k := 6) (by decide)⟩
  have word : d.extractLsb' 0 32 = d.setWidth 32 := (BitVec.setWidth_eq_extractLsb' (by decide)).symm
  rw [hostAccess_write_cmd width, if_neg (by simp [idle]), word]
  refine ⟨rfl, ?_⟩
  exact response_read_whole (k := 6) (by decide) (.inr rfl)

/-! ## Writes while a command runs (70_reset_and_hazards.md R461) -/

theorem writeIdle_of_busy {s : State} (busy : s.busy = true) (f : State → State) : writeIdle f s = dropWrite s :=
  if_pos busy

theorem writeIdle_of_idle {s : State} (idle : s.busy = false) (f : State → State) : writeIdle f s = f s :=
  if_neg (by simp [idle])

/-- A write of an argument or header register, in any part, waits for no command: it is dropped. -/
theorem regWrite_of_busy {k : Nat} (operand : (8 ≤ k ∧ k < 12) ∨ (18 ≤ k ∧ k < 22)) (h : Half) (d : Word64) {s : State}
    (busy : s.busy = true) : regWrite (regAt k) h d s = dropWrite s := by
  have slots : k = 8 ∨ k = 9 ∨ k = 10 ∨ k = 11 ∨ k = 18 ∨ k = 19 ∨ k = 20 ∨ k = 21 := by omega
  rcases slots with rfl | rfl | rfl | rfl | rfl | rfl | rfl | rfl <;>
    simp only [regAt, regWrite, writeIdle_of_busy busy]

/-- Settles O19. -/
theorem writesWhileBusyAreDropped : Obligations.WritesWhileBusyAreDropped := by
  refine fun s d => ⟨fun busy => ⟨fun o n inSpace shape range => ?_, fun a n aligned fits => ?_⟩, fun n width => ?_,
    hostAccess_write_high_control d s (k := 1) (by decide), hostAccess_write_high_control d s (k := 2) (by decide),
    fun x write illegal => ?_⟩
  · by_cases cmd : o = 0x030
    · subst cmd
      have width : n = .b4 ∨ n = .b8 := shape.imp And.left And.left
      rw [hostAccess_write_cmd width, if_pos busy]
      rfl
    · have legal : regLegal o n = true := (regLegal_iff o n).2 shape
      rw [hostAccess_reg inSpace, regAccess_write legal, regWrite_of_busy (by omega) _ d (s := noResponse s) busy]
      rfl
  · have legal : dmemLegal a n = true := (dmemLegal_iff a n).2 ⟨aligned, fits⟩
    rw [hostAccess_dmem (lt_of_dmemLegal legal), dmemAccess_write legal, if_pos busy]
    rfl
  · exact ⟨hostAccess_write_ctrl_eq width d s, hostAccess_write_status_eq width d s⟩
  · rw [hostAccess_of_illegal illegal, if_neg (by simp [write])]

/-! ## Writes on an idle engine (10_state.md R53, R57) -/

theorem mergeHalves_whole (old d : Word64) : mergeHalves old .whole d = d :=
  BitVec.extractLsb'_append_extractLsb' (w := 32) (len := 32)

/-- What a row of `argRows` says of its slot: the write merges into the register, and the register reads back. -/
theorem argRows_slot : ∀ r ∈ argRows, ∃ k, k < 32 ∧ r.1 = 8 * k ∧ volatileWhileBusy (regAt k) = false ∧
    (∀ (s : State) (h : Half) (d : Word64), s.busy = false → regWrite (regAt k) h d (noResponse s) =
      { r.2.2 s (mergeHalves (r.2.1 s) h d) with response := none }) ∧
    ∀ (s : State) (v : Word64), regValue (regAt k) { r.2.2 s v with response := none } = v := by
  simp only [argRows, List.forall_mem_cons, List.not_mem_nil, false_implies, implies_true, and_true]
  refine ⟨⟨8, ?_⟩, ⟨9, ?_⟩, ⟨10, ?_⟩, ⟨11, ?_⟩⟩ <;>
    refine ⟨by decide, rfl, rfl, fun s h d idle => ?_, fun s v => rfl⟩ <;>
    simp only [regAt, regWrite, writeIdle_of_idle (s := noResponse s) idle] <;> rfl

/-- The same of `headerRows`: bits 31..0 replace the header word, the others hold nothing. -/
theorem headerRows_slot : ∀ r ∈ headerRows, ∃ k, k < 32 ∧ r.1 = 8 * k ∧
    (∀ (s : State) (h : Half) (d : Word64), s.busy = false → regWrite (regAt k) h d (noResponse s) =
      { s with hdr := s.hdr.setWord r.2 (mergeWord (s.hdr.word r.2) h d), response := none }) ∧
    ∀ s : State, regValue (regAt k) s = (s.hdr.word r.2).setWidth 64 := by
  simp only [headerRows, List.forall_mem_cons, List.not_mem_nil, false_implies, implies_true, and_true]
  refine ⟨⟨18, ?_⟩, ⟨19, ?_⟩, ⟨20, ?_⟩, ⟨21, ?_⟩⟩ <;>
    refine ⟨by decide, rfl, fun s h d idle => ?_, fun s => rfl⟩ <;>
    simp only [regAt, regWrite, writeIdle_of_idle (s := noResponse s) idle] <;> rfl

theorem setWidth_eq_zero_append (v : Word32) : v.setWidth 64 = 0#32 ++ v :=
  BitVec.setWidth_eq_append (by decide : 32 ≤ 64)

/-- Storing a word where it stands changes nothing. -/
theorem Header.setWord_word (h : Header) (w : Fin Config.hdrWords) : h.setWord w (h.word w) = h :=
  Header.ext_words fun v => by
    by_cases here : v = w
    · rw [here, Header.word_setWord_same]
    · rw [Header.word_setWord_other _ _ here]

/-- Settles O23. -/
theorem writtenRegistersReadBack : Obligations.WrittenRegistersReadBack := by
  refine fun s d idle => ⟨fun r row => ?_, fun r row => ⟨fun n width => ?_, ?_⟩⟩
  · obtain ⟨k, slot, offset, stable, write, value⟩ := argRows_slot r row
    rw [offset, hostAccess_write_whole slot, hostAccess_write_low slot, hostAccess_write_high slot,
      response_read_whole slot (.inr stable), write _ _ _ idle, write _ _ _ idle, write _ _ _ idle,
      mergeHalves_whole, value]
    exact ⟨rfl, rfl, rfl, rfl⟩
  · obtain ⟨k, slot, offset, write, value⟩ := headerRows_slot r row
    obtain ⟨h, data, e⟩ := hostAccess_write_lowData width d s slot
    refine ⟨s.hdr.setWord r.2 (d.extractLsb' 0 32), ?_, Header.word_setWord_same _ _ _,
      fun w other => Header.word_setWord_other _ _ other, ?_⟩
    · rw [offset, e, write _ _ _ idle, mergeWord, data]
      rfl
    · rw [offset, response_read_whole slot (.inl (by exact idle)), value, Header.word_setWord_same,
        setWidth_eq_zero_append]
  · obtain ⟨k, slot, offset, write, -⟩ := headerRows_slot r row
    rw [offset, hostAccess_write_high slot, write _ _ _ idle]
    simp only [mergeWord, lowData, Option.getD_none, Header.setWord_word]

/-! ## The interrupt level (60_exceptions.md R430, R431) -/

/-- Settles O15: completion sets `DONE`, and `ERR` as it fails; acceptance clears both. -/
theorem interruptFollowsCompletion : Obligations.InterruptFollowsCompletion := by
  refine ⟨fun i s t run => ?_, fun w s => rfl, fun s o h => rfl, fun s n d width => ⟨?_, fun set => ?_, fun reset => ?_,
    fun idle => ?_⟩⟩
  · obtain ⟨-, -, -, -, -, ieDone, ieErr, -⟩ := commandKeepsHostState i s t run
    have done : t.done = true := by
      rcases exec_cases run with ⟨e, info, val, -, rfl⟩ | ⟨w, -, rfl⟩ <;> rfl
    rw [irq, done, ieDone, ieErr, Bool.true_and]
  · rw [hostAccess_write_status_eq width]
    rfl
  · rw [hostAccess_write_ctrl_eq width, if_neg (set ▸ Bool.false_ne_true)]
    rfl
  · rw [hostAccess_write_ctrl_eq width, if_pos reset]
    rfl
  · rw [hostAccess_write_cmd width, if_neg (by simp [idle])]
    rfl

end Sys2Proof.Machine

/-! The invariant of 10_state.md R55, 60_exceptions.md R401 and R441 (statements O8 and O9), and that a pending command is
run or reset (70_reset_and_hazards.md R470, statement O11). -/

namespace Sys2Proof.Machine

open Safety

/-! ## What the invariant reads -/

/-- Codes 1 to 12, without that of `END_OF_STREAM` (60_exceptions.md R401). -/
theorem errorCode_known {e : CmdError} (he : e ≠ .endOfStream) :
    ((errorCode e).toNat ≤ 0x0C ∧ errorCode e ≠ 0x06) ∧ errorCode e ≠ 0 := by
  revert he
  cases e <;> decide

/-- The report after a success or a reset: no code. -/
theorem zero_code_known : (0 : BitVec 8).toNat ≤ 0x0C ∧ (0 : BitVec 8) ≠ 0x06 := by decide

section

variable {s t : State} (h : Invariant s)
include h

/-- A state with the same `POLY` and report keeps the invariant, when its memory and its flags do. -/
theorem invariant_of_report (canonical : t.dmem.wf) (inRange : t.dmem.inRange) (poly : t.poly = s.poly)
    (code : t.errCode = s.errCode) (info : t.errInfo = s.errInfo) (val : t.errVal = s.errVal)
    (err : t.err = true → s.err = true) (clean : t.busy = true → t.done = false ∧ t.err = false) : Invariant t where
  memory_canonical := canonical
  memory_in_range := inRange
  poly_legal := poly ▸ h.poly_legal
  code_known := code ▸ h.code_known
  success_report := by rw [code, info, val]; exact h.success_report
  error_has_code := fun e => code ▸ h.error_has_code (err e)
  busy_is_clean := clean

/-- The invariant reads neither the events, nor the answer, nor the count of draws, nor what the host alone sets. -/
theorem invariant_events (es : List Event) : Invariant { s with events := es } :=
  invariant_of_report h h.memory_canonical h.memory_in_range rfl rfl rfl rfl id h.busy_is_clean

/-! ## Host accesses -/

theorem invariant_softReset : Invariant (softReset s) where
  memory_canonical := h.memory_canonical
  memory_in_range := h.memory_in_range
  poly_legal := show 2 ≤ Config.polyReset.toNat by decide
  code_known := zero_code_known
  success_report := fun _ => ⟨rfl, rfl⟩
  error_has_code := nofun
  busy_is_clean := nofun

theorem invariant_of_legalEffect {op : HostOp} (effect : LegalEffect s op t) : Invariant t := by
  have kept {t : State} (dmem : t.dmem = s.dmem) :=
    invariant_of_report h (t := t) (dmem ▸ h.memory_canonical) (dmem ▸ h.memory_in_range)
  cases effect with
  | answered | drawn | ignored | dropped => exact kept rfl rfl rfl rfl rfl id h.busy_is_clean
  | ctrl d v =>
    rw [writeCtrl]
    split
    · exact invariant_softReset (kept rfl rfl rfl rfl rfl id h.busy_is_clean)
    · exact kept rfl rfl rfl rfl rfl id h.busy_is_clean
  | status d v =>
    refine kept rfl rfl rfl rfl rfl (fun err => (Bool.and_eq_true_iff.1 err).1) fun busy => ?_
    obtain ⟨done, err⟩ := h.busy_is_clean busy
    exact ⟨by simp [done], by simp [err]⟩
  | accepted d w idle => exact kept rfl rfl rfl rfl rfl nofun fun _ => ⟨rfl, rfl⟩
  | written d a0 a1 a2 a3 hdr idle => exact kept rfl rfl rfl rfl rfl id h.busy_is_clean
  | stored d idle legal =>
    exact invariant_of_report h (memWrite_wf h.memory_canonical _ _ _)
      (memWrite_inRange h.memory_in_range ((dmemLegal_iff _ _).1 legal).2 _) rfl rfl rfl rfl id h.busy_is_clean

theorem invariant_hostAccess (x : HostAccess) : Invariant (hostAccess x s) := by
  by_cases illegal : IllegalAccess x
  · rw [hostAccess_of_illegal illegal]
    exact invariant_of_report h h.memory_canonical h.memory_in_range rfl rfl rfl rfl id h.busy_is_clean
  · exact invariant_of_legalEffect h (hostAccess_of_legal illegal s)

/-! ## Commands -/

theorem invariant_errored {e : CmdError} (he : e ≠ .endOfStream) (info val : Word64) :
    Invariant (errored s e info val) where
  memory_canonical := h.memory_canonical
  memory_in_range := h.memory_in_range
  poly_legal := h.poly_legal
  code_known := (errorCode_known he).1
  success_report := fun ok => absurd ok (errorCode_known he).2
  error_has_code := fun _ => (errorCode_known he).2
  busy_is_clean := nofun

/-- The writes a command commits leave memory canonical and `POLY` legal. -/
theorem invariant_completed {f : Footprint} {w : State} (commits : Commits f s w) : Invariant (completed w) where
  memory_canonical := by
    rcases commits.dmem_stored with same | ⟨a, k, n, vs, -, -, stored⟩
    · exact completed_dmem w ▸ same ▸ h.memory_canonical
    · exact completed_dmem w ▸ stored ▸ writeArray_wf h.memory_canonical a n vs
  memory_in_range := by
    rcases commits.dmem_stored with same | ⟨a, k, n, vs, checked, size, stored⟩
    · exact completed_dmem w ▸ same ▸ h.memory_in_range
    · exact completed_dmem w ▸ stored ▸ writeArray_inRange_of_arrayOk h.memory_in_range checked size
  poly_legal := by
    rcases commits.poly_legal with same | legal
    · exact completed_poly w ▸ same ▸ h.poly_legal
    · exact legal
  code_known := zero_code_known
  success_report := fun _ => ⟨rfl, rfl⟩
  error_has_code := nofun
  busy_is_clean := nofun

theorem invariant_engineStep (run : engineStep s = .next t) : Invariant t := by
  cases decoded : decode s.cmdLatch with
  | ok i =>
    rw [engineStep_command decoded] at run
    rcases exec_cases run with ⟨e, info, val, he, rfl⟩ | ⟨w, commits, rfl⟩
    · exact invariant_errored h he info val
    · exact invariant_completed h commits
  | error r =>
    rw [engineStep_illegal decoded] at run
    cases run
    exact invariant_errored h (by decide) _ _

theorem invariant_engineTurn (run : engineTurn s = .next t) : Invariant t := by
  cases busy : s.busy with
  | true => exact invariant_engineStep h (engineTurn_busy busy ▸ run)
  | false =>
    cases (engineTurn_idle busy).symm.trans run
    exact h

end

/-- Settles O8, event by event. -/
theorem stepKeepsInvariant : Obligations.StepKeepsInvariant := by
  intro s t h run
  match next : s.events with
  | [] => exact invariant_engineTurn h (step_last next ▸ run)
  | .engine :: es => exact invariant_engineTurn (invariant_events h es) (step_engine next ▸ run)
  | .host x :: es =>
    cases (step_host next).symm.trans run
    exact invariant_hostAccess (invariant_events h es) x

/-- Settles O9. -/
theorem resetHasInvariant : Obligations.ResetHasInvariant where
  memory_canonical := .nil
  memory_in_range := nofun
  poly_legal := by decide
  code_known := by decide
  success_report := fun _ => ⟨rfl, rfl⟩
  error_has_code := nofun
  busy_is_clean := nofun

/-! ## A pending command is run or reset (70_reset_and_hazards.md R460, R461, R470) -/

/-- The command, its operands and the memories of `u` are those of `s`, and it is pending in both. -/
structure SamePending (s u : State) : Prop where
  busy : u.busy = true
  cmdLatch : u.cmdLatch = s.cmdLatch
  arg0 : u.arg0 = s.arg0
  arg1 : u.arg1 = s.arg1
  arg2 : u.arg2 = s.arg2
  arg3 : u.arg3 = s.arg3
  hdr : u.hdr = s.hdr
  poly : u.poly = s.poly
  dmem : u.dmem = s.dmem

/-- The next step of `u` runs the pending command as it was issued, or is the soft reset that discards it. -/
def RunsOrResets (u : State) : Prop :=
  step u = engineStep { u with events := u.events.tail } ∨
    ((∃ x d, u.events.head? = some (.host x) ∧ x.op = .write d ∧ d.getLsbD 0 = true ∧ (x.rel = 0x008)) ∧
      step u = .next (softReset { u with events := u.events.tail }))

theorem runsOrResets_of_engine {s : State} (busy : s.busy = true) {es : List Event} (next : s.events = .engine :: es) :
    RunsOrResets s := by
  left
  rw [step_engine next, next]
  exact engineTurn_busy (s := { s with events := es }) busy

theorem runsOrResets_of_last {s : State} (busy : s.busy = true) (last : s.events = []) : RunsOrResets s := by
  left
  have same : { s with events := s.events.tail } = s := by rw [last, List.tail_nil, ← last]
  rw [step_last last, engineTurn_busy busy, same]

theorem runsOrResets_of_reset {s : State} {x : HostAccess} {es : List Event} {d : Word64}
    (next : s.events = .host x :: es) (rel : x.rel = 8) (write : x.op = .write d) (srst : d.getLsbD 0 = true)
    (reset : hostAccess x { s with events := es } = softReset { s with events := es }) : RunsOrResets s := by
  right
  rw [step_host next, next, reset]
  exact ⟨⟨x, d, rfl, write, srst, rel⟩, rfl⟩

theorem run_succ (M : Host.Core) {s t : M.State} (first : M.step s = .next t) (n : Nat) :
    M.run (n + 1) s = M.run n t := by
  rw [Host.Core.run, first]

/-- By induction on the events before the engine's turn: each is a host access, which leaves the command as it is or
resets the machine. -/
theorem pending_runsOrResets (es : List Event) {s : State} (events : s.events = es) (busy : s.busy = true) :
    ∃ n u, n ≤ es.length ∧ Host.Core.run Sys2Proof.core n s = .next u ∧ SamePending s u ∧ RunsOrResets u := by
  have same (s : State) (busy : s.busy = true) : SamePending s s := ⟨busy, rfl, rfl, rfl, rfl, rfl, rfl, rfl, rfl⟩
  induction es generalizing s with
  | nil => exact ⟨0, s, Nat.le_refl _, rfl, same s busy, runsOrResets_of_last busy events⟩
  | cons e es ih =>
    cases e with
    | engine => exact ⟨0, s, Nat.zero_le _, rfl, same s busy, runsOrResets_of_engine busy events⟩
    | host x =>
      rcases hostAccess_busy x { s with events := es } busy with
        ⟨d, rel, write, srst, reset⟩ | ⟨f1, f2, f3, f4, f5, f6, r, k, kept⟩
      · exact ⟨0, s, Nat.zero_le _, rfl, same s busy, runsOrResets_of_reset events rel write srst reset⟩
      · have first : step s = .next (hostAccess x { s with events := es }) := step_host events
        rw [kept] at first
        obtain ⟨n, u, bound, run, pending, ends⟩ := ih (s := { s with
          events := es, ieDone := f1, ieErr := f2, done := f3, err := f4, ovr := f5, herr := f6, response := r,
          draws := k }) rfl busy
        refine ⟨n + 1, u, Nat.succ_le_succ bound, ?_, ?_, ends⟩
        · exact (run_succ Sys2Proof.core first n).trans run
        · obtain ⟨h1, h2, h3, h4, h5, h6, h7, h8, h9⟩ := pending
          exact ⟨h1, h2, h3, h4, h5, h6, h7, h8, h9⟩

/-- Settles O11. -/
theorem acceptedCommandRuns : Obligations.AcceptedCommandRuns := by
  intro s busy
  obtain ⟨n, u, bound, run, ⟨h1, h2, h3, h4, h5, h6, h7, h8, h9⟩, ends⟩ := pending_runsOrResets s.events rfl busy
  exact ⟨n, u, bound, run, h1, h2, h3, h4, h5, h6, h7, h8, h9, ends⟩

end Sys2Proof.Machine

/-! The BCD commands against the digits of 00_scope.md R22 (40_bcd.md R201 to R208): the statements O26, O27, O29, O30. -/

namespace Sys2Proof.Machine

open Safety

/-! ## One register -/

theorem bcdDecode_eq_decimal (v d : Nat) : bcdDecode v d = decimal v d := bcdDecode_eq_sum v d

/-- Settles O26. -/
theorem bcdDecodeResult : Obligations.BcdDecodeResult := by
  refine fun s => ⟨fun valid => ?_, fun k hk bad below => ?_⟩
  · obtain ⟨r, value, run⟩ := exec_bcdDec_of_digitsOk s valid
    exact ⟨r, value.trans (bcdDecode_eq_decimal _ _), run⟩
  · have first : firstBadNibble s.arg0.toNat 16 = some k := (firstBadNibble_eq_some_iff _ _ _).2 ⟨hk, bad, below⟩
    simp only [exec, execBcdDec, first, raise]

/-- Settles O27. -/
theorem bcdEncodeResult : Obligations.BcdEncodeResult := by
  refine fun d s hd => ⟨fun fits => ?_, fun large => ?_⟩
  · obtain ⟨r, value, run⟩ := exec_bcdEnc_of_lt s hd fits
    refine ⟨r, fun k _ => ?_, run⟩
    rw [value, nibble, nibble_bcdEncode]
  · simp only [exec, execBcdEnc, if_pos large, raise]

/-! ## Arrays (40_bcd.md R205 to R208) -/

theorem arrayOk_of_not_placed {a k w : Nat} (h : ¬ Placed a k w) : arrayOk a k w = false :=
  Bool.eq_false_iff.2 fun ok => h ((arrayOk_iff a k w).1 ok)

/-- A stored array: its elements read back, and no other byte is written. -/
theorem writeArray_spec (m : Memory) (a w : Nat) {n : Nat} {f : Nat → Nat} (fits : ∀ i < n, f i < 256 ^ w) :
    (∀ i < n, memRead (writeArray m a w ((List.range n).map f)) (a + w * i) w = f i) ∧
    SameOutside m (writeArray m a w ((List.range n).map f)) a (w * n) := by
  constructor
  · intro i hi
    rw [memRead_writeArray_of_lt _ _ _ _ i (by simpa using hi) (by simpa using fits i hi)]
    simp
  · intro b outside
    refine memByte_writeArray_outside _ _ ?_
    rwa [List.length_map, List.length_range, Nat.mul_comm]

section

variable {bad : Nat → Bool} {e : CmdError} {convert : Nat → Nat} {s : State}

theorem bcdArray_of_source_misplaced (source : ¬ Placed s.arg0.toNat s.arg1.toNat 8) :
    bcdArray bad e convert s = .next (errored s .address 0 s.arg0) := by
  simp [bcdArray, arrayOk_of_not_placed source, raise]

variable (source : Placed s.arg0.toNat s.arg1.toNat 8)
include source

theorem bcdArray_of_destination_misplaced (destination : ¬ Placed s.arg2.toNat s.arg1.toNat 8) :
    bcdArray bad e convert s = .next (errored s .address 2 s.arg2) := by
  simp [bcdArray, arrayOk_of_placed source, arrayOk_of_not_placed destination, raise]

variable (destination : Placed s.arg2.toNat s.arg1.toNat 8)
include destination

/-- Every element is converted, from the source as it stood before the command. -/
theorem bcdArray_of_good
    (good : ∀ i < s.arg1.toNat, bad (memRead s.dmem (s.arg0.toNat + 8 * i) 8) = false)
    (fits : ∀ i < s.arg1.toNat, convert (memRead s.dmem (s.arg0.toNat + 8 * i) 8) < 256 ^ 8) :
    ∃ m, bcdArray bad e convert s = .next (completed { s with dmem := m, res0 := s.arg1 }) ∧
      (∀ i < s.arg1.toNat, memRead m (s.arg2.toNat + 8 * i) 8 =
        convert (memRead s.dmem (s.arg0.toNat + 8 * i) 8)) ∧
      SameOutside s.dmem m s.arg2.toNat (8 * s.arg1.toNat) := by
  have noBad : firstBad bad (readArray s.dmem s.arg0.toNat 8 s.arg1.toNat) 0 = none := by
    rw [firstBad_eq_none_iff, readArray_eq_map]
    exact List.forall_mem_map.2 fun i hi => good i (List.mem_range.1 hi)
  refine ⟨_, ?_, writeArray_spec s.dmem s.arg2.toNat 8 fits⟩
  have converted : (readArray s.dmem s.arg0.toNat 8 s.arg1.toNat).map convert =
      (List.range s.arg1.toNat).map fun i => convert (memRead s.dmem (s.arg0.toNat + 8 * i) 8) := by
    rw [readArray_eq_map, List.map_map]
    rfl
  simp [bcdArray, arrayOk_of_placed source, arrayOk_of_placed destination, noBad, converted, succeed]

/-- The first bad element is reported. -/
theorem bcdArray_of_bad {i : Nat} (hi : i < s.arg1.toNat)
    (isBad : bad (memRead s.dmem (s.arg0.toNat + 8 * i) 8) = true)
    (before : ∀ j < i, bad (memRead s.dmem (s.arg0.toNat + 8 * j) 8) = false) :
    bcdArray bad e convert s = .next (errored s e (BitVec.ofNat 64 i)
      (BitVec.ofNat 64 (memRead s.dmem (s.arg0.toNat + 8 * i) 8))) := by
  have first : firstBad bad (readArray s.dmem s.arg0.toNat 8 s.arg1.toNat) 0 =
      some (i, memRead s.dmem (s.arg0.toNat + 8 * i) 8) := by
    rw [firstBad_eq_some_iff, readArray_eq_map]
    exact ⟨i, by simpa using hi, by simp, by simp, by simpa using isBad, fun j hj => by simpa using before j hj⟩
  simp [bcdArray, arrayOk_of_placed source, arrayOk_of_placed destination, first, raise]

end

/-- Settles O29. -/
theorem bcdArrayDecodeResult : Obligations.BcdArrayDecodeResult := by
  intro s source destination
  have good (v : Nat) : (!validBcd v 16) = false ↔ DigitsOk v 16 := by
    rw [Bool.not_eq_false', validBcd_iff]
    rfl
  have bad (v : Nat) : (!validBcd v 16) = true ↔ ¬ DigitsOk v 16 := by rw [← good, Bool.not_eq_false]
  refine ⟨fun valid => ?_, fun i hi isBad before => ?_⟩
  · obtain ⟨m, run, elements, others⟩ := bcdArray_of_good (bad := fun v => !validBcd v 16) (e := .invalidEncoding)
      (convert := fun v => bcdDecode v 16) source destination (fun i hi => (good _).2 (valid i hi))
      fun i hi => (bcdDecode_lt (valid i hi)).trans (by norm_num)
    exact ⟨m, run, fun i hi => (elements i hi).trans (bcdDecode_eq_decimal _ _), others⟩
  · exact bcdArray_of_bad source destination hi ((bad _).2 isBad) fun j hj => (good _).2 (before j hj)

/-- Settles O30. -/
theorem bcdArrayEncodeResult : Obligations.BcdArrayEncodeResult := by
  intro d s hd source destination
  have small : 16 ^ d.toNat ≤ 256 ^ 8 :=
    (Nat.pow_le_pow_right (by decide) ((digitsOk_iff d).1 hd).2).trans_eq (by norm_num : 16 ^ 16 = 256 ^ 8)
  refine ⟨fun fits => ?_, fun i hi large before => ?_⟩
  · obtain ⟨m, run, elements, others⟩ := bcdArray_of_good (bad := fun v => decide (10 ^ d.toNat ≤ v)) (e := .range)
      (convert := fun v => bcdEncode v d.toNat) source destination
      (fun i hi => decide_eq_false (Nat.not_le.2 (fits i hi))) fun i _ => (bcdEncode_lt _ _).trans_le small
    refine ⟨m, run, fun i hi k _ => ?_, others⟩
    rw [elements i hi, nibble, nibble_bcdEncode]
  · exact bcdArray_of_bad source destination hi (decide_eq_true large)
      fun j hj => decide_eq_false (Nat.not_le.2 (before j hj))

end Sys2Proof.Machine

/-! The CRC commands as remainders of polynomials over GF(2) (41_crc.md R231, R238 to R248): the statements O31 to O35. -/

namespace Sys2Proof.Machine

open Safety

/-! ## Setting the polynomial (41_crc.md R231) -/

theorem two_le_of_hasCheckLength {p : Word64} {c : Nat} (h : HasCheckLength p c) : 2 ≤ p.toNat :=
  (Nat.pow_le_pow_right (by decide : 2 > 0) h.1).trans h.2.1

/-- Settles O31. -/
theorem setPolynomialResult : Obligations.SetPolynomialResult := by
  refine fun s => ⟨fun c h => ⟨?_, ?_, hasCheckLength_lt h⟩, fun legal => ⟨_, hasCheckLength legal⟩, fun small => ?_⟩
  · have legal : ¬ bitLength s.arg0.toNat < 2 := by
      rw [bitLength_lt_two_iff, Nat.not_lt]
      exact two_le_of_hasCheckLength h
    rw [exec, execCrcSetpoly, if_neg legal, setWidth_polyW, setPolynomial, checkLength_of h, succeed]
  · exact regValue_clen (s := { s with poly := s.arg0 }) h
  · rw [exec, execCrcSetpoly, if_pos ((bitLength_lt_two_iff _).2 small), raise]

/-! ## `PACK0` in a register (41_crc.md R239) -/

section

variable {r : List Word64} {c : Nat} (size : r.length = c) (small : c ≤ 63)
include size small

theorem toNat_ofNat_pack0 : (BitVec.ofNat 64 (pack0 r)).toNat = pack0 r := by
  refine (BitVec.toNat_ofNat _ _).trans (Nat.mod_eq_of_lt ((pack0_lt r).trans_le ?_))
  exact Nat.pow_le_pow_right (by decide) (by omega)

theorem ofNat_pack0_lt : (BitVec.ofNat 64 (pack0 r)).toNat < 2 ^ c := by
  rw [toNat_ofNat_pack0 size small, ← size]
  exact pack0_lt r

theorem ofNat_pack0_eq_zero_iff : BitVec.ofNat 64 (pack0 r) = 0 ↔ pack0 r = 0 := by
  rw [← BitVec.toNat_inj, toNat_ofNat_pack0 size small]
  rfl

/-- Lane 0 of element `k` stands in bit `C-1-k`. -/
theorem getLsbD_ofNat_pack0 {k : Nat} (hk : k < c) :
    (BitVec.ofNat 64 (pack0 r)).getLsbD (c - 1 - k) = (r.getD k 0).getLsbD 0 := by
  have inWord : c - 1 - k < 64 := by omega
  subst size
  rw [BitVec.getLsbD_ofNat, testBit_pack0 r k hk, decide_eq_true inWord, Bool.true_and]

end

/-- In one lane, the mask of the non-zero lanes says whether the packed remainder is zero. -/
theorem nonzeroLanes_eq_ite_pack0 {r : List Word64} {c : Nat} (size : r.length = c) (small : c ≤ 63)
    (oneLane : ∀ e ∈ r, e = 0 ∨ e = 1) : nonzeroLanes r = if BitVec.ofNat 64 (pack0 r) = 0 then 0 else 1 := by
  simp only [nonzeroLanes_oneLane r oneLane, ofNat_pack0_eq_zero_iff size small]

/-! ## The register forms (41_crc.md R245 to R248) -/

/-- Settles O32. -/
theorem registerRemainderIsPolynomial : Obligations.RegisterRemainderIsPolynomial := by
  intro m s c _ h
  have small := hasCheckLength_lt h
  have residue := isResidue_crcRem h 0 (bitsOf s.arg0 m.toNat)
  have oneLane := crcRem_oneLane s.poly (bitsOf_oneLane s.arg0 m.toNat)
  have size : (crcRem s.poly (bitsOf s.arg0 m.toNat)).length = c := by rw [crcRem_length, checkLength_of h]
  have run := exec_crcGenr m s
  rw [bitsOf_length] at residue
  generalize crcRem s.poly _ = r at residue oneLane size run
  refine ⟨BitVec.ofNat 64 (pack0 r), ofNat_pack0_lt size small, ?_,
    isResidue_congr (fun i hi => bitsOf_getD hi) (fun k hk => (getLsbD_ofNat_pack0 size small hk).symm) residue⟩
  rw [run, genrWrites, nonzeroLanes_eq_ite_pack0 size small oneLane]

theorem flagValue_decide (p : Prop) [Decidable p] : flagValue (decide p) = if p then 1 else 0 := by
  simp only [flagValue, decide_eq_true_eq]

theorem exec_crcChkr_of_lt {m : BitVec 7} {s : State} {c : Nat} (h : HasCheckLength s.poly c) (short : m.toNat < c) :
    exec (.crcChkr m) s = .next (errored s .badLength (BitVec.ofNat 64 c) (m.setWidth 64)) := by
  simp only [exec, execCrcChkr, checkLength_of h, if_pos short, raise]

/-- Settles O33. -/
theorem registerCheckIsPolynomial : Obligations.RegisterCheckIsPolynomial := by
  refine fun m s c _ h => ⟨fun long => ?_, exec_crcChkr_of_lt h⟩
  have small := hasCheckLength_lt h
  have long' : c ≤ (bitsOf s.arg0 m.toNat).length := by rwa [bitsOf_length]
  have residue := isResidue_crcDiv h 0 (bitsOf s.arg0 m.toNat) long'
  have oneLane := crcDiv_oneLane s.poly (bitsOf_oneLane s.arg0 m.toNat)
  have size : (crcDiv s.poly (bitsOf s.arg0 m.toNat)).length = c := by
    rw [crcDiv_length _ _ (by rwa [checkLength_of h]), checkLength_of h]
  have run := exec_crcChkr_of_le (m := m) h rfl long
  rw [bitsOf_length] at residue
  generalize crcDiv s.poly _ = r at residue oneLane size run
  have pass : flagValue (pack0 r == 0) = if BitVec.ofNat 64 (pack0 r) = 0 then 1 else 0 := by
    simp only [ofNat_pack0_eq_zero_iff size small]
    exact flagValue_decide _
  refine ⟨BitVec.ofNat 64 (pack0 r), ofNat_pack0_lt size small, ?_,
    isResidue_congr (fun i hi => bitsOf_getD hi) (fun k hk => (getLsbD_ofNat_pack0 size small hk).symm) residue⟩
  rw [run, chkrWrites, nonzeroLanes_eq_ite_pack0 size small oneLane, pass]

/-! ## The stream forms (41_crc.md R240 to R243) -/

section

variable {m : Memory} {a n l : Nat} {r : List Word64}

/-- A stored remainder, lane by lane. -/
theorem laneBit_writeArray {k : Nat} (hk : k < r.length) (j : Nat) :
    laneBit (writeArray m a 8 (r.map BitVec.toNat)) a k j = (r.getD k 0).getLsbD j := by
  have hk' : k < (r.map BitVec.toNat).length := by simpa using hk
  rw [laneBit, memRead_writeArray_of_lt _ _ _ _ _ hk' (by simpa using (r[k]).isLt), List.getElem_map,
    List.getD_eq_getElem _ _ hk]
  rfl

theorem toNat_lt_of_and_laneMask {e : Word64} (masked : e &&& laneMask l = e) (hl : l ≤ 64) : e.toNat < 2 ^ l := by
  have value := congrArg BitVec.toNat masked
  have small : 2 ^ l ≤ 2 ^ 64 := Nat.pow_le_pow_right (by decide) hl
  have pos := Nat.two_pow_pos l
  rw [BitVec.toNat_and, laneMask, BitVec.toNat_ofNat, Nat.mod_eq_of_lt (by omega),
    Nat.and_two_pow_sub_one_eq_mod] at value
  rw [← value]
  exact Nat.mod_lt _ pos

theorem memRead_writeArray_lt (masked : r.map (· &&& laneMask l) = r) (hl : l ≤ 64) {k : Nat} (hk : k < r.length) :
    memRead (writeArray m a 8 (r.map BitVec.toNat)) (a + 8 * k) 8 < 2 ^ l := by
  have hk' : k < (r.map BitVec.toNat).length := by simpa using hk
  have element := List.getElem_of_eq masked (by simpa using hk)
  rw [List.getElem_map] at element
  rw [memRead_writeArray_of_lt _ _ _ _ _ hk' (by simpa using (r[k]).isLt), List.getElem_map]
  exact toNat_lt_of_and_laneMask element hl

/-- The lanes of a stream in DMEM are its elements' bits. -/
theorem readStream_lane (hl : l ≤ 64) {i j : Nat} (hi : i < n) (hj : j < l) :
    ((readStream m a n l).getD i 0).getLsbD j = laneBit m a i j := by
  rw [readStream_getD m hi hl, decide_eq_true hj, Bool.true_and]

end

/-- Settles O34. -/
theorem streamRemainderIsPolynomial : Obligations.StreamRemainderIsPolynomial := by
  intro l s c hl h source destination
  have hl := ((lanesOk_iff l).1 hl).2
  have small := hasCheckLength_lt h
  have residue (j : Nat) := isResidue_crcRem h j (readStream s.dmem s.arg0.toNat s.arg1.toNat l.toNat)
  have masked := crcRem_readStream_and_laneMask s.poly s.dmem s.arg0.toNat s.arg1.toNat l.toNat
  have size := crcRem_length s.poly (readStream s.dmem s.arg0.toNat s.arg1.toNat l.toNat)
  have run := exec_crcGen_of_placed (l := l) h source destination
  rw [checkLength_of h] at size
  generalize crcRem s.poly _ = r at residue masked size run
  have stored {k : Nat} (hk : k < c) (j : Nat) := laneBit_writeArray (m := s.dmem) (a := s.arg2.toNat) (size ▸ hk) j
  refine ⟨writeArray s.dmem s.arg2.toNat 8 (r.map BitVec.toNat), BitVec.ofNat 64 (pack0 r), nonzeroLanes r, run,
    fun j hj => ?_, fun k hk => memRead_writeArray_lt masked hl (size ▸ hk),
    ⟨ofNat_pack0_lt size small, fun k hk => ?_⟩, fun j => ?_, fun b outside => ?_⟩
  · have residue := residue j
    rw [readStream_length] at residue
    exact isResidue_congr (fun i hi => readStream_lane hl hi hj) (fun k hk => (stored hk j).symm) residue
  · rw [getLsbD_ofNat_pack0 size small hk, stored hk]
  · rw [getLsbD_nonzeroLanes, size]
    exact exists_congr fun k => and_congr_right fun hk => by rw [stored hk]
  · refine memByte_writeArray_outside _ _ ?_
    rwa [List.length_map, size, Nat.mul_comm]

theorem exec_crcChk_eq {l : BitVec 7} {s : State} {c : Nat} (h : HasCheckLength s.poly c) (long : c ≤ s.arg1.toNat)
    (source : Placed s.arg0.toNat s.arg1.toNat 8) :
    exec (.crcChk l) s = .next (completed
      (checkWrites (crcDiv s.poly (readStream s.dmem s.arg0.toNat s.arg1.toNat l.toNat)) s)) := by
  have long : ¬ s.arg1.toNat < checkLength s.poly := (checkLength_of h).symm ▸ Nat.not_lt.2 long
  simp [exec, execCrcChk, long, arrayOk_of_placed source, succeed]

theorem exec_crcChk_of_short {l : BitVec 7} {s : State} {c : Nat} (h : HasCheckLength s.poly c)
    (short : s.arg1.toNat < c) :
    exec (.crcChk l) s = .next (errored s .badLength (BitVec.ofNat 64 c) s.arg1) := by
  simp only [exec, execCrcChk, checkLength_of h, if_pos short, raise]

/-- A stream of `L` lanes has no bit above them, nor has its residue. -/
theorem crcDiv_readStream_and_laneMask (p : Word64) (m : Memory) (a n l : Nat) :
    (crcDiv p (readStream m a n l)).map (· &&& laneMask l) = crcDiv p (readStream m a n l) := by
  have masked : (readStream m a n l).map (· &&& laneMask l) = readStream m a n l := by
    rw [readStream, List.map_map]
    exact List.map_congr_left fun e _ => by rw [Function.comp_apply, BitVec.and_assoc, BitVec.and_self]
  rw [crcDiv_map _ fun a b => xor_and_laneMask a b l, masked]

theorem lane_lt_of_masked {r : List Word64} {l : Nat} (masked : r.map (· &&& laneMask l) = r) (hl : l ≤ 64)
    {k j : Nat} (hk : k < r.length) (bit : (r.getD k 0).getLsbD j = true) : j < l := by
  have element := List.getElem_of_eq masked (by simpa using hk)
  rw [List.getElem_map] at element
  rw [List.getD_eq_getElem _ _ hk, ← element, BitVec.getLsbD_and, getLsbD_laneMask _ _ hl] at bit
  exact of_decide_eq_true (Bool.and_eq_true_iff.1 bit).2

/-- Settles O35. -/
theorem streamCheckIsPolynomial : Obligations.StreamCheckIsPolynomial := by
  refine fun l s c hl h => ⟨fun long source => ?_, exec_crcChk_of_short h⟩
  have hl := ((lanesOk_iff l).1 hl).2
  have small := hasCheckLength_lt h
  have long' : c ≤ (readStream s.dmem s.arg0.toNat s.arg1.toNat l.toNat).length := by rwa [readStream_length]
  have residue (j : Nat) := isResidue_crcDiv h j (readStream s.dmem s.arg0.toNat s.arg1.toNat l.toNat) long'
  have masked := crcDiv_readStream_and_laneMask s.poly s.dmem s.arg0.toNat s.arg1.toNat l.toNat
  have size : (crcDiv s.poly (readStream s.dmem s.arg0.toNat s.arg1.toNat l.toNat)).length = c := by
    rw [crcDiv_length _ _ (by rwa [checkLength_of h]), checkLength_of h]
  have run := exec_crcChk_eq (l := l) h long source
  generalize crcDiv s.poly _ = r at residue masked size run
  refine ⟨fun j k => (r.getD k 0).getLsbD j, nonzeroLanes r, BitVec.ofNat 64 (pack0 r), ?_, fun j hj => ?_,
    fun j => ?_, ofNat_pack0_lt size small, fun k hk => getLsbD_ofNat_pack0 size small hk⟩
  · have pass : flagValue (r.all (· == 0)) = if nonzeroLanes r = 0 then 1 else 0 := by
      simp only [flagValue, all_eq_zero_iff]
    rw [run, checkWrites, pass]
  · have residue := residue j
    rw [readStream_length] at residue
    exact isResidue_congr (fun i hi => readStream_lane hl hi hj) (fun _ _ => rfl) residue
  · rw [getLsbD_nonzeroLanes, size]
    constructor
    · rintro ⟨k, hk, bit⟩
      exact ⟨lane_lt_of_masked masked hl (size.symm ▸ hk) bit, k, hk, bit⟩
    · exact And.right

end Sys2Proof.Machine

/-! Header images, fields and sizes (42_header.md R270 to R283, R310 to R313): the statements O41, O42, O44, O45 and O55. -/

namespace Sys2Proof.Machine

open Safety

/-! ## Images in DMEM (42_header.md R280, R281, R313) -/

/-- Settles O41. -/
theorem headerLoadResult : Obligations.HeaderLoadResult :=
  fun _ placed => exec_hdrLd_of_arrayOk (arrayOk_of_placed placed)

/-- Settles O42. -/
theorem headerStoreResult : Obligations.HeaderStoreResult := by
  intro s placed
  refine ⟨_, exec_hdrSt_of_arrayOk (arrayOk_of_placed placed), fun w => ?_, fun b outside => ?_⟩
  · have inside : w.val < s.hdr.words.length := by simp [Header.words]
    have word : s.hdr.words[w.val] = (s.hdr.word w).toNat := by simp [Header.words, Header.word]
    rw [memRead_writeArray_of_lt _ _ _ _ _ inside (word ▸ (s.hdr.word w).isLt), word]
  · have size : s.hdr.words.length = 4 := by simp [Header.words]
    exact memByte_writeArray_outside _ _ (size.symm ▸ outside)

/-- A header is the image at `a` exactly when the four words there are its words. -/
theorem readHeader_eq_iff (m : Memory) (a : Nat) (h : Header) :
    readHeader m a = h ↔ ∀ w : Fin 4, memRead m (a + 4 * w.val) 4 = (h.word w).toNat := by
  have word (w : Fin 4) : (readHeader m a).word w = h.word w ↔ memRead m (a + 4 * w.val) 4 = (h.word w).toNat := by
    have fits : memRead m (a + 4 * w.val) 4 < 2 ^ 32 := memRead_lt m _ 4
    rw [word_readHeader, ← BitVec.toNat_inj, BitVec.toNat_ofNat, Nat.mod_eq_of_lt fits]
  exact ⟨fun e w => (word w).1 (e ▸ rfl), fun e => Header.ext_words fun w => (word w).2 (e w)⟩

/-- Settles O44. -/
theorem headerEqualityResult : Obligations.HeaderEqualityResult := by
  intro s placed
  have run : exec .hdrEq s =
      .next (completed { s with res0 := flagValue (readHeader s.dmem s.arg0.toNat == s.hdr) }) := by
    have checked : arrayOk s.arg0.toNat Config.hdrWords 4 = true := arrayOk_of_placed placed
    simp [exec, execHdrEq, checked, succeed]
  refine ⟨fun same => ?_, fun ⟨w, differs⟩ => ?_⟩
  · have equal := (readHeader_eq_iff _ _ _).2 same
    rw [run, equal, beq_self_eq_true]
    rfl
  · have unequal : (readHeader s.dmem s.arg0.toNat == s.hdr) = false :=
      beq_eq_false_iff_ne.2 fun e => differs ((readHeader_eq_iff _ _ _).1 e w)
    rw [run, unequal]
    rfl

/-! ## Fields (42_header.md R283, R273) -/

/-- Settles O45. -/
theorem fieldReadResult : Obligations.FieldReadResult := by
  refine fun fid s => ⟨fun r row atRow => ?_, fun absent => ?_⟩
  · have inWord := rowField_inWord row
    simp only [exec, execHdrRdf, readFieldCommand, fieldTable_of_row row atRow, succeed,
      fread_eq s.hdr (show (rowField r).width ≤ 32 by omega)]
    rfl
  · simp only [exec, execHdrRdf, readFieldCommand, fieldTable_eq_none absent, raise]

/-! ## Sizes (42_header.md R310, R311) -/

theorem exec_hdrSize_of_error {k : SizeKind} {s : State} {reason : Nat}
    (bad : payloadOf k s.arg0.toNat = .error reason) :
    exec (.hdrSize k) s = .next (errored s .invalidSize (BitVec.ofNat 64 reason) s.arg0) := by
  simp only [exec, execHdrSize, sizeCommand, bad, raise]

/-- In the `FIXED` mode only a payload of 10000 bytes is accepted (R311). -/
theorem exec_hdrSize_of_ok {k : SizeKind} {s : State} {b : Nat} (payload : payloadOf k s.arg0.toNat = .ok b) :
    exec (.hdrSize k) s = .next (if b = 10000 then completed { s with res0 := 10000, res1 := 10016 }
      else errored s .invalidSize 3 s.arg0) := by
  simp only [exec, execHdrSize, sizeCommand, payload, sizeHeader_profile]
  by_cases fixed : b = 10000
  · subst fixed
    rfl
  · rw [if_pos fixed, if_neg fixed]
    rfl

/-- Settles O55: each range of requests has one payload or one reason. -/
theorem sizeRequestResult : Obligations.SizeRequestResult := by
  intro s z
  have payload (aligned : z % 4 = 0) : payloadOf .payload z = .ok z := if_neg (not_not.2 aligned)
  have frame (large : 16 ≤ z) (aligned : z % 4 = 0) : payloadOf .frame z = .ok (z - 16) :=
    (if_neg (Nat.not_lt.2 large)).trans (if_neg (not_not.2 (by omega : (z - 16) % 4 = 0)))
  refine ⟨fun e => ?_, fun e => ?_, fun odd => ?_, fun aligned other => ?_, fun small => ?_, fun large odd => ?_,
    fun large aligned other => ?_⟩
  · rw [exec_hdrSize_of_ok (payload (by omega)), if_pos e]
  · rw [exec_hdrSize_of_ok (frame (by omega) (by omega)), if_pos (by omega)]
  · exact exec_hdrSize_of_error (reason := 1) (if_pos odd)
  · rw [exec_hdrSize_of_ok (payload aligned), if_neg other]
  · exact exec_hdrSize_of_error (reason := 2) (if_pos small)
  · exact exec_hdrSize_of_error (reason := 1)
      ((if_neg (Nat.not_lt.2 large)).trans (if_pos (by omega : (z - 16) % 4 ≠ 0)))
  · rw [exec_hdrSize_of_ok (frame large aligned), if_neg (by omega)]

end Sys2Proof.Machine

/-! The header CRC (42_header.md R276, R277, R290, R292): the statements O47 to O50. -/

namespace Sys2Proof.Machine

open Polynomial Safety

/-! ## The protected bits as one stream (42_header.md R276) -/

/-- The header polynomial has check length 16. -/
theorem hasCheckLength_hdrPoly : HasCheckLength 0x18005 16 := ⟨by decide, by decide, by decide⟩

/-- The protected bits are the upper 48 of words 2 and 3. -/
theorem coverBits_eq_bitsOf (h : Header) :
    coverBits Config.profile h = bitsOf ((h.word 2 ++ h.word 3) >>> 16) 48 := by
  have high : ∀ k < 32, ((h.word 2).setWidth 64).getLsbD k =
      ((h.word 2 ++ h.word 3) >>> 16 >>> 16).getLsbD k := by
    intro k hk
    rw [BitVec.getLsbD_setWidth, BitVec.getLsbD_ushiftRight, BitVec.getLsbD_ushiftRight, BitVec.getLsbD_append,
      if_neg (by omega), show 16 + (16 + k) - 32 = k by omega, decide_eq_true (by omega), Bool.true_and]
  have low : ∀ k < 16, ((h.word 3).setWidth 64 >>> 16).getLsbD k =
      ((h.word 2 ++ h.word 3) >>> 16).getLsbD k := by
    intro k hk
    rw [BitVec.getLsbD_ushiftRight, BitVec.getLsbD_setWidth, BitVec.getLsbD_ushiftRight, BitVec.getLsbD_append,
      if_pos (by omega), decide_eq_true (by omega), Bool.true_and]
  rw [coverBits_profile, bitsOf_congr high, bitsOf_congr low, ← bitsOf_add]

/-- Settles O47. -/
theorem headerCrcIsPolynomial : Obligations.HeaderCrcIsPolynomial := by
  refine fun h => ⟨headerCrc_lt h, ?_⟩
  have size : (crcRem 0x18005 (coverBits Config.profile h)).length = 16 := by
    rw [crcRem_length, checkLength_of hasCheckLength_hdrPoly]
  have residue := isResidue_crcRem hasCheckLength_hdrPoly 0 (coverBits Config.profile h)
  have count : (coverBits Config.profile h).length = 48 := by rw [coverBits_eq_bitsOf, bitsOf_length]
  rw [count] at residue
  refine isResidue_congr (fun i hi => ?_) (fun k hk => ?_) residue
  · rw [coverBits_eq_bitsOf, bitsOf_getD hi, BitVec.getLsbD_ushiftRight]
    congr 1
    omega
  · have bit := testBit_pack0 _ k (size.symm ▸ hk)
    rw [size] at bit
    exact bit.symm

/-! ## Streams that divide to zero (41_crc.md R241, R277) -/

/-- `PACK0` is zero exactly when lane 0 is. -/
theorem pack0_eq_zero_iff (r : List Word64) : pack0 r = 0 ↔ lanePoly 0 r = 0 := by
  rw [lanePoly_eq_zero_iff]
  induction r with
  | nil => simp [pack0]
  | cons e r ih =>
    have bit : e.getLsbD 0 = decide (e.toNat % 2 = 1) := by rw [BitVec.getLsbD, Nat.testBit_zero]
    have pos := Nat.two_pow_pos r.length
    rw [pack0, Nat.add_eq_zero_iff, ih, List.forall_mem_cons, bit, Nat.mul_eq_zero, decide_eq_false_iff_not]
    refine and_congr_left fun _ => ?_
    omega

theorem lanePoly_zipWith_xor (l : Nat) {a b : List Word64} (same : a.length = b.length) :
    lanePoly l (List.zipWith (· ^^^ ·) a b) = lanePoly l a + lanePoly l b := by
  induction a generalizing b with
  | nil =>
    obtain rfl := List.eq_nil_of_length_eq_zero same.symm
    simp [lanePoly]
  | cons e a ih =>
    cases b with
    | nil => simp at same
    | cons f b =>
      have same : a.length = b.length := by simpa using same
      simp only [List.zipWith_cons_cons, lanePoly, ih same, BitVec.getLsbD_xor, xor_poly, List.length_zipWith, same,
        Nat.min_self]
      ring

/-- A one-lane stream is its polynomial. -/
theorem eq_of_lanePoly_eq {a b : List Word64} (ha : ∀ e ∈ a, e = 0 ∨ e = 1) (hb : ∀ e ∈ b, e = 0 ∨ e = 1)
    (same : a.length = b.length) (h : lanePoly 0 a = lanePoly 0 b) : a = b := by
  have zero : lanePoly 0 (List.zipWith (· ^^^ ·) a b) = 0 := by
    rw [lanePoly_zipWith_xor 0 same, h, add_self_zmod2]
  rw [lanePoly_eq_zero_iff, List.forall_mem_iff_getElem] at zero
  refine List.ext_getElem same fun i hi hi' => ?_
  have bit := zero i (by simp [hi, hi'])
  rw [List.getElem_zipWith] at bit
  rcases ha _ (List.getElem_mem hi) with e | e <;> rcases hb _ (List.getElem_mem hi') with e' | e' <;>
    rw [e, e'] at bit ⊢ <;> simp at bit

/-- A one-lane stream with `C` elements appended divides to zero exactly when these are its remainder. -/
theorem pack0_crcDiv_append_eq_zero_iff {p : Word64} {c : Nat} (h : HasCheckLength p c) {s r : List Word64}
    (hs : ∀ e ∈ s, e = 0 ∨ e = 1) (hr : ∀ e ∈ r, e = 0 ∨ e = 1) (size : r.length = c) :
    pack0 (crcDiv p (s ++ r)) = 0 ↔ r = crcRem p s := by
  constructor
  case mp =>
    intro zero
    have monic := (wordPoly_monic h).1
    have small : lanePoly 0 r %ₘ wordPoly p = lanePoly 0 r := by
      rw [modByMonic_eq_self_iff monic, (wordPoly_monic h).2, ← size]
      exact degree_lanePoly_lt 0 r
    rw [pack0_eq_zero_iff, lanePoly_crcDiv h 0 _ (by simp [size]), lanePoly_append, size, add_modByMonic,
      ← lanePoly_crcRem h, small] at zero
    refine eq_of_lanePoly_eq hr (crcRem_oneLane p hs) (by rw [size, crcRem_length, checkLength_of h]) ?_
    exact (CharTwo.add_eq_zero.1 zero).symm
  case mpr =>
    rintro rfl
    exact pack0_eq_zero (crcDiv_append_crcRem h s)

theorem pack0_bitsOf (v : Word64) (m : Nat) : pack0 (bitsOf v m) = v.toNat % 2 ^ m := by
  induction m with
  | zero => simp [bitsOf, pack0, Nat.mod_one]
  | succ m ih =>
    have bit : (if v.getLsbD m then (1 : Word64) else 0).toNat % 2 = v.toNat / 2 ^ m % 2 := by
      rw [BitVec.getLsbD, Nat.testBit_eq_decide_div_mod_eq]
      rcases Nat.mod_two_eq_zero_or_one (v.toNat / 2 ^ m) with e | e <;> simp [e]
    rw [bitsOf, pack0, ih, bitsOf_length, bit, Nat.mod_pow_succ, Nat.add_comm, Nat.mul_comm]

/-! ## CRC-valid headers (42_header.md R277, R290) -/

theorem fread_crc (h : Header) : fread h Config.profile.crc = bitsAt (h.word 3) 0 16 := fread_eq h (by decide)

/-- The 64 bits of words 2 and 3 divide to zero exactly when the CRC field holds the header CRC. -/
theorem pack0_crcDiv_words_eq_zero_iff (h : Header) :
    pack0 (crcDiv 0x18005 (bitsOf (h.word 2 ++ h.word 3) 64)) = 0 ↔
      fread h Config.profile.crc = headerCrc Config.profile h := by
  have size : (crcRem 0x18005 (coverBits Config.profile h)).length = 16 := by
    rw [crcRem_length, checkLength_of hasCheckLength_hdrPoly]
  have cover : ∀ e ∈ coverBits Config.profile h, e = 0 ∨ e = 1 := coverBits_eq_bitsOf h ▸ bitsOf_oneLane _ _
  have remainder := crcRem_oneLane 0x18005 cover
  have field : pack0 (bitsOf (h.word 2 ++ h.word 3) 16) = fread h Config.profile.crc := by
    rw [pack0_bitsOf, fread_crc, bitsAt, BitVec.toNat_append, ← Nat.shiftLeft_add_eq_or_of_lt (h.word 3).isLt,
      Nat.shiftLeft_eq]
    omega
  rw [bitsOf_add _ 48 16, ← coverBits_eq_bitsOf,
    pack0_crcDiv_append_eq_zero_iff hasCheckLength_hdrPoly cover (bitsOf_oneLane _ 16) (bitsOf_length _ 16), ← field]
  change _ ↔ _ = pack0 (crcRem 0x18005 (coverBits Config.profile h))
  generalize crcRem 0x18005 (coverBits Config.profile h) = r at size remainder
  constructor
  case mp => exact congrArg pack0
  case mpr =>
    intro same
    have fieldStream := bitsOf_pack0 (bitsOf_oneLane (h.word 2 ++ h.word 3) 16) (by simp)
    have crcStream := bitsOf_pack0 remainder (by omega)
    rw [bitsOf_length] at fieldStream
    rw [size, ← same, fieldStream] at crcStream
    exact crcStream

/-! ## `HDR.VAL` (42_header.md R290) -/

/-- Three flags in the low bits of a register. -/
theorem flagBits_spec (b0 b1 b2 : Bool) (r : Word64)
    (hr : r = (flagValue b0 ||| flagValue b1 <<< 1 ||| flagValue b2 <<< 2)) :
    r.toNat < 8 ∧ r.getLsbD 0 = b0 ∧ r.getLsbD 1 = b1 ∧ r.getLsbD 2 = b2 := by
  subst hr
  revert b0 b1 b2
  decide

/-- A nibble inside a field is a nibble of its word. -/
theorem nibble_bitsAt (v : Word32) (e : Nat) {d k : Nat} (hk : k < d) :
    nibble (bitsAt v (4 * e) (4 * d)) k = nibble v.toNat (e + k) := by
  have base (n : Nat) : 2 ^ (4 * n) = 16 ^ n := pow_mul 2 4 n
  have width : 2 ^ (4 * d) = 16 ^ k * 16 ^ (d - k) := by
    rw [base, ← pow_add, Nat.add_sub_cancel' hk.le]
  have digit : 16 ∣ 16 ^ (d - k) := dvd_pow_self 16 (by omega)
  rw [bitsAt, nibble, nibble, width, Nat.mod_mul_right_div_self, Nat.mod_mod_of_dvd _ digit, base,
    Nat.div_div_eq_div_mul, pow_add]

theorem digitsOk_bitsAt_iff (v : Word32) (e d : Nat) :
    DigitsOk (bitsAt v (4 * e) (4 * d)) d ↔ ∀ k < d, nibble v.toNat (e + k) ≤ 9 :=
  forall₂_congr fun k hk => by rw [nibble_bitsAt v e hk]

/-- A BCD field's digits are its `d` nibbles (R290, R300). -/
theorem fieldValid_iff (h : Header) {f : Config.Field} {d : Nat} (width : f.width = 4 * d) (small : d ≤ 8) :
    fieldValid h f = true ↔ DigitsOk (bitsAt (h.word f.word) f.off f.width) d := by
  have digits : fieldDigits f = d := by rw [fieldDigits, width, Nat.mul_div_cancel_left _ (by decide)]
  rw [fieldValid, validBcd_iff, digits, fread_eq h (by omega)]
  rfl

theorem fieldValid_jday (h : Header) :
    fieldValid h Config.profile.jday = true ↔ DigitsOk (bitsAt (h.word 2) 20 12) 3 :=
  fieldValid_iff h (f := Config.profile.jday) (d := 3) rfl (by decide)

theorem fieldValid_sec (h : Header) :
    fieldValid h Config.profile.sec = true ↔ DigitsOk (bitsAt (h.word 2) 0 20) 5 :=
  fieldValid_iff h (f := Config.profile.sec) (d := 5) rfl (by decide)

theorem fieldValid_frac (h : Header) :
    fieldValid h Config.profile.frac = true ↔ DigitsOk (bitsAt (h.word 3) 16 16) 4 :=
  fieldValid_iff h (f := Config.profile.frac) (d := 4) rfl (by decide)

/-- The eight digits of word 2 are those of its two fields. -/
theorem digitsOk_word_iff (v : Word32) :
    DigitsOk v.toNat 8 ↔ DigitsOk (bitsAt v 20 12) 3 ∧ DigitsOk (bitsAt v 0 20) 5 := by
  have day := digitsOk_bitsAt_iff v 5 3
  have sec := digitsOk_bitsAt_iff v 0 5
  simp only [Nat.zero_add] at sec
  rw [day, sec]
  constructor
  case mp => exact fun all => ⟨fun k hk => all (5 + k) (by omega), fun k hk => all k (by omega)⟩
  case mpr =>
    rintro ⟨high, low⟩ k hk
    rcases Nat.lt_or_ge k 5 with small | large
    · exact low k small
    · obtain ⟨j, rfl⟩ := Nat.exists_eq_add_of_le large
      exact high j (by omega)

/-- Settles O48. -/
theorem headerValidateResult : Obligations.HeaderValidateResult := by
  intro s
  obtain ⟨small, sync, crc, digits⟩ := flagBits_spec
    (fread s.hdr Config.profile.sync == Config.profile.syncWord.toNat)
    (fread s.hdr Config.profile.crc == headerCrc Config.profile s.hdr)
    (fieldValid s.hdr Config.profile.jday && fieldValid s.hdr Config.profile.sec &&
      fieldValid s.hdr Config.profile.frac)
    (validityBits Config.profile s.hdr) rfl
  refine ⟨validityBits Config.profile s.hdr, ?_, small, ?_, ?_, ?_⟩
  · rw [← fread_crc]
    rfl
  · have whole : fread s.hdr Config.profile.sync = (s.hdr.word 0).toNat := by
      rw [fread_eq s.hdr (by decide)]
      exact (Nat.mod_eq_of_lt ((Nat.div_le_self _ _).trans_lt (s.hdr.word 0).isLt)).trans (Nat.div_one _)
    rw [sync, beq_iff_eq, whole, BitVec.toNat_inj]
    rfl
  · rw [crc, beq_iff_eq, fread_crc]
  · rw [digits, Bool.and_eq_true, Bool.and_eq_true, fieldValid_jday, fieldValid_sec, fieldValid_frac,
      digitsOk_word_iff]

/-- Settles O49. -/
theorem headerCrcAgreesWithEngine : Obligations.HeaderCrcAgreesWithEngine := by
  intro s t u validated checked
  cases validated
  obtain rfl := Host.Outcome.next.inj ((exec_crcChkr_of_le (m := 64) (n := 64)
    (s := { s with poly := 0x18005, arg0 := s.hdr.word 2 ++ s.hdr.word 3 })
    hasCheckLength_hdrPoly rfl (by decide)).symm.trans checked)
  obtain ⟨-, -, crc, -⟩ := flagBits_spec _ _ _ (validityBits Config.profile s.hdr) rfl
  rw [completed_res0, completed_res0, chkrWrites_res0, flagValue_eq_one_iff, beq_iff_eq,
    pack0_crcDiv_words_eq_zero_iff]
  exact (Bool.eq_iff_iff.1 crc).trans beq_iff_eq

/-! ## `HDR.CRCUPD` (42_header.md R292) -/

/-- The CRC field is in word 3. -/
theorem word_updateCrc_of_ne (h : Header) {w : Fin Config.hdrWords} (other : w ≠ 3) :
    (updateCrc Config.profile h).word w = h.word w :=
  BitVec.eq_of_getLsbD_eq fun b _ => by rw [getLsbD_updateCrc, if_neg fun crc => other crc.1]

/-- A second update finds the same CRC. -/
theorem updateCrc_updateCrc (h : Header) :
    updateCrc Config.profile (updateCrc Config.profile h) = updateCrc Config.profile h :=
  Header.ext_words fun w => BitVec.eq_of_getLsbD_eq fun b _ => by
    rw [getLsbD_updateCrc (updateCrc Config.profile h), headerCrc_updateCrc]
    split
    case isTrue crc => rw [getLsbD_updateCrc, if_pos crc]
    case isFalse => rfl

theorem exec_hdrCrcupd (s : State) : exec .hdrCrcupd s = .next (completed { s with
    hdr := updateCrc Config.profile s.hdr, res0 := BitVec.ofNat 64 (headerCrc Config.profile s.hdr) }) := rfl

/-- Settles O50. -/
theorem crcUpdateResult : Obligations.CrcUpdateResult := by
  intro s
  have field : fread (updateCrc Config.profile s.hdr) Config.profile.crc = headerCrc Config.profile s.hdr :=
    fread_fwrite_same s.hdr (by decide) (headerCrc_lt s.hdr)
  have frac : fread (updateCrc Config.profile s.hdr) Config.profile.frac = fread s.hdr Config.profile.frac :=
    fread_fwrite_other s.hdr (by decide) (by decide) (headerCrc_lt s.hdr) (by decide)
  rw [fread_eq _ (by decide), fread_eq _ (by decide)] at frac
  refine ⟨updateCrc Config.profile s.hdr, exec_hdrCrcupd s, word_updateCrc_of_ne _ (by decide),
    word_updateCrc_of_ne _ (by decide), word_updateCrc_of_ne _ (by decide), frac, fread_crc _ ▸ field,
    headerCrc_updateCrc _, fun t u first second => ?_⟩
  obtain rfl := Host.Outcome.next.inj ((exec_hdrCrcupd s).symm.trans first)
  obtain rfl := Host.Outcome.next.inj ((exec_hdrCrcupd _).symm.trans second)
  exact updateCrc_updateCrc s.hdr

end Sys2Proof.Machine

/-! The time in the header (42_header.md R300 to R304): the statements O51 to O54. -/

namespace Sys2Proof.Machine

open Safety

/-! ## Decoding the time (42_header.md R300) -/

theorem fread_jday (h : Header) : fread h Config.profile.jday = bitsAt (h.word 2) 20 12 := fread_eq h (by decide)

theorem fread_sec (h : Header) : fread h Config.profile.sec = bitsAt (h.word 2) 0 20 := fread_eq h (by decide)

theorem fread_frac (h : Header) : fread h Config.profile.frac = bitsAt (h.word 3) 16 16 := fread_eq h (by decide)

section

variable {h : Header}

/-- The time of a header whose three fields are valid. -/
theorem headerTime_of_valid (day : DigitsOk (bitsAt (h.word 2) 20 12) 3) (sec : DigitsOk (bitsAt (h.word 2) 0 20) 5)
    (frac : DigitsOk (bitsAt (h.word 3) 16 16) 4) :
    headerTime Config.profile h = .ok ⟨decimal (bitsAt (h.word 2) 20 12) 3, decimal (bitsAt (h.word 2) 0 20) 5,
      decimal (bitsAt (h.word 3) 16 16) 4⟩ := by
  simp only [← bcdDecode_eq_decimal, ← fread_jday, ← fread_sec, ← fread_frac]
  simp only [headerTime, (fieldValid_jday h).2 day, (fieldValid_sec h).2 sec, (fieldValid_frac h).2 frac]
  rfl

theorem headerTime_of_bad_day (day : ¬ DigitsOk (bitsAt (h.word 2) 20 12) 3) :
    headerTime Config.profile h = .error (4, bitsAt (h.word 2) 20 12) := by
  rw [← fieldValid_jday, Bool.not_eq_true] at day
  simp [headerTime, day, fread_jday]

theorem headerTime_of_bad_sec (day : DigitsOk (bitsAt (h.word 2) 20 12) 3)
    (sec : ¬ DigitsOk (bitsAt (h.word 2) 0 20) 5) :
    headerTime Config.profile h = .error (5, bitsAt (h.word 2) 0 20) := by
  rw [← fieldValid_sec, Bool.not_eq_true] at sec
  simp [headerTime, (fieldValid_jday h).2 day, sec, fread_sec]

theorem headerTime_of_bad_frac (day : DigitsOk (bitsAt (h.word 2) 20 12) 3)
    (sec : DigitsOk (bitsAt (h.word 2) 0 20) 5) (frac : ¬ DigitsOk (bitsAt (h.word 3) 16 16) 4) :
    headerTime Config.profile h = .error (6, bitsAt (h.word 3) 16 16) := by
  rw [← fieldValid_frac, Bool.not_eq_true] at frac
  simp [headerTime, (fieldValid_jday h).2 day, (fieldValid_sec h).2 sec, frac, fread_frac]

end

theorem exec_hdrGett_of_ok {s : State} {t : HeaderTime} (time : headerTime Config.profile s.hdr = .ok t) :
    exec .hdrGett s = .next (completed { s with
      res0 := BitVec.ofNat 64 t.day, res1 := BitVec.ofNat 64 t.sec, res2 := BitVec.ofNat 64 t.frac }) := by
  simp only [exec, execHdrGett, getTimeCommand, time, succeed]

theorem exec_hdrGett_of_error {s : State} {fid raw : Nat}
    (bad : headerTime Config.profile s.hdr = .error (fid, raw)) :
    exec .hdrGett s = .next (errored s .invalidEncoding (BitVec.ofNat 64 fid) (BitVec.ofNat 64 raw)) := by
  simp only [exec, execHdrGett, getTimeCommand, bad, raise]

theorem exec_hdrEpoch_of_error {s : State} {fid raw : Nat}
    (bad : headerTime Config.profile s.hdr = .error (fid, raw)) :
    exec .hdrEpoch s = .next (errored s .invalidEncoding (BitVec.ofNat 64 fid) (BitVec.ofNat 64 raw)) := by
  simp only [exec, execHdrEpoch, epochCommand, bad, raise]

/-- Settles O51. -/
theorem getTimeResult : Obligations.GetTimeResult := by
  intro s day sec frac
  exact ⟨fun hd hs hf => exec_hdrGett_of_ok (headerTime_of_valid hd hs hf),
    fun hd => exec_hdrGett_of_error (headerTime_of_bad_day hd),
    fun hd hs => exec_hdrGett_of_error (headerTime_of_bad_sec hd hs),
    fun hd hs hf => exec_hdrGett_of_error (headerTime_of_bad_frac hd hs hf)⟩

/-! ## Writing the time (42_header.md R301) -/

theorem ticksPerSecond_profile : ticksPerSecond Config.profile = 10000 := by decide

theorem ticksPerDay_profile : ticksPerDay Config.profile = 864000000 := by decide

theorem word_fwrite_of_ne (h : Header) {f : Config.Field} (v : Nat) {w : Fin Config.hdrWords} (other : w ≠ f.word) :
    (fwrite h f v).word w = h.word w := by
  rw [fwrite, Header.word_setWord_other _ _ other]

/-- Two BCD fields of one header: the digits written to one stay when the other is written. -/
theorem fread_writeBcdField_other (h : Header) {f g : Config.Field} (hf : f.off + f.width ≤ 32)
    (hg : g.off + g.width ≤ 32) (whole : f.width = 4 * fieldDigits f) (n : Nat)
    (apart : disjointFields f g = true) : fread (writeBcdField h f n) g = fread h g := by
  refine fread_fwrite_other h hf hg ?_ apart
  rw [whole, pow_mul]
  exact bcdEncode_lt n (fieldDigits f)

/-- Writing the CRC leaves the fields apart from it. -/
theorem fread_updateCrc_other (h : Header) {g : Config.Field} (hg : g.off + g.width ≤ 32)
    (apart : disjointFields Config.profile.crc g = true) : fread (updateCrc Config.profile h) g = fread h g :=
  fread_fwrite_other h (by decide) hg (headerCrc_lt h) apart

/-- A field that reads as one written with `n` is valid and holds `n`. -/
theorem field_of_fread_eq {h h' : Header} {f : Config.Field} (hf : f.off + f.width ≤ 32) (h4 : f.width % 4 = 0)
    {n : Nat} (hn : n < 10 ^ fieldDigits f) (same : fread h f = fread (writeBcdField h' f n) f) :
    fieldValid h f = true ∧ fieldDecode h f = n := by
  rw [fieldValid, fieldDecode, same]
  exact writeBcdField_valid h' hf h4 hn

section

variable (d : Nat) {sec frac : Nat} (hs : sec < 86400) (hf : frac < 10000) (h : Header)

theorem word_setTime_of_ne {w : Fin Config.hdrWords} (h2 : w ≠ 2) (h3 : w ≠ 3) :
    (setTime Config.profile d sec frac h).word w = h.word w := by
  rw [setTime, word_updateCrc_of_ne _ h3, writeBcdField, word_fwrite_of_ne _ _ h3, writeBcdField,
    word_fwrite_of_ne _ _ h2, writeBcdField, word_fwrite_of_ne _ _ h2]

include hs hf in
/-- The time that `HDR.SETT` writes is the time the header then holds. -/
theorem headerTime_setTime :
    headerTime Config.profile (setTime Config.profile d sec frac h) = .ok ⟨d % 1000, sec, frac⟩ := by
  have keepCrc (h : Header) {g : Config.Field} := fread_updateCrc_other h (g := g)
  have keepFrac (h : Header) {g : Config.Field} (hg : g.off + g.width ≤ 32) :=
    fread_writeBcdField_other h (f := Config.profile.frac) (g := g) (by decide) hg rfl frac
  have keepSec (h : Header) {g : Config.Field} (hg : g.off + g.width ≤ 32) :=
    fread_writeBcdField_other h (f := Config.profile.sec) (g := g) (by decide) hg rfl sec
  obtain ⟨day, dayIs⟩ := field_of_fread_eq (h := setTime Config.profile d sec frac h) (f := Config.profile.jday)
    (by decide) (by decide) (n := d % 1000) (Nat.mod_lt d (by decide : 0 < 1000)) (by
      rw [setTime, keepCrc _ (by decide) (by decide), keepFrac _ (by decide) (by decide),
        keepSec _ (by decide) (by decide)]
      rfl)
  obtain ⟨second, secondIs⟩ := field_of_fread_eq (h := setTime Config.profile d sec frac h)
    (f := Config.profile.sec) (by decide) (by decide) (n := sec) (hs.trans (by decide : 86400 < 10 ^ 5)) (by
      rw [setTime, keepCrc _ (by decide) (by decide), keepFrac _ (by decide) (by decide)])
  obtain ⟨tick, tickIs⟩ := field_of_fread_eq (h := setTime Config.profile d sec frac h)
    (f := Config.profile.frac) (by decide) (by decide) (n := frac) hf (by
      rw [setTime, keepCrc _ (by decide) (by decide)])
  simp [headerTime, day, second, tick, dayIs, secondIs, tickIs]

end

/-- Settles O52. -/
theorem setTimeResult : Obligations.SetTimeResult := by
  refine fun s => ⟨fun hs hf => ?_, fun late => ?_, fun hs late => ?_⟩
  · refine ⟨setTime Config.profile s.arg0.toNat s.arg1.toNat s.arg2.toNat s.hdr, ?_,
      word_setTime_of_ne _ _ (by decide) (by decide), word_setTime_of_ne _ _ (by decide) (by decide),
      fread_crc _ ▸ fread_crc_updateCrc _, fun t same => ?_⟩
    · simp only [exec, execHdrSett, setTimeCommand, ticksPerSecond_profile, if_neg (Nat.not_le.2 hs), if_neg (Nat.not_le.2 hf), succeed]
    · have time := headerTime_setTime s.arg0.toNat hs hf s.hdr
      rw [← same] at time
      simpa using exec_hdrGett_of_ok time
  · simp only [exec, execHdrSett, setTimeCommand, if_pos late, raise]
  · simp only [exec, execHdrSett, setTimeCommand, ticksPerSecond_profile, if_neg (Nat.not_le.2 hs), if_pos late, raise]

/-! ## The nearest candidate (42_header.md R303, R304) -/

theorem referenceTime_profile (rd rs rf : Nat) :
    referenceTime Config.profile rd rs rf = rd * 864000000 + rs * 10000 + rf := by
  rw [referenceTime, ticksPerSecond_profile, ticksPerDay_profile]

/-- `HDR.EPOCH`'s division in ticks: 864000000000 to a wrap period. -/
theorem nearestCandidate_profile (t : HeaderTime) (r : Nat) :
    nearestCandidate Config.profile t r =
      if 864000000000 < 2 * ((r - (t.day * 864000000 + t.sec * 10000 + t.frac)) % 864000000000)
      then (r - (t.day * 864000000 + t.sec * 10000 + t.frac)) / 864000000000 + 1
      else (r - (t.day * 864000000 + t.sec * 10000 + t.frac)) / 864000000000 := by
  have period : Config.profile.dayWrap * ticksPerDay Config.profile = 864000000000 := by decide
  have start : candidateTime Config.profile t 0 = t.day * 864000000 + t.sec * 10000 + t.frac := by
    rw [candidateTime, Nat.zero_mul, Nat.add_zero, ticksPerSecond_profile, ticksPerDay_profile]
  simp only [nearestCandidate, start, period]

/-- The distance of candidate `j` from the reference `r`. -/
def distance (t : HeaderTime) (r j : Nat) : Nat := (candidate t.day t.sec t.frac j - (r : Int)).natAbs

theorem distance_eq (t : HeaderTime) (r j : Nat) :
    distance t r j = (((t.day * 864000000 + t.sec * 10000 + t.frac + j * 864000000000 : Nat) : Int) - r).natAbs := by
  have position : candidate t.day t.sec t.frac j =
      ((t.day * 864000000 + t.sec * 10000 + t.frac + j * 864000000000 : Nat) : Int) := by
    rw [candidate]
    push_cast
    ring
  rw [distance, position]

/-- R303's minimum, the earliest candidate on a tie. -/
theorem nearestCandidate_spec (t : HeaderTime) (r : Nat) :
    (∀ j, distance t r (nearestCandidate Config.profile t r) ≤ distance t r j) ∧
    ∀ j < nearestCandidate Config.profile t r, distance t r (nearestCandidate Config.profile t r) < distance t r j := by
  rw [nearestCandidate_profile]
  simp only [distance_eq]
  refine ⟨fun j => ?_, fun j => ?_⟩ <;> split <;> omega

/-- A candidate is chosen by the references above its midpoint with the one before it, up to its midpoint with the next
(R304). -/
theorem nearestCandidate_eq {t : HeaderTime} {r k : Nat}
    (above : t.day * 864000000 + t.sec * 10000 + t.frac + k * 864000000000 < r + 432000000000)
    (upTo : r ≤ t.day * 864000000 + t.sec * 10000 + t.frac + k * 864000000000 + 432000000000) :
    nearestCandidate Config.profile t r = k := by
  rw [nearestCandidate_profile]
  split <;> omega

/-- A reference within half a period of a candidate resolves to it. -/
theorem nearestCandidate_of_near {t : HeaderTime} {r k : Nat} (near : 2 * distance t r k < 864000000000) :
    nearestCandidate Config.profile t r = k := by
  rw [distance_eq] at near
  exact nearestCandidate_eq (by omega) (by omega)

/-! ## `HDR.EPOCH` (42_header.md R303, R304) -/

section

variable {s : State} {t : HeaderTime} (time : headerTime Config.profile s.hdr = .ok t) {k : Nat}
  (nearest : nearestCandidate Config.profile t
    (s.arg0.toNat * 864000000 + s.arg1.toNat * 10000 + s.arg2.toNat) = k)
include time nearest

theorem exec_hdrEpoch_of_fits (fits : t.day + k * 1000 < 2 ^ 64) :
    exec .hdrEpoch s = .next (completed { s with
      res0 := BitVec.ofNat 64 (t.day + k * 1000), res1 := BitVec.ofNat 64 t.sec,
      res2 := BitVec.ofNat 64 t.frac }) := by
  have day : resolvedDay Config.profile t (referenceTime Config.profile s.arg0.toNat s.arg1.toNat s.arg2.toNat) =
      t.day + k * 1000 := by
    rw [referenceTime_profile, resolvedDay, nearest]
    rfl
  simp only [exec, execHdrEpoch, epochCommand, time, day, if_neg (Nat.not_le.2 fits), succeed]

theorem exec_hdrEpoch_of_large (large : 2 ^ 64 ≤ t.day + k * 1000) :
    exec .hdrEpoch s = .next (errored s .range 0 (BitVec.ofNat 64 t.day)) := by
  have day : resolvedDay Config.profile t (referenceTime Config.profile s.arg0.toNat s.arg1.toNat s.arg2.toNat) =
      t.day + k * 1000 := by
    rw [referenceTime_profile, resolvedDay, nearest]
    rfl
  simp only [exec, execHdrEpoch, epochCommand, time, day, if_pos large, raise]

end

/-- Settles O53. -/
theorem epochIsNearestCandidate : Obligations.EpochIsNearestCandidate := by
  intro s day sec frac
  refine ⟨fun hd hs hf => ?_, fun hd => exec_hdrEpoch_of_error (headerTime_of_bad_day hd),
    fun hd hs => exec_hdrEpoch_of_error (headerTime_of_bad_sec hd hs),
    fun hd hs hf => exec_hdrEpoch_of_error (headerTime_of_bad_frac hd hs hf)⟩
  have time := headerTime_of_valid hd hs hf
  obtain ⟨least, earliest⟩ := nearestCandidate_spec ⟨decimal day 3, decimal sec 5, decimal frac 4⟩
    (s.arg0.toNat * 864000000 + s.arg1.toNat * 10000 + s.arg2.toNat)
  exact ⟨_, least, earliest, exec_hdrEpoch_of_fits time rfl, exec_hdrEpoch_of_large time rfl⟩

/-- Settles O54. -/
theorem epochIgnoresSmallReferenceChange : Obligations.EpochIgnoresSmallReferenceChange := by
  constructor
  case left =>
    intro s k day sec frac hd hs hf fits near
    exact exec_hdrEpoch_of_fits (headerTime_of_valid hd hs hf) (nearestCandidate_of_near near) fits
  case right =>
    intro s k day sec frac hd hs hf noWrap midpoint
    have time : headerTime Config.profile s.hdr = .ok ⟨decimal day 3, decimal sec 5, decimal frac 4⟩ :=
      headerTime_of_valid hd hs hf
    clear_value day sec frac
    rw [candidate] at midpoint
    refine ⟨fun fits => ?_, fun fits => ?_⟩
    · refine exec_hdrEpoch_of_fits time (nearestCandidate_eq ?_ ?_) fits <;> simp only <;> omega
    · have later : (s.arg2 + 1).toNat = s.arg2.toNat + 1 := by
        rw [BitVec.toNat_add]
        exact Nat.mod_eq_of_lt noWrap
      refine exec_hdrEpoch_of_fits (s := { s with arg2 := s.arg2 + 1 }) time (nearestCandidate_eq ?_ ?_) fits <;>
        simp only [later] <;> omega

end Sys2Proof.Machine

/-! Codes and levels of single samples (43_quant.md R331 to R334, R342, R343), and the statement O60 that the level chosen
is the nearest. -/

namespace Sys2Proof.Machine

open Safety

/-! ## Binary32 patterns (00_scope.md R23) -/

theorem exponent_eq (v : Word32) : exponent v = v.toNat / 2 ^ 23 % 256 := by
  simp [exponent, Nat.shiftRight_eq_div_pow]

theorem fraction_eq (v : Word32) : fraction v = v.toNat % 2 ^ 23 := by
  simp [fraction]

theorem fraction_lt (v : Word32) : fraction v < 2 ^ 23 := by
  rw [fraction_eq]
  exact Nat.mod_lt _ (by decide)

theorem sign_eq (v : Word32) : v.getLsbD 31 = decide (2 ^ 31 ≤ v.toNat) := by
  have := v.isLt
  rw [BitVec.getLsbD, Nat.testBit_eq_decide_div_mod_eq]
  exact decide_eq_decide.2 (by omega)

/-- The value of a pattern is its magnitude with its sign. -/
theorem realValue_eq (v : Word32) :
    realValue v.toNat = if v.getLsbD 31 then -(magnitude v : Int) else magnitude v := by
  have sign : (if v.toNat < 2 ^ 31 then (1 : Int) else -1) = if v.getLsbD 31 then -1 else 1 := by
    rw [sign_eq]
    by_cases small : v.toNat < 2 ^ 31
    · rw [if_pos small, if_neg (by simpa using small)]
    · rw [if_neg small, if_pos (by simpa using small)]
  rw [realValue, sign, magnitude, exponent_eq, fraction_eq, ← Nat.cast_ite]
  split <;> simp only [neg_one_mul, one_mul]

/-! ## The threshold (43_quant.md R343) -/

theorem magnitude_thresh2 : magnitude Config.thresh2 = (2 ^ 23 + 0x0A20CF) * 2 ^ 127 := by decide +kernel

/-- A magnitude reaches the threshold exactly when its exponent and fraction do. -/
theorem thresh2_le_magnitude_iff (v : Word32) :
    magnitude Config.thresh2 ≤ magnitude v ↔ 128 < exponent v ∨ exponent v = 128 ∧ 0x0A20CF ≤ fraction v := by
  have hf := fraction_lt v
  rw [magnitude_thresh2, magnitude]
  generalize exponent v = e, fraction v = f at hf ⊢
  rcases Nat.lt_trichotomy e 128 with small | rfl | large
  · have bound : (if e = 0 then f else (2 ^ 23 + f) * 2 ^ (e - 1)) < 2 ^ 23 * 2 ^ 127 := by
      split
      · exact hf.trans_le (Nat.le_mul_of_pos_right _ (by decide))
      · calc (2 ^ 23 + f) * 2 ^ (e - 1) ≤ (2 ^ 23 + f) * 2 ^ 126 :=
              Nat.mul_le_mul_left _ (Nat.pow_le_pow_right (by decide) (by omega))
          _ < 2 ^ 23 * 2 ^ 127 := by omega
    constructor
    · intro reached
      omega
    · omega
  · rw [if_neg (by decide), Nat.mul_le_mul_right_iff (by decide)]
    omega
  · have bound : 2 ^ 23 * 2 ^ 128 ≤ (2 ^ 23 + f) * 2 ^ (e - 1) :=
      Nat.mul_le_mul (Nat.le_add_right _ _) (Nat.pow_le_pow_right (by decide) (by omega))
    rw [if_neg (by omega)]
    constructor
    · exact fun _ => .inl large
    · exact fun _ => (by norm_num : (2 ^ 23 + 0x0A20CF) * 2 ^ 127 ≤ 2 ^ 23 * 2 ^ 128).trans bound

/-- The outer levels are for the patterns from the threshold up to infinity, the sign apart. -/
theorem isOuter_iff (v : Word32) :
    isOuter v = true ↔ 0x400A20CF ≤ v.toNat % 2 ^ 31 ∧ v.toNat % 2 ^ 31 ≤ 0x7F800000 := by
  have bits : v.toNat % 2 ^ 31 = exponent v * 2 ^ 23 + fraction v := by
    rw [exponent_eq, fraction_eq]
    omega
  have he : exponent v < 256 := exponent_eq v ▸ Nat.mod_lt _ (by decide)
  have hf := fraction_lt v
  rw [isOuter, Bool.and_eq_true, decide_eq_true_eq, thresh2_le_magnitude_iff, bits, Bool.not_eq_true', isNan,
    Bool.and_eq_false_iff, beq_eq_false_iff_ne, bne_eq_false_iff_eq]
  omega

/-- The code of a pattern, as the statements read it. -/
theorem code_eq_codeOf {bps : Nat} {v : Nat} (hv : v < 2 ^ 32) : code bps (BitVec.ofNat 32 v) = codeOf bps v := by
  have value : (BitVec.ofNat 32 v).toNat = v := (BitVec.toNat_ofNat _ _).trans (Nat.mod_eq_of_lt hv)
  have sign : (BitVec.ofNat 32 v).getLsbD 31 = true ↔ ¬ v < 2 ^ 31 := by
    rw [sign_eq, value, decide_eq_true_eq, Nat.not_lt]
  have outer := isOuter_iff (BitVec.ofNat 32 v)
  rw [value] at outer
  simp only [code, codeOf, code1, code2, sign, outer, ite_not]
  by_cases one : bps = 1
  · simp only [one, if_true]
  · simp only [one, if_false]
    split <;> split <;> rfl

/-! ## The nearest level (43_quant.md R347) -/

/-- `OPT` in units of 2^-149. -/
def optValue : Int := 27820860 * 2 ^ 126

theorem realValue_levelOfCode :
    realValue (levelOfCode 0) = -optValue ∧ realValue (levelOfCode 1) = 2 ^ 149 ∧
    realValue (levelOfCode 2) = -2 ^ 149 ∧ realValue (levelOfCode 3) = optValue := by decide +kernel

/-- The threshold is the midpoint of the two magnitudes. -/
theorem two_mul_thresh2 : 2 * (magnitude Config.thresh2 : Int) = 2 ^ 149 + optValue := by
  rw [magnitude_thresh2, optValue]
  norm_num

/-- The value of the level that a pattern is coded to, in the two bit alphabet. -/
theorem realValue_level4_code2 {v : Word32} (finite : exponent v ≠ 255) :
    realValue (level4 (code2 v)).toNat =
      if v.getLsbD 31 then (if magnitude Config.thresh2 ≤ magnitude v then -optValue else -2 ^ 149)
      else (if magnitude Config.thresh2 ≤ magnitude v then optValue else 2 ^ 149) := by
  obtain ⟨l0, l1, l2, l3⟩ := realValue_levelOfCode
  have outer : isOuter v = decide (magnitude Config.thresh2 ≤ magnitude v) := by
    rw [isOuter, isNan, beq_eq_false_iff_ne.2 finite, Bool.false_and, Bool.not_false, Bool.true_and]
  rw [code2, outer]
  simp only [decide_eq_true_eq]
  split <;> split <;> rw [level4_toNat _ (by decide)] <;> assumption

/-- Settles O60: the threshold is the midpoint between the magnitudes of the two levels of each sign. -/
theorem encodedLevelIsNearest : Obligations.EncodedLevelIsNearest := by
  intro v finite
  have value := realValue_eq v
  have positive : (0 : Int) ≤ magnitude v := Int.natCast_nonneg _
  constructor
  case left =>
    obtain ⟨l0, l1, l2, l3⟩ := realValue_levelOfCode
    have coded := realValue_level4_code2 finite
    have midpoint := two_mul_thresh2
    have opt : 2 ^ 149 < optValue := by decide +kernel
    intro c hc
    rw [value, coded]
    generalize magnitude v = m, magnitude Config.thresh2 = t, optValue = o at *
    interval_cases c
    all_goals simp only [l0, l1, l2, l3]; split <;> split <;> omega
  case right =>
    have plus : realValue (levelOf 1 1) = 2 ^ 149 := by decide +kernel
    have minus : realValue (levelOf 1 0) = -2 ^ 149 := by decide +kernel
    intro c hc
    rw [value, code1]
    interval_cases c
    all_goals split <;> simp only [plus, minus] <;> omega

end Sys2Proof.Machine

/-! The sample codec's commands (43_quant.md R335 to R344): the statements O56 to O58, and O16 about the placing of every
DMEM command's arrays (60_exceptions.md R420). -/

namespace Sys2Proof.Machine

open Safety

/-! ## The commands past the checks of the request (43_quant.md R335, R336) -/

theorem geometry_of_legal {g : Word64} {b : Nat} (legal : GeometryOk g.toNat b) :
    geometry g b = .ok (sampleGeometry (levelsOf g.toNat) b) := by
  obtain ⟨high, channels, whole⟩ := legal
  rcases geometry_cases g b with ⟨bad, -⟩ | ⟨-, bad, -⟩ | ⟨-, -, bad, -⟩ | ⟨-, good⟩
  · exact absurd high bad
  · exact absurd bad channels
  · exact absurd whole bad
  · exact good

theorem geometry_of_high {g : Word64} (b : Nat) (high : g.toNat / 2 ^ 48 ≠ 0) : geometry g b = .error 1 :=
  if_pos (mt (geoHigh_eq_zero_iff g).1 high)

section

variable {g : Word64} (b : Nat) (high : g.toNat / 2 ^ 48 = 0)
include high

theorem geometry_of_no_channels (channels : g.toNat / 2 ^ 32 % 2 ^ 16 = 0) : geometry g b = .error 2 := by
  rw [geometry, if_neg (not_not.2 ((geoHigh_eq_zero_iff g).2 high)), geoChannels_eq, if_pos channels]

theorem geometry_of_partial_byte (channels : g.toNat / 2 ^ 32 % 2 ^ 16 ≠ 0)
    (part : levelsOf g.toNat * b % 8 ≠ 0) : geometry g b = .error 3 := by
  rw [geometry, if_neg (not_not.2 ((geoHigh_eq_zero_iff g).2 high)), geoChannels_eq, if_neg channels, geoSamples_eq]
  exact if_pos part

end

theorem exec_qDec_of_bad_geometry {b : BitVec 2} {s : State} {reason : Nat}
    (bad : geometry s.arg3 b.toNat = .error reason) :
    exec (.qDec b false) s = .next (errored s .badGeometry (BitVec.ofNat 64 reason) s.arg3) := by
  simp [exec, execQDec, bad, raise]

theorem exec_qEnc_of_bad_geometry {b : BitVec 2} {s : State} {reason : Nat}
    (bad : geometry s.arg3 b.toNat = .error reason) :
    exec (.qEnc b false) s = .next (errored s .badGeometry (BitVec.ofNat 64 reason) s.arg3) := by
  simp [exec, execQEnc, bad, raise]

section

variable {b : BitVec 2} {s : State} (legal : GeometryOk s.arg3.toNat b.toNat)
include legal

/-- `Q.DEC` of a legal geometry: its checks in their order, then the levels. -/
theorem exec_qDec_of_legal :
    exec (.qDec b false) s =
      if s.arg1.toNat < levelsOf s.arg3.toNat * b.toNat / 8 then
        raise s .truncatedData (BitVec.ofNat 64 (levelsOf s.arg3.toNat * b.toNat / 8)) s.arg1
      else if !arrayOk s.arg0.toNat (levelsOf s.arg3.toNat * b.toNat / 8) 1 then raise s .address 0 s.arg0
      else if !arrayOk s.arg2.toNat (levelsOf s.arg3.toNat) 4 then raise s .address 2 s.arg2
      else succeed { s with
        dmem := writeArray s.dmem s.arg2.toNat 4
          (decodeLevels s.dmem s.arg0.toNat b.toNat (sampleGeometry (levelsOf s.arg3.toNat) b.toNat))
        res0 := BitVec.ofNat 64 (levelsOf s.arg3.toNat)
        res1 := BitVec.ofNat 64 (levelsOf s.arg3.toNat * b.toNat / 8) } := by
  simp only [exec, execQDec, Bool.false_and, Bool.false_eq_true, if_false, geometry_of_legal legal]
  rfl

/-- `Q.ENC` of a legal geometry: its checks in their order, then the packed bytes. -/
theorem exec_qEnc_of_legal :
    exec (.qEnc b false) s =
      if !arrayOk s.arg0.toNat (levelsOf s.arg3.toNat) 4 then raise s .address 0 s.arg0
      else if !arrayOk s.arg2.toNat (levelsOf s.arg3.toNat * b.toNat / 8) 1 then raise s .address 2 s.arg2
      else succeed { s with
        dmem := writeArray s.dmem s.arg2.toNat 1
          (encodeLevels s.dmem s.arg0.toNat b.toNat (sampleGeometry (levelsOf s.arg3.toNat) b.toNat))
        res0 := BitVec.ofNat 64 (levelsOf s.arg3.toNat)
        res1 := BitVec.ofNat 64 (levelsOf s.arg3.toNat * b.toNat / 8) } := by
  simp only [exec, execQEnc, Bool.false_and, Bool.false_eq_true, if_false, geometry_of_legal legal]
  rfl

variable (source : Placed s.arg0.toNat (levelsOf s.arg3.toNat * b.toNat / 8) 1)
  (destination : Placed s.arg2.toNat (levelsOf s.arg3.toNat) 4)
include source destination

theorem exec_qDec_of_placed (supplied : levelsOf s.arg3.toNat * b.toNat / 8 ≤ s.arg1.toNat) :
    exec (.qDec b false) s = .next (completed { s with
      dmem := writeArray s.dmem s.arg2.toNat 4
        (decodeLevels s.dmem s.arg0.toNat b.toNat (sampleGeometry (levelsOf s.arg3.toNat) b.toNat))
      res0 := BitVec.ofNat 64 (levelsOf s.arg3.toNat)
      res1 := BitVec.ofNat 64 (levelsOf s.arg3.toNat * b.toNat / 8) }) := by
  rw [exec_qDec_of_legal legal, if_neg (Nat.not_lt.2 supplied)]
  simp [arrayOk_of_placed source, arrayOk_of_placed destination, succeed]

end

theorem exec_qEnc_of_placed {b : BitVec 2} {s : State} (legal : GeometryOk s.arg3.toNat b.toNat)
    (source : Placed s.arg0.toNat (levelsOf s.arg3.toNat) 4)
    (destination : Placed s.arg2.toNat (levelsOf s.arg3.toNat * b.toNat / 8) 1) :
    exec (.qEnc b false) s = .next (completed { s with
      dmem := writeArray s.dmem s.arg2.toNat 1
        (encodeLevels s.dmem s.arg0.toNat b.toNat (sampleGeometry (levelsOf s.arg3.toNat) b.toNat))
      res0 := BitVec.ofNat 64 (levelsOf s.arg3.toNat)
      res1 := BitVec.ofNat 64 (levelsOf s.arg3.toNat * b.toNat / 8) }) := by
  rw [exec_qEnc_of_legal legal]
  simp [arrayOk_of_placed source, arrayOk_of_placed destination, succeed]

theorem toNat_eq_one_or_two {b : BitVec 2} (h : b = 1 ∨ b = 2) : b.toNat = 1 ∨ b.toNat = 2 := by
  rcases h with rfl | rfl <;> decide

/-- Settles O56. -/
theorem sampleDecodeResult : Obligations.SampleDecodeResult := by
  intro b s hb legal k need supplied source destination
  have h := toNat_eq_one_or_two hb
  refine ⟨_, exec_qDec_of_placed legal source destination supplied,
    fun i hi => memRead_writeArray_decodeLevels h s.dmem s.dmem s.arg0.toNat s.arg2.toNat hi,
    fun byte outside => memByte_writeArray_outside _ _ ?_⟩
  rwa [decodeLevels_length, Nat.mul_comm]

/-- Settles O57. -/
theorem sampleEncodeResult : Obligations.SampleEncodeResult := by
  intro b s hb legal k need source destination
  have h := toNat_eq_one_or_two hb
  refine ⟨_, exec_qEnc_of_placed legal source destination, fun i hi => ?_,
    fun byte outside => memByte_writeArray_outside _ _ ?_⟩
  · rw [packedCode_writeArray_encodeLevels h s.dmem s.dmem s.arg0.toNat s.arg2.toNat (levels_mul_eq legal) hi,
      code_eq_codeOf (memRead_lt s.dmem _ 4)]
  · rwa [encodeLevels_length, Nat.mul_one]

/-- Settles O58. -/
theorem sampleRequestRefusals : Obligations.SampleRequestRefusals := by
  intro b s i _
  have refused {reason : Nat} (sample : i = .qDec b false ∨ i = .qEnc b false)
      (bad : geometry s.arg3 b.toNat = .error reason) :
      exec i s = .next (errored s .badGeometry (BitVec.ofNat 64 reason) s.arg3) := by
    rcases sample with rfl | rfl
    · exact exec_qDec_of_bad_geometry bad
    · exact exec_qEnc_of_bad_geometry bad
  refine ⟨?_, fun sample => ⟨fun high => refused sample (geometry_of_high _ high),
    fun high channels => refused sample (geometry_of_no_channels _ high channels),
    fun high channels part => refused sample (geometry_of_partial_byte _ high channels part)⟩, fun legal short => ?_⟩
  · rintro (rfl | rfl) <;> rfl
  · rw [exec_qDec_of_legal legal, if_pos short, raise]

/-! ## The placing of arrays (60_exceptions.md R420, R411) -/

/-- Settles O16: each command's own order of checks, with the placed and misplaced arrays' answers. -/
theorem misplacedArrayIsReported : Obligations.MisplacedArrayIsReported := by
  intro s
  refine ⟨fun i array => ?_, fun l c h => ?_, fun misplaced => ?_, fun b _ legal => ?_⟩
  · refine ⟨fun source => ?_, fun source destination => ?_⟩
    · rcases array with rfl | ⟨d, rfl⟩
      · exact bcdArray_of_source_misplaced source
      · exact bcdArray_of_source_misplaced source
    · rcases array with rfl | ⟨d, rfl⟩
      · exact bcdArray_of_destination_misplaced source destination
      · exact bcdArray_of_destination_misplaced source destination
  · have size := checkLength_of h
    refine ⟨fun source => ?_, fun source destination => ?_, fun long source => ?_⟩
    · simp [exec, execCrcGen, arrayOk_of_not_placed source, raise]
    · simp [exec, execCrcGen, size, arrayOk_of_placed source, arrayOk_of_not_placed destination, raise]
    · simp [exec, execCrcChk, size, Nat.not_lt.2 long, arrayOk_of_not_placed source, raise]
  · have checked : arrayOk s.arg0.toNat Config.hdrWords 4 = false := arrayOk_of_not_placed misplaced
    refine ⟨exec_hdrLd_of_not_arrayOk checked, exec_hdrSt_of_not_arrayOk checked, ?_⟩
    simp [exec, execHdrEq, checked, raise]
  · dsimp only
    rw [exec_qDec_of_legal legal, exec_qEnc_of_legal legal]
    refine ⟨fun supplied => ⟨fun source => ?_, fun source destination => ?_⟩, fun source => ?_,
      fun source destination => ?_⟩
    · simp [Nat.not_lt.2 supplied, arrayOk_of_not_placed source, raise]
    · simp [Nat.not_lt.2 supplied, arrayOk_of_placed source, arrayOk_of_not_placed destination, raise]
    · simp [arrayOk_of_not_placed source, raise]
    · simp [arrayOk_of_placed source, arrayOk_of_not_placed destination, raise]

end Sys2Proof.Machine
